-- ==== Sys2Proof/Word.lean ====
section
/-! DEFINITION. The two machine words of URF: the byte (every datum, spec R40) and the 16-bit command word (spec R60). -/

namespace Sys2Proof

/-- A byte: 8 bits, unsigned (spec R5). -/
abbrev Byte := BitVec 8

/-- A command word `op[15:8], imm[7:0]` (spec R60). -/
abbrev Word := BitVec 16

end Sys2Proof
end

