-- ==== Sys2Proof/Config.lean ====
section
/-! DEFINITION. The parameters of spec R4, and the values the spec leaves free.

The OPEN parameters of R4 are an argument of the model: `Params` is a field of State that no step writes, so a statement
about every state is a statement about every `K`, every divisor, every register map (log 1). The free values are constants
without a body, so nothing can be proved of the value they take (log 3, 4, 5). -/

namespace Sys2Proof

/-- The OPEN parameters of spec R4. `IRQ_PICK` is a relation (spec R182) and is realised by the schedule; `SYNC_MODE` is
fixed to coherent; `N` and `FMT_MAX` are derived; `DATA_BITS` is fixed. -/
structure Params where
  /-- cursor width in bits, `K >= 1` (`Params.wf`) -/
  K : Nat
  /-- `BAUD_DIV`: written at `I4`, read by no rule -/
  baudDiv : Nat
  /-- `SETTLE_COUNT`: read by no rule (spec R104) -/
  settleCount : Nat
  /-- `REG_MAP`: the addresses of `REG0` to `REG11`, injective, read by no rule (spec R46) -/
  regMap : List Nat
deriving DecidableEq, Repr

/-- Slots per ring, `N = 2^K` (spec R4). -/
def Params.N (p : Params) : Nat := 2 ^ p.K

/-- Size of the scratch buffer, `FMT_MAX = N` (spec R4). -/
def Params.fmtMax (p : Params) : Nat := p.N

namespace Config

/-- `DATA_BITS`, FIXED 8 (spec R4). -/
def dataBits : Nat := 8

/-- `draw(8)`: the byte that the n-th draw gives (spec R6, R109). Free: no body. -/
opaque freeByte : Nat → Byte

/-- The power-up contents of the scratch buffer after the reset with this seed (spec R27, R36). Free: no body. -/
opaque freeFmt : Nat → Nat → Byte

/-- Reset values the spec calls unspecified (spec R36), by reset seed and element number. Free: no body. -/
opaque freeResetBit : Nat → Nat → Bool

/-- As `freeResetBit`, for the byte-wide elements. Free: no body. -/
opaque freeResetByte : Nat → Nat → Byte

/-- As `freeResetBit`, for the elements whose width the spec leaves open or makes `K+1`. Free: no body. -/
opaque freeResetNat : Nat → Nat → Nat

/-- DESIGN CHOICE (log 2): the parameter values `State.reset` starts from; the spec gives none. `K = 2` is the
illustration value of the spec's vectors. -/
def params : Params := { K := 2, baudDiv := 0, settleCount := 0, regMap := List.range 12 }

end Config

end Sys2Proof
end

