-- ==== Sys2Proof/Syntax.lean ====
section
/-! DEFINITION. The operation set of URF (spec R63), one constructor per row of opcode_table.json, its ports (spec R60) and
the pseudo-operations (spec R71). -/

namespace Sys2Proof

/-- The 17 operations of spec R63. A format-B operation carries its operand byte (spec R62). -/
inductive Instr
  | init
  | send (b : Byte)
  | recv
  | sendf
  | senda (b : Byte)
  | recva
  | sendfa
  | irqen
  | irqdis
  | rxh
  | txh
  | putRx (b : Byte)
  | putTx (b : Byte)
  | getRx
  | getTx
  | fmtclr
  | fmtch (b : Byte)
deriving DecidableEq, Repr

/-- The four request ports of spec R60. -/
inductive Port
  | command | dispatch | ring | renderer
deriving DecidableEq, Repr

/-- The three ports the `Caller` drives (spec R60). -/
inductive CallerPort
  | command | ring | renderer
deriving DecidableEq, Repr

/-- A caller-side port as a port. -/
def CallerPort.toPort : CallerPort → Port
  | .command => .command
  | .ring => .ring
  | .renderer => .renderer

/-- The two rings (spec R80). -/
inductive RingId
  | rx | tx
deriving DecidableEq, Repr

/-- The two GPIO pins (spec R105). -/
inductive Pin
  | txpin | rxpin
deriving DecidableEq, Repr

/-- A word the `Caller` presents, and the port it presents it on (spec R66, R70). -/
structure Request where
  port : CallerPort
  word : Word
deriving DecidableEq, Repr

/-- The pseudo-operations of spec R71; their expansion is `Pseudo.expand` in Decode.lean. -/
inductive Pseudo
  | fmt (s : List Byte)
  | print (s : List Byte)
  | printa (s : List Byte)
deriving DecidableEq, Repr

/-- The two formats of spec R61. -/
inductive Format
  | B | Z
deriving DecidableEq, Repr

/-- One row of the machine-readable opcode table (spec R61, R63). -/
structure OpRow where
  mnemonic : String
  format : Format
  opcode : Byte
  port : Port
deriving DecidableEq, Repr

end Sys2Proof
end

