-- ==== Sys2Proof/WellFormed.lean ====
section
/-! DEFINITION. What is well formed: the parameters (spec R4, open-parameter table of 92_eei_decisions.md) and an operation
on a port (spec R60, R64). An `Instr` by itself is always well formed, since a byte operand has all 256 values legal (spec
R61). -/

namespace Sys2Proof

/-- The constraints on the open parameters: `K >= 1`; `REG_MAP` gives the twelve registers distinct addresses. -/
def Params.wf (p : Params) : Bool :=
  decide (1 ≤ p.K) && decide (p.regMap.length = 12) && decide p.regMap.Nodup

/-- The port that accepts an operation (spec R60, R63). -/
def Instr.port : Instr → Port
  | .init => .command
  | .send _ => .command
  | .recv => .command
  | .sendf => .command
  | .senda _ => .command
  | .recva => .command
  | .sendfa => .command
  | .irqen => .command
  | .irqdis => .command
  | .rxh => .dispatch
  | .txh => .dispatch
  | .putRx _ => .ring
  | .putTx _ => .ring
  | .getRx => .ring
  | .getTx => .ring
  | .fmtclr => .renderer
  | .fmtch _ => .renderer

/-- An operation is well formed on a port when the port accepts its opcode (spec R60, R64). -/
def Instr.wfOn (p : Port) (i : Instr) : Bool := decide (i.port = p)

/-- A program of the `Caller` is well formed when each operation is on a caller-side port that accepts it (spec R70, R187). -/
def Instr.wfProgram (l : List (CallerPort × Instr)) : Bool := l.all fun x => x.2.wfOn x.1.toPort

end Sys2Proof
end

