-- ==== Sys2Proof/Decode.lean ====
section
/-! DEFINITION. Decoding a 16-bit word (spec R60, R61, R63 to R65), rejecting by name, and the encoder written from the same
table. Every bit pattern is the spec's own (decision D12). -/

namespace Sys2Proof

/-- Why a word is illegal (spec R64). -/
inductive Reject
  /-- no row of R63 has this opcode -/
  | noSuchOpcode
  /-- a format-Z opcode with a non-zero `imm` -/
  | nonzeroImm
  /-- a legal word on a port that does not accept its opcode -/
  | wrongPort
deriving DecidableEq, Repr

/-- `op[15:8]` (spec R60). -/
def opField (w : Word) : Byte := w.extractLsb' 8 8

/-- `imm[7:0]` (spec R60). -/
def immField (w : Word) : Byte := w.extractLsb' 0 8

/-- A format-Z operation: its `imm` must be zero (spec R61). -/
def decodeZ (w : Word) (i : Instr) : Except Reject Instr :=
  if immField w = 0x00#8 then .ok i else .error .nonzeroImm

/-- The decoder: read `word[15:8]`, look the opcode up, and for format Z check `word[7:0] == 0` (spec R63, R65). -/
def decode (w : Word) : Except Reject Instr :=
  match opField w with
  | 0x01#8 => decodeZ w .init
  | 0x02#8 => .ok (.send (immField w))
  | 0x03#8 => decodeZ w .recv
  | 0x04#8 => decodeZ w .sendf
  | 0x05#8 => .ok (.senda (immField w))
  | 0x06#8 => decodeZ w .recva
  | 0x07#8 => decodeZ w .sendfa
  | 0x08#8 => decodeZ w .irqen
  | 0x09#8 => decodeZ w .irqdis
  | 0x10#8 => decodeZ w .rxh
  | 0x11#8 => decodeZ w .txh
  | 0x20#8 => .ok (.putRx (immField w))
  | 0x21#8 => .ok (.putTx (immField w))
  | 0x22#8 => decodeZ w .getRx
  | 0x23#8 => decodeZ w .getTx
  | 0x30#8 => decodeZ w .fmtclr
  | 0x31#8 => .ok (.fmtch (immField w))
  | _ => .error .noSuchOpcode

/-- Decoding on a port: a legal word on a port that does not accept it is illegal there (spec R64). -/
def decodeOn (p : Port) (w : Word) : Except Reject Instr :=
  match decode w with
  | .error e => .error e
  | .ok i => if i.wfOn p then .ok i else .error .wrongPort

/-- The opcode of an operation (spec R63). -/
def Instr.opcode : Instr → Byte
  | .init => 0x01
  | .send _ => 0x02
  | .recv => 0x03
  | .sendf => 0x04
  | .senda _ => 0x05
  | .recva => 0x06
  | .sendfa => 0x07
  | .irqen => 0x08
  | .irqdis => 0x09
  | .rxh => 0x10
  | .txh => 0x11
  | .putRx _ => 0x20
  | .putTx _ => 0x21
  | .getRx => 0x22
  | .getTx => 0x23
  | .fmtclr => 0x30
  | .fmtch _ => 0x31

/-- The `imm` byte of an operation: its operand in format B, zero in format Z (spec R61). -/
def Instr.imm : Instr → Byte
  | .send b => b
  | .senda b => b
  | .putRx b => b
  | .putTx b => b
  | .fmtch b => b
  | .init => 0
  | .recv => 0
  | .sendf => 0
  | .recva => 0
  | .sendfa => 0
  | .irqen => 0
  | .irqdis => 0
  | .rxh => 0
  | .txh => 0
  | .getRx => 0
  | .getTx => 0
  | .fmtclr => 0

/-- The word `op[15:8], imm[7:0]` of an opcode and an `imm` byte (spec R60). -/
def joinWord (op imm : Byte) : Word := op.setWidth 16 <<< 8 ||| imm.setWidth 16

/-- The encoder: the word of an operation (spec R60, R61). -/
def encode (i : Instr) : Word := joinWord i.opcode i.imm

/-- The mnemonic of an operation, as opcode_table.json spells it (spec R63, R70). -/
def Instr.mnemonic : Instr → String
  | .init => "INIT"
  | .send _ => "SEND"
  | .recv => "RECV"
  | .sendf => "SENDF"
  | .senda _ => "SENDA"
  | .recva => "RECVA"
  | .sendfa => "SENDFA"
  | .irqen => "IRQEN"
  | .irqdis => "IRQDIS"
  | .rxh => "RXH"
  | .txh => "TXH"
  | .putRx _ => "PUT.RX"
  | .putTx _ => "PUT.TX"
  | .getRx => "GET.RX"
  | .getTx => "GET.TX"
  | .fmtclr => "FMTCLR"
  | .fmtch _ => "FMTCH"

/-- The table of spec R63, row by row, as opcode_table.json has it. -/
def opTable : List OpRow :=
  [⟨"INIT", .Z, 0x01, .command⟩, ⟨"SEND", .B, 0x02, .command⟩, ⟨"RECV", .Z, 0x03, .command⟩,
   ⟨"SENDF", .Z, 0x04, .command⟩, ⟨"SENDA", .B, 0x05, .command⟩, ⟨"RECVA", .Z, 0x06, .command⟩,
   ⟨"SENDFA", .Z, 0x07, .command⟩, ⟨"IRQEN", .Z, 0x08, .command⟩, ⟨"IRQDIS", .Z, 0x09, .command⟩] ++
  [⟨"RXH", .Z, 0x10, .dispatch⟩, ⟨"TXH", .Z, 0x11, .dispatch⟩] ++
  [⟨"PUT.RX", .B, 0x20, .ring⟩, ⟨"PUT.TX", .B, 0x21, .ring⟩, ⟨"GET.RX", .Z, 0x22, .ring⟩, ⟨"GET.TX", .Z, 0x23, .ring⟩] ++
  [⟨"FMTCLR", .Z, 0x30, .renderer⟩, ⟨"FMTCH", .B, 0x31, .renderer⟩]

/-- The match value of a row: `opcode << 8` (spec R61). -/
def OpRow.matchWord (r : OpRow) : Word := joinWord r.opcode 0x00

/-- The mask of a row: `0xFF00` in format B, `0xFFFF` in format Z (spec R61). -/
def OpRow.mask (r : OpRow) : Word :=
  match r.format with
  | .B => 0xFF00
  | .Z => 0xFFFF

/-- A word matches a row: `word & mask == match` (spec R61). -/
def OpRow.hits (r : OpRow) (w : Word) : Bool := w &&& r.mask == r.matchWord

/-- The expansions of spec R71. -/
def Pseudo.expand : Pseudo → List Instr
  | .fmt s => .fmtclr :: s.map Instr.fmtch
  | .print s => (.fmtclr :: s.map Instr.fmtch) ++ [.sendf]
  | .printa s => (.fmtclr :: s.map Instr.fmtch) ++ [.sendfa]

/-- The caller-side port for a word: the one that accepts its opcode; the command port for a word that no caller-side port
accepts, where it is refused (spec R60, R64). -/
def callerPortOf (w : Word) : CallerPort :=
  match decode w with
  | .ok i =>
    match i.port with
    | .ring => .ring
    | .renderer => .renderer
    | .command => .command
    | .dispatch => .command
  | .error _ => .command

/-- The word of an opcode-table row: bit 0 is the least significant bit; bits from `nbits` up are zero. A word is one
value on a port and has no byte order (spec R42). -/
def tableWord (nbits w : Nat) : Word := BitVec.ofNat 16 (w % 2 ^ nbits)

/-- What the decoder reads from a word numbered as opcode_table.json numbers it; none where it refuses. -/
def decodeTableWord (nbits w : Nat) : Option Instr :=
  match decode (tableWord nbits w) with
  | .ok i => some i
  | .error _ => none

end Sys2Proof
end

