-- ==== Sys2Proof/Machine/State.lean ====
section
/-! DEFINITION. The whole state of URF as plain data (spec R10 to R30), the agents' pending events (spec R7), and the state
after reset (spec R36, R200). A 1-bit field is a Bool (false is 0); a value whose width depends on the open `K` is a Nat
whose range the invariant `InRange` of Safety.lean states (log 1). -/

namespace Sys2Proof.Machine

/-- Caller µ-states, the values of `cpc` (spec R13, R68); their numbers are `CState.code`. -/
inductive CState
  | idle
  | i1 | i2 | i3 | i4 | i5 | i6 | i7
  | s0 | s1
  | r0 | r1
  | f0
  | a0 | a0e | a1 | a2 | a3 | a4 | a5
  | b0 | b1 | b1e | b2 | b3 | b4 | b5
  | g0
deriving DecidableEq, Repr

/-- Handler µ-states, the values of `hpc` (spec R14, R68); their numbers are `HState.code`. -/
inductive HState
  | none
  | h0 | h1 | h2 | h3 | h4
  | w0 | w1 | w2
deriving DecidableEq, Repr

/-- The two contexts (spec R15, R186). -/
inductive Ctx
  | caller | handler
deriving DecidableEq, Repr

/-- The `ret` latch: where the byte-send sub-sequence goes when it ends (spec R15). -/
inductive Ret
  | done | f0 | g0
deriving DecidableEq, Repr

/-- `PIN_FUNC` (spec R21, R105). -/
inductive PinFunc
  | default | altUart
deriving DecidableEq, Repr

/-- `PIN_PULL` (spec R21, R105). -/
inductive PinPull
  | unspec | none
deriving DecidableEq, Repr

/-- The bits of the sticky `FAULT` register (spec R25, R176); the bit numbers are `FaultBit.bit`. -/
inductive FaultBit
  | illcmd | preinit | txovr | rxund | fmtlen | owner
deriving DecidableEq, Repr

/-- The four address spaces of spec R29 that are byte arrays; the fourth, `REG`, is `Regs`. -/
inductive Space
  | rxm | txm | fmt
deriving DecidableEq, Repr

/-- One ring: cursors, their Gray copies and its storage (spec R80, R10, R12, R26). Storage lists the bytes that differ
from 0x00, by rising index. -/
structure Ring where
  wr : Nat
  rd : Nat
  wrGs : Nat
  rdGs : Nat
  mem : List Host.Cell
deriving DecidableEq, Repr

/-- The adapter's register set `REG0` to `REG11`, field by field (spec R20, R21). -/
structure Regs where
  /-- REG0 `ENABLE.PERIPH_EN` -/
  periphEn : Bool
  /-- REG1 `CTRL.TX_EN` -/
  txEn : Bool
  /-- REG1 `CTRL.RX_EN` -/
  rxEn : Bool
  /-- REG2 `LCR.DSIZE`; its only legal written value is `DATA_BITS` -/
  dsize : Nat
  /-- REG3 `MCR.FLOW_EN` -/
  flowEn : Bool
  /-- REG4 `BAUD.DIV`, width unspecified -/
  div : Nat
  /-- REG5 `FCR.FIFO_EN` -/
  fifoEn : Bool
  /-- REG6 `LSR.TX_READY` -/
  txReady : Bool
  /-- REG6 `LSR.RX_READY` -/
  rxReady : Bool
  /-- REG7 `DATA`, read side -/
  rxHold : Byte
  /-- REG7 `DATA`, write side -/
  txHold : Byte
  /-- REG8 `IER.RX_IE`, the inbound FSM's state -/
  rxIe : Bool
  /-- REG8 `IER.TX_IE`, the outbound FSM's state -/
  txIe : Bool
  /-- REG9 `IRQLINE.LINE_EN` -/
  lineEn : Bool
  /-- REG10 `GPFSEL.PIN_FUNC[TXPIN]` -/
  pinFuncTx : PinFunc
  /-- REG10 `GPFSEL.PIN_FUNC[RXPIN]` -/
  pinFuncRx : PinFunc
  /-- REG11 `GPPUD.PIN_PULL[TXPIN]` -/
  pinPullTx : PinPull
  /-- REG11 `GPPUD.PIN_PULL[RXPIN]` -/
  pinPullRx : PinPull
deriving DecidableEq, Repr

/-- The step of one agent (spec R7), as the schedule names it (spec R70). -/
inductive Event
  /-- the agent that owns the hardware thread: `Caller` when `ctx == CALLER`, else `Handler` -/
  | thread
  /-- `Line`: `LineRx(b)` (spec R112) -/
  | lineRx (b : Byte)
  /-- `Line`: `LineTx` (spec R113) -/
  | lineTx
  /-- `Framework` presents a word on the dispatch port (spec R180) -/
  | dispatch (w : Word)
  /-- a handler word entered by direct call (spec R155) -/
  | call (w : Word)
  /-- `Reset` (spec R200) -/
  | reset
deriving DecidableEq, Repr

/-- The machine. -/
structure State where
  /-- the open parameters (spec R4); no step writes them -/
  params : Params
  /-- ring `RX`: x0, x1, `RX.wr_gs`, `RX.rd_gs`, `RXM` -/
  rx : Ring
  /-- ring `TX`: x2, x3, `TX.wr_gs`, `TX.rd_gs`, `TXM` -/
  tx : Ring
  /-- x4 -/
  opb : Byte
  /-- x5 -/
  res : Byte
  /-- x6 -/
  cnt : Nat
  /-- x7 -/
  fi : Nat
  /-- x8 -/
  fmtLen : Nat
  /-- x9 -/
  hb : Byte
  /-- result flag (spec R10, R19) -/
  ok : Bool
  /-- carriage return placed (spec R10, R19) -/
  crp : Bool
  /-- `FMT`: the characters written since reset, by rising index (spec R27) -/
  fmtBuf : List Host.Cell
  /-- caller micro-program counter (spec R13) -/
  cpc : CState
  /-- handler micro-program counter (spec R14) -/
  hpc : HState
  /-- which context owns the hardware thread (spec R15) -/
  ctx : Ctx
  /-- return latch (spec R15) -/
  ret : Ret
  /-- the adapter's registers (spec R21) -/
  regs : Regs
  /-- sticky `FAULT` (spec R25) -/
  fault : BitVec 6
  /-- every byte written to `DATA`, oldest first (spec R28) -/
  txLog : List Byte
  /-- every byte the line carried, oldest first (spec R28) -/
  lineOut : List Byte
  /-- bytes the line lost (spec R28) -/
  rxLost : Nat
  /-- set by `I7` (spec R28) -/
  inited : Bool
  /-- the words the `Caller` has still to issue, in order (spec R70); the model's own field (log 9) -/
  prog : List Request
  /-- which agent steps next, in order (spec R7, R47, R70); the model's own field (log 7) -/
  sched : List Event
  /-- how many free values have been drawn (spec R6 `draw(8)`); the model's own field (log 4) -/
  draws : Nat
  /-- names the free contents the last reset left in `FMT` (spec R36); each reset has its own; the model's own field (log 5) -/
  seed : Nat
deriving DecidableEq, Repr

/-- Why the machine stops. -/
inductive Fault
  /-- Raised by a µop or operation that indexes a byte array outside `0 <= i < size` (spec R41). Safe: spec R41 says the
  requirement always holds, and no state that keeps the invariant `InRange` reaches this stop (log 14). -/
  | indexOutOfRange
deriving DecidableEq, Repr

/-- Why an instruction has no meaning. -/
inductive Refusal
  /-- Raised by an arm of `exec` without a meaning, by the instruction's mnemonic; no arm is left so. Safe. -/
  | notModelled (mnemonic : String)
deriving DecidableEq, Repr

/-- The slots per ring of this machine. -/
abbrev State.N (s : State) : Nat := s.params.N

/-- An empty zeroed ring: cursors, Gray copies and storage 0 (spec R36). -/
def Ring.zero : Ring := { wr := 0, rd := 0, wrGs := 0, rdGs := 0, mem := [] }

/-- The elements spec R36 calls unspecified at reset, except the scratch buffer's bytes (`State.seed`): a free input of the
reset. The two enable bits of `regs` are not among them: reset clears them whatever this record holds. -/
structure Unspec where
  regs : Regs
  opb : Byte
  res : Byte
  hb : Byte
  cnt : Nat
  fi : Nat
  ok : Bool
  crp : Bool
deriving DecidableEq, Repr

/-- The state after the reset step, for every choice of parameters, unspecified values, seed, draw count, program and
schedule (spec R36, R200). `cnt` and `fi` are `K+1` bits wide. -/
def State.resetWith (p : Params) (u : Unspec) (seed draws : Nat) (prog : List Request) (sched : List Event) : State where
  params := p
  rx := Ring.zero
  tx := Ring.zero
  opb := u.opb
  res := u.res
  cnt := u.cnt % 2 ^ (p.K + 1)
  fi := u.fi % 2 ^ (p.K + 1)
  fmtLen := 0
  hb := u.hb
  ok := u.ok
  crp := u.crp
  fmtBuf := []
  cpc := .idle
  hpc := .none
  ctx := .caller
  ret := .done
  regs := { u.regs with rxIe := false, txIe := false }
  fault := 0
  txLog := []
  lineOut := []
  rxLost := 0
  inited := false
  prog := prog
  sched := sched
  draws := draws
  seed := seed

/-- The values `State.reset` takes where spec R36 says unspecified. DESIGN CHOICE, unsafe (log 3). -/
def Unspec.zero : Unspec where
  regs :=
    { periphEn := false, txEn := false, rxEn := false, dsize := 0, flowEn := false, div := 0, fifoEn := false,
      txReady := false, rxReady := false, rxHold := 0, txHold := 0, rxIe := false, txIe := false, lineEn := false,
      pinFuncTx := .default, pinFuncRx := .default, pinPullTx := .unspec, pinPullRx := .unspec }
  opb := 0
  res := 0
  hb := 0
  cnt := 0
  fi := 0
  ok := false
  crp := false

/-- The machine right after reset: nothing pending, no step scheduled, parameters of Config (log 2), unspecified values of
`Unspec.zero` (log 3), the scratch buffer's contents those of seed 0, which no later reset has (log 5). -/
def State.reset : State := State.resetWith Config.params Unspec.zero 0 0 [] []

end Sys2Proof.Machine
end

