-- ==== Sys2Proof/Machine/Ops.lean ====
section
/-! DEFINITION. The named operations over the state: cursor arithmetic and the Gray code (spec R81 to R84), the byte arrays
(spec R41), the fault register (spec R176), handler entry and return (spec R181, R184), the sequencer's numbers (spec R68)
and the notation `x[i]` (spec R10). -/

namespace Sys2Proof.Machine

/-- What one step of the machine answers. -/
abbrev StepOut := Host.Outcome State Fault Refusal

/-- A step that indexes a byte array: it stops where the index is outside the array (spec R41). -/
def orFault : Option State → StepOut
  | some s => .next s
  | none => .fault .indexOutOfRange

/-! ### Cursor arithmetic and the Gray code -/

/-- `inc(c) = (c + 1) mod N` (spec R81). -/
def inc (n c : Nat) : Nat := (c + 1) % n

/-- `gray(c) = c ^ (c >> 1)` (spec R82). -/
def gray (c : Nat) : Nat := c ^^^ (c >>> 1)

/-- `ungray(g)` on `k` bits: `b[k-1] = g[k-1]`, `b[i] = b[i+1] ^ g[i]` (spec R83). -/
def ungray : Nat → Nat → Nat
  | 0, _ => 0
  | k + 1, g => g ^^^ ungray k (g >>> 1)

/-! ### Byte arrays: a list of (index, byte), indices strictly rising -/

/-- The byte listed at an index. -/
def Memory.get : List Host.Cell → Nat → Option Byte
  | [], _ => none
  | (x, c) :: t, a => if x = a then some c else Memory.get t a

/-- List a byte at an index, in its place. -/
def Memory.set : List Host.Cell → Nat → Byte → List Host.Cell
  | [], a, b => [(a, b)]
  | (x, c) :: t, a, b =>
    if a < x then (a, b) :: (x, c) :: t
    else if a = x then (a, b) :: t
    else (x, c) :: Memory.set t a b

/-- Unlist an index. -/
def Memory.del (l : List Host.Cell) (a : Nat) : List Host.Cell := l.filter fun x => x.1 != a

/-- What an index of a ring's storage reads as when it is not listed: 0x00 (spec R26, R36, R41). -/
def Memory.blank : Byte := 0x00

/-- Read a ring's storage. -/
def Memory.getZ (l : List Host.Cell) (a : Nat) : Byte := (Memory.get l a).getD Memory.blank

/-- Write a ring's storage; writing what an unlisted index reads as unlists it, so equal storage is equal data. -/
def Memory.setZ (l : List Host.Cell) (a : Nat) (b : Byte) : List Host.Cell :=
  if b = Memory.blank then Memory.del l a else Memory.set l a b

/-- Indices strictly rise and are below the array's size. -/
def Memory.sorted (n : Nat) : List Host.Cell → Bool
  | [] => true
  | [x] => decide (x.1 < n)
  | x :: y :: t => decide (x.1 < y.1) && Memory.sorted n (y :: t)

/-- A ring's storage is in canonical form: sorted, and no entry equal to what an unlisted index reads as. -/
def Memory.wfZ (n : Nat) (l : List Host.Cell) : Bool :=
  Memory.sorted n l && l.all fun x => x.2 != Memory.blank

/-- All three byte arrays are in canonical form. An unlisted index of `FMT` has no written value (log 5). -/
def Memory.wf (s : State) : Bool :=
  Memory.wfZ s.N s.rx.mem && Memory.wfZ s.N s.tx.mem && Memory.sorted s.params.fmtMax s.fmtBuf

/-- The size of a byte array (spec R29). -/
def Space.size (p : Params) : Space → Nat
  | .rxm => p.N
  | .txm => p.N
  | .fmt => p.fmtMax

/-- The byte an index of a byte array holds: what was last written, else its reset value, 0x00 for the rings and free for
the scratch buffer (spec R41). -/
def State.byteAt (s : State) : Space → Nat → Byte
  | .rxm, i => Memory.getZ s.rx.mem i
  | .txm, i => Memory.getZ s.tx.mem i
  | .fmt, i => (Memory.get s.fmtBuf i).getD (Config.freeFmt s.seed i)

/-- Replace one byte of a byte array. -/
def State.putByte (s : State) : Space → Nat → Byte → State
  | .rxm, i, v => { s with rx := { s.rx with mem := Memory.setZ s.rx.mem i v } }
  | .txm, i, v => { s with tx := { s.tx with mem := Memory.setZ s.tx.mem i v } }
  | .fmt, i, v => { s with fmtBuf := Memory.set s.fmtBuf i v }

/-- `MemRead(S:i, 1)` (spec R41). -/
def memRead (sp : Space) (i : Nat) (s : State) : Option Byte :=
  if i < sp.size s.params then some (s.byteAt sp i) else none

/-- `MemWrite(S:i, 1, v)` (spec R41). -/
def memWrite (sp : Space) (i : Nat) (v : Byte) (s : State) : Option State :=
  if i < sp.size s.params then some (s.putByte sp i v) else none

/-! ### Rings -/

/-- The ring of a name. -/
def State.ring (s : State) : RingId → Ring
  | .rx => s.rx
  | .tx => s.tx

/-- Replace the ring of a name. -/
def State.setRing (s : State) : RingId → Ring → State
  | .rx, x => { s with rx := x }
  | .tx, x => { s with tx := x }

/-- The address space of a ring's storage (spec R29). -/
def ringSpace : RingId → Space
  | .rx => .rxm
  | .tx => .txm

/-- `X.wr <- inc(X.wr); X.wr_gs <- gray(X.wr)` (spec R89, C11). -/
def Ring.advanceWr (n : Nat) (x : Ring) : Ring := { x with wr := inc n x.wr, wrGs := gray (inc n x.wr) }

/-- `X.rd <- inc(X.rd); X.rd_gs <- gray(X.rd)` (spec R89, C11). -/
def Ring.advanceRd (n : Nat) (x : Ring) : Ring := { x with rd := inc n x.rd, rdGs := gray (inc n x.rd) }

/-- Publish a stored byte: advance the write cursor of a ring and its Gray copy in one step (spec R52). -/
def advanceWr (r : RingId) (s : State) : State := s.setRing r ((s.ring r).advanceWr s.N)

/-- Free a slot: advance the read cursor of a ring and its Gray copy in one step (spec R52). -/
def advanceRd (r : RingId) (s : State) : State := s.setRing r ((s.ring r).advanceRd s.N)

/-! ### The fault register -/

/-- Bit numbers of `FAULT` (spec R25). -/
def FaultBit.bit : FaultBit → Nat
  | .illcmd => 0
  | .preinit => 1
  | .txovr => 2
  | .rxund => 3
  | .fmtlen => 4
  | .owner => 5

/-- The register value with one fault bit set. -/
def FaultBit.mask (f : FaultBit) : BitVec 6 := 1#6 <<< f.bit

/-- `raise F`: set the sticky bit; control state is untouched (spec R6, R176). -/
def State.raise (s : State) (f : FaultBit) : State := { s with fault := s.fault ||| f.mask }

/-- A fault bit is set. -/
def State.faulted (s : State) (f : FaultBit) : Bool := s.fault.getLsbD f.bit

/-! ### Handler entry and return: the block's trap entry -/

/-- Handler entry (spec R181): `ctx <- HANDLER; hpc <- first`. Nothing is saved, no mask changes. -/
def enterHandler (first : HState) (s : State) : State := { s with ctx := .handler, hpc := first }

/-- Handler return (spec R184): `hpc <- H_NONE; ctx <- CALLER`. Nothing is restored. -/
def leaveHandler (s : State) : State := { s with ctx := .caller, hpc := .none }

/-! ### Numbers of the sequencer registers -/

/-- `cpc` as a 6-bit register (spec R68). -/
def CState.code : CState → BitVec 6
  | .idle => 0x00
  | .i1 => 0x01
  | .i2 => 0x02
  | .i3 => 0x03
  | .i4 => 0x04
  | .i5 => 0x05
  | .i6 => 0x06
  | .i7 => 0x07
  | .s0 => 0x08
  | .s1 => 0x09
  | .r0 => 0x0A
  | .r1 => 0x0B
  | .f0 => 0x0C
  | .a0 => 0x10
  | .a0e => 0x11
  | .a1 => 0x12
  | .a2 => 0x13
  | .a3 => 0x14
  | .a4 => 0x15
  | .a5 => 0x16
  | .b0 => 0x18
  | .b1 => 0x19
  | .b1e => 0x1A
  | .b2 => 0x1B
  | .b3 => 0x1C
  | .b4 => 0x1D
  | .b5 => 0x1E
  | .g0 => 0x20

/-- `hpc` as a 4-bit register (spec R68). -/
def HState.code : HState → BitVec 4
  | .none => 0x0
  | .h0 => 0x1
  | .h1 => 0x2
  | .h2 => 0x3
  | .h3 => 0x4
  | .h4 => 0x5
  | .w0 => 0x8
  | .w1 => 0x9
  | .w2 => 0xA

/-- `ctx` as one bit (spec R15). -/
def Ctx.code : Ctx → BitVec 1
  | .caller => 0
  | .handler => 1

/-- `ret` as a 2-bit latch (spec R15). -/
def Ret.code : Ret → BitVec 2
  | .done => 0
  | .f0 => 1
  | .g0 => 2

/-! ### The notation `x[i]` -/

/-- The data-path registers as spec R10 numbers them. -/
def State.x (s : State) : Fin 10 → Nat
  | 0 => s.rx.wr
  | 1 => s.rx.rd
  | 2 => s.tx.wr
  | 3 => s.tx.rd
  | 4 => s.opb.toNat
  | 5 => s.res.toNat
  | 6 => s.cnt
  | 7 => s.fi
  | 8 => s.fmtLen
  | 9 => s.hb.toNat

end Sys2Proof.Machine
end

