-- ==== Sys2Proof/Machine/Flags.lean ====
section
/-! DEFINITION. The combinational outputs: ring flags (spec R16, R85 to R87), request lines (spec R179), the FSM states (spec
R18), the port-busy output (spec R60), the bracket (spec R50) and the dispatch condition (spec R180). -/

namespace Sys2Proof.Machine

/-- `full_p(X) = (gray(inc(X.wr)) == X.rd_gs)` (spec R85). -/
def fullP (n : Nat) (x : Ring) : Bool := gray (inc n x.wr) == x.rdGs

/-- `empty_c(X) = (X.wr_gs == gray(X.rd))` (spec R86). -/
def emptyC (x : Ring) : Bool := x.wrGs == gray x.rd

/-- `occ(X) = (X.wr - X.rd) mod N` (spec R87). -/
def occ (n : Nat) (x : Ring) : Nat := (x.wr % n + n - x.rd % n) % n

/-- `rx_irq = RX_IE & RX_READY` (spec R179). -/
def rxIrq (s : State) : Bool := s.regs.rxIe && s.regs.rxReady

/-- `tx_irq = TX_IE & TX_READY` (spec R179). -/
def txIrq (s : State) : Bool := s.regs.txIe && s.regs.txReady

/-- `irq = rx_irq | tx_irq` (spec R179). -/
def irq (s : State) : Bool := rxIrq s || txIrq s

/-- `busy = (cpc != C_IDLE || ctx == HANDLER)` (spec R60). -/
def busy (s : State) : Bool := s.cpc != .idle || s.ctx == .handler

/-- The result port: `res`, `cnt`, `ok`, `busy` (spec R60, R67). -/
def resultPort (s : State) : Byte × Nat × Bool × Bool := (s.res, s.cnt, s.ok, busy s)

/-- The state of the handshake FSM of a direction is its enable bit: set is `ARMED`, clear is `IDLE` (spec R18, R165). -/
def armed (s : State) : RingId → Bool
  | .rx => s.regs.rxIe
  | .tx => s.regs.txIe

/-- Between a mask µop and its unmask (spec R50). -/
def inBracket : CState → Bool
  | .a2 | .a3 | .a4 | .b3 | .b4 | .b5 => true
  | .idle | .i1 | .i2 | .i3 | .i4 | .i5 | .i6 | .i7 | .s0 | .s1 | .r0 | .r1 | .f0 | .g0
  | .a0 | .a0e | .a1 | .a5 | .b0 | .b1 | .b1e | .b2 => false

/-- Where a handler may be entered by direct call (spec R155): in caller context, outside a bracket (spec R223, U12). -/
def callable (s : State) : Bool := s.ctx == .caller && !inBracket s.cpc

/-- The dispatch condition (spec R180): `inited == 1`, `ctx == CALLER`, `LINE_EN == 1` and the handler's request. Every other
operation is never dispatched. -/
def dispatchable (s : State) : Instr → Bool
  | .rxh => s.inited && s.ctx == .caller && s.regs.lineEn && rxIrq s
  | .txh => s.inited && s.ctx == .caller && s.regs.lineEn && txIrq s
  | .init => false
  | .send _ => false
  | .recv => false
  | .sendf => false
  | .senda _ => false
  | .recva => false
  | .sendfa => false
  | .irqen => false
  | .irqdis => false
  | .putRx _ => false
  | .putTx _ => false
  | .getRx => false
  | .getTx => false
  | .fmtclr => false
  | .fmtch _ => false

end Sys2Proof.Machine
end

