-- ==== Sys2Proof/Machine/Adapter.lean ====
section
/-! DEFINITION. The register-interface adapter: the only primitives that touch the register set (spec R100, R107 to R111),
and the symbolic register numbers (spec R20, R21). -/

namespace Sys2Proof.Machine

/-- A write of one configuration field (spec R107). -/
inductive CfgWrite
  | periphEn (v : Bool)
  | txEn (v : Bool)
  | rxEn (v : Bool)
  | dsize (v : Nat)
  | flowEn (v : Bool)
  | div (v : Nat)
  | fifoEn (v : Bool)
  | pinFunc (p : Pin) (v : PinFunc)
  | pinPull (p : Pin) (v : PinPull)
deriving DecidableEq, Repr

/-- The number of the symbolic register a configuration field belongs to (spec R21): an index into `REG_MAP`. -/
def CfgWrite.regNumber : CfgWrite → Nat
  | .periphEn _ => 0
  | .txEn _ => 1
  | .rxEn _ => 1
  | .dsize _ => 2
  | .flowEn _ => 3
  | .div _ => 4
  | .fifoEn _ => 5
  | .pinFunc _ _ => 10
  | .pinPull _ _ => 11

/-- `RegWrite(field, v)`: replace the field, nothing else (spec R107). -/
def regWrite (c : CfgWrite) (s : State) : State :=
  match c with
  | .periphEn v => { s with regs := { s.regs with periphEn := v } }
  | .txEn v => { s with regs := { s.regs with txEn := v } }
  | .rxEn v => { s with regs := { s.regs with rxEn := v } }
  | .dsize v => { s with regs := { s.regs with dsize := v } }
  | .flowEn v => { s with regs := { s.regs with flowEn := v } }
  | .div v => { s with regs := { s.regs with div := v } }
  | .fifoEn v => { s with regs := { s.regs with fifoEn := v } }
  | .pinFunc .txpin v => { s with regs := { s.regs with pinFuncTx := v } }
  | .pinFunc .rxpin v => { s with regs := { s.regs with pinFuncRx := v } }
  | .pinPull .txpin v => { s with regs := { s.regs with pinPullTx := v } }
  | .pinPull .rxpin v => { s with regs := { s.regs with pinPullRx := v } }

/-- `SetIE(RX_IE)` and `ClrIE(RX_IE)` (spec R111). -/
def setRxIe (v : Bool) (s : State) : State := { s with regs := { s.regs with rxIe := v } }

/-- `SetIE(TX_IE)` and `ClrIE(TX_IE)` (spec R111). -/
def setTxIe (v : Bool) (s : State) : State := { s with regs := { s.regs with txIe := v } }

/-- `SetLine()` and `ClrLine()` (spec R111). -/
def setLine (v : Bool) (s : State) : State := { s with regs := { s.regs with lineEn := v } }

/-- `DataWrite(v)` (spec R108): a write to a transmitter that is not ready is recorded as `F_TXOVR` and still happens. -/
def dataWrite (v : Byte) (s : State) : State :=
  let s1 := if s.regs.txReady then s else s.raise .txovr
  { s1 with regs := { s1.regs with txHold := v, txReady := false }, txLog := s1.txLog ++ [v] }

/-- `DataRead()` (spec R109): a read of an empty receiver is recorded as `F_RXUND` and returns `draw(8)`, the next free
byte (log 4). -/
def dataRead (s : State) : Byte × State :=
  if s.regs.rxReady then (s.regs.rxHold, { s with regs := { s.regs with rxReady := false } })
  else (Config.freeByte s.draws, { s.raise .rxund with draws := s.draws + 1 })

end Sys2Proof.Machine
end

