-- ==== Sys2Proof/Machine/Operands.lean ====
section
/-! DEFINITION. Where operands come from and how a byte changes on its way: operand assembly (spec R62), the receive
translation (spec R123), and the loop head that chooses the next byte of a formatted send (spec R125, R146). -/

namespace Sys2Proof.Machine

/-- Operand assembly at issue of a format-B operation: `opb <- word[7:0]` (spec R62, R66 step 3). -/
def takeImm (b : Byte) (s : State) : State := { s with opb := b }

/-- `'\r'` (spec R5). -/
def chCR : Byte := 0x0D

/-- `'\n'` (spec R5). -/
def chLF : Byte := 0x0A

/-- The translation of the synchronous receive: 0x0D to 0x0A, every other byte unchanged (spec R122, R123). -/
def recvByte (v : Byte) : Byte := if v = chCR then chLF else v

/-- The loop head of `SENDF` (`F0`) and `SENDFA` (`G0`): end test, else choose the next byte and call the sub-sequence
`sub` with return latch `back` (spec R125, R146). -/
def loopHead (back : Ret) (sub : CState) (s : State) : Option State :=
  if s.fi = s.fmtLen then
    some { s with cnt := s.fmtLen, cpc := .idle }
  else
    match memRead .fmt s.fi s with
    | none => none
    | some c =>
      if c = chLF ∧ s.crp = false then
        some { s with opb := chCR, crp := true, ret := back, cpc := sub }
      else
        some { s with opb := c, crp := false, fi := s.fi + 1, ret := back, cpc := sub }

end Sys2Proof.Machine
end

