-- ==== Sys2Proof/Machine/Issue.lean ====
section
/-! DEFINITION. The issue step that every caller-side operation shares (spec R66), and the invocation step that the two
handlers share (spec R155, R181). A legal word on its own port is assumed here; the illegal word is Machine/Ports.lean. -/

namespace Sys2Proof.Machine

/-- The `Caller` has an issue step exactly when `ctx == CALLER` and `cpc == C_IDLE` (spec R66). -/
def callerReady (s : State) : Bool := !busy s

/-- Issue of an operation other than `INIT` (spec R66): a busy port is a hold, in which nothing happens; before `INIT` has
completed the operation is refused with `F_PREINIT` (spec R102); else its effect at issue takes place. -/
def issue (effect : State → Option State) (s : State) : StepOut :=
  if callerReady s then
    if s.inited then orFault (effect s) else .next (s.raise .preinit)
  else .next s

/-- Issue of `INIT` (spec R66, R102): as `issue`, but refused when it has already completed. -/
def issueInit (effect : State → State) (s : State) : StepOut :=
  if callerReady s then
    if s.inited then .next (s.raise .preinit) else .next (effect s)
  else .next s

/-- Issue of a format-B operation: the operand is assembled before the effect, so it stays taken when the effect then
refuses (spec R66 steps 3 and 4). -/
def issueByte (b : Byte) (effect : State → Option State) (s : State) : StepOut :=
  issue (fun t => effect (takeImm b t)) s

/-- Invocation of a handler whose first µ-state is `first` (spec R155, R181): impossible while a handler is active (spec R185),
refused with `F_PREINIT` while `inited == 0`, else handler entry. -/
def invoke (first : HState) (s : State) : StepOut :=
  match s.ctx with
  | .handler => .next s
  | .caller => if s.inited then .next (enterHandler first s) else .next (s.raise .preinit)

end Sys2Proof.Machine
end

