-- ==== Sys2Proof/Machine/Async.lean ====
section
/-! DEFINITION. Asynchronous transport SENDA, RECVA, SENDFA with their µops (spec R135 to R147), and the pair enable and
disable IRQEN, IRQDIS (spec R148, R149). -/

namespace Sys2Proof.Machine

/-- SENDA b (spec R135): at issue `opb <- b; ret <- R_DONE; cpc <- A0`. -/
def execSenda (b : Byte) (s : State) : StepOut :=
  issueByte b (fun t => some { t with ret := .done, cpc := .a0 }) s

/-- RECVA (spec R140): at issue `cpc <- B0`. -/
def execRecva (s : State) : StepOut := issue (fun t => some { t with cpc := .b0 }) s

/-- SENDFA (spec R145): at issue `fi <- 0; crp <- 0; cpc <- G0`. -/
def execSendfa (s : State) : StepOut := issue (fun t => some { t with fi := 0, crp := false, cpc := .g0 }) s

/-- IRQEN (spec R148): `SetLine()`. -/
def execIrqen (s : State) : StepOut := issue (fun t => some (setLine true t)) s

/-- IRQDIS (spec R149): `ClrLine()`. -/
def execIrqdis (s : State) : StepOut := issue (fun t => some (setLine false t)) s

/-- `A0`: test `full_p(TX)` (spec R136). -/
def uopA0 (s : State) : State := { s with cpc := if fullP s.N s.tx then .a0e else .a1 }

/-- `A0E`: enable the transmit source and test again (spec R136). -/
def uopA0e (s : State) : State := { setTxIe true s with cpc := .a0 }

/-- `A1`: mask (spec R137). -/
def uopA1 (s : State) : State := { setLine false s with cpc := .a2 }

/-- `A2`: store the byte at the write cursor (spec R137). -/
def uopA2 (s : State) : Option State :=
  match memWrite .txm s.tx.wr s.opb s with
  | none => none
  | some t => some { t with cpc := .a3 }

/-- `A3`: advance the write cursor (spec R137). -/
def uopA3 (s : State) : State := { advanceWr .tx s with cpc := .a4 }

/-- `A4`: unmask (spec R137). -/
def uopA4 (s : State) : State := { setLine true s with cpc := .a5 }

/-- `A5`: enable the transmit source, then return by `ret` (spec R138). `ret == R_F0` cannot be here; the else branch of the
spec's expression takes it to `G0`. -/
def uopA5 (s : State) : State :=
  { setTxIe true s with cpc := match s.ret with
    | .done => .idle
    | .f0 => .g0
    | .g0 => .g0 }

/-- `B0`: enable the receive source (spec R141). -/
def uopB0 (s : State) : State := { setRxIe true s with cpc := .b1 }

/-- `B1`: test `empty_c(RX)` (spec R141). -/
def uopB1 (s : State) : State := { s with cpc := if emptyC s.rx then .b1e else .b2 }

/-- `B1E`: enable the receive source and test again (spec R141). -/
def uopB1e (s : State) : State := { setRxIe true s with cpc := .b1 }

/-- `B2`: mask (spec R142). -/
def uopB2 (s : State) : State := { setLine false s with cpc := .b3 }

/-- `B3`: load the byte at the read cursor (spec R142); no translation (spec R143). -/
def uopB3 (s : State) : Option State :=
  match memRead .rxm s.rx.rd s with
  | none => none
  | some v => some { s with res := v, cpc := .b4 }

/-- `B4`: advance the read cursor (spec R142). -/
def uopB4 (s : State) : State := { advanceRd .rx s with cpc := .b5 }

/-- `B5`: unmask; done (spec R142). -/
def uopB5 (s : State) : State := { setLine true s with cpc := .idle }

/-- `G0`: the `SENDFA` loop head (spec R146). -/
def uopG0 (s : State) : Option State := loopHead .g0 .a0 s

end Sys2Proof.Machine
end

