-- ==== Sys2Proof/Machine/Handlers.lean ====
section
/-! DEFINITION. The interrupt handlers RXH and TXH: entry and µops (spec R155 to R164). -/

namespace Sys2Proof.Machine

/-- RXH (spec R156): at entry `ctx <- HANDLER; hpc <- H0`. -/
def execRxh (s : State) : StepOut := invoke .h0 s

/-- TXH (spec R160): at entry `ctx <- HANDLER; hpc <- W0`. -/
def execTxh (s : State) : StepOut := invoke .w0 s

/-- `H0`: when ring `RX` is full disable the receive source and return (spec R157). -/
def uopH0 (s : State) : State :=
  if fullP s.N s.rx then leaveHandler (setRxIe false s) else { s with hpc := .h1 }

/-- `H1`: move one byte from the data register into ring `RX`, exactly as read (spec R158). -/
def uopH1 (s : State) : Option State :=
  let r := dataRead s
  let t := { r.2 with hb := r.1 }
  match memWrite .rxm t.rx.wr t.hb t with
  | none => none
  | some u => some { advanceWr .rx u with hpc := .h2 }

/-- `H2`: echo, poll `TX_READY`; else spin (spec R159). -/
def uopH2 (s : State) : State := if s.regs.txReady then { s with hpc := .h3 } else s

/-- `H3`: echo the identical byte (spec R159). -/
def uopH3 (s : State) : State := { dataWrite s.hb s with hpc := .h4 }

/-- `H4`: enable the receive source and return (spec R159). -/
def uopH4 (s : State) : State := leaveHandler (setRxIe true s)

/-- `W0`: when ring `TX` is empty disable the transmit source and return (spec R161). -/
def uopW0 (s : State) : State :=
  if emptyC s.tx then leaveHandler (setTxIe false s) else { s with hpc := .w1 }

/-- `W1`: move one byte out of ring `TX` into the data register, exactly as stored (spec R162). -/
def uopW1 (s : State) : Option State :=
  match memRead .txm s.tx.rd s with
  | none => none
  | some v => some { advanceRd .tx (dataWrite v s) with hpc := .w2 }

/-- `W2`: enable the transmit source and return (spec R163). -/
def uopW2 (s : State) : State := leaveHandler (setTxIe true s)

end Sys2Proof.Machine
end

