-- ==== Sys2Proof/Machine/Init.lean ====
section
/-! DEFINITION. The operation INIT and its seven µops (spec R101 to R106). -/

namespace Sys2Proof.Machine

/-- INIT (spec R101): at issue `cpc <- I1`. -/
def execInit (s : State) : StepOut := issueInit (fun t => { t with cpc := .i1 }) s

/-- `I1`: enable the peripheral block. -/
def uopI1 (s : State) : State := { regWrite (.periphEn true) s with cpc := .i2 }

/-- `I2`: disable transmit and receive while configuring. -/
def uopI2 (s : State) : State := { regWrite (.rxEn false) (regWrite (.txEn false) s) with cpc := .i3 }

/-- `I3`: disable both interrupt sources. -/
def uopI3 (s : State) : State := { setTxIe false (setRxIe false s) with cpc := .i4 }

/-- `I4`: data word size, flow control off, divisor, hardware FIFO off. -/
def uopI4 (s : State) : State :=
  { regWrite (.fifoEn false) (regWrite (.div s.params.baudDiv) (regWrite (.flowEn false)
      (regWrite (.dsize Config.dataBits) s))) with cpc := .i5 }

/-- `I5`: both pins to the alternate function. -/
def uopI5 (s : State) : State :=
  { regWrite (.pinFunc .rxpin .altUart) (regWrite (.pinFunc .txpin .altUart) s) with cpc := .i6 }

/-- `I6`: the pull-up/down disable sequence; its two settle delays change no state (spec R104). -/
def uopI6 (s : State) : State :=
  { regWrite (.pinPull .rxpin .none) (regWrite (.pinPull .txpin .none) s) with cpc := .i7 }

/-- `I7`: enable transmit and receive; the line is ready to send and has received nothing (spec R103); done. -/
def uopI7 (s : State) : State :=
  let t := regWrite (.rxEn true) (regWrite (.txEn true) s)
  { t with regs := { t.regs with txReady := true, rxReady := false }, inited := true, cpc := .idle }

end Sys2Proof.Machine
end

