-- ==== Sys2Proof/Machine/RingPort.lean ====
section
/-! DEFINITION. The ring FIFO's primitives `ring_put`, `ring_get` (spec R89) and the ring-port operations PUT.RX, PUT.TX,
GET.RX, GET.TX (spec R91 to R94). -/

namespace Sys2Proof.Machine

/-- `ring_put(X, b)` (spec R89): the state after, and whether the ring took the byte. -/
def ringPut (r : RingId) (b : Byte) (s : State) : Option (State × Bool) :=
  if fullP s.N (s.ring r) then some (s, false)
  else
    match memWrite (ringSpace r) (s.ring r).wr b s with
    | none => none
    | some t => some (advanceWr r t, true)

/-- `ring_get(X)` (spec R89): the state after, and the byte if there was one. -/
def ringGet (r : RingId) (s : State) : Option (State × Option Byte) :=
  if emptyC (s.ring r) then some (s, none)
  else
    match memRead (ringSpace r) (s.ring r).rd s with
    | none => none
    | some v => some (advanceRd r s, some v)

/-- `ok <- ring_put(X, b)` (spec R91, R92). -/
def putOk (r : RingId) (b : Byte) (s : State) : Option State :=
  match ringPut r b s with
  | none => none
  | some (t, k) => some { t with ok := k }

/-- `(k, v) <- ring_get(X); ok <- k; if k == 1 then res <- v` (spec R93, R94). -/
def getOk (r : RingId) (s : State) : Option State :=
  match ringGet r s with
  | none => none
  | some (t, none) => some { t with ok := false }
  | some (t, some v) => some { t with ok := true, res := v }

/-- PUT.RX b (spec R91): refused with `F_OWNER` while the receive source is enabled. -/
def execPutRx (b : Byte) (s : State) : StepOut :=
  issueByte b (fun t => if t.regs.rxIe then some (t.raise .owner) else putOk .rx t.opb t) s

/-- PUT.TX b (spec R92). -/
def execPutTx (b : Byte) (s : State) : StepOut :=
  issueByte b (fun t => putOk .tx t.opb t) s

/-- GET.RX (spec R93). -/
def execGetRx (s : State) : StepOut :=
  issue (fun t => getOk .rx t) s

/-- GET.TX (spec R94): refused with `F_OWNER` while the transmit source is enabled. -/
def execGetTx (s : State) : StepOut :=
  issue (fun t => if t.regs.txIe then some (t.raise .owner) else getOk .tx t) s

end Sys2Proof.Machine
end

