-- ==== Sys2Proof/Machine/Sync.lean ====
section
/-! DEFINITION. Synchronous transport SEND, RECV, SENDF with their µops (spec R120 to R127), and the renderer port FMTCLR,
FMTCH (spec R128, R129). -/

namespace Sys2Proof.Machine

/-- SEND b (spec R120): at issue `opb <- b; ret <- R_DONE; cpc <- S0`. -/
def execSend (b : Byte) (s : State) : StepOut :=
  issueByte b (fun t => some { t with ret := .done, cpc := .s0 }) s

/-- RECV (spec R122): at issue `cpc <- R0`. -/
def execRecv (s : State) : StepOut := issue (fun t => some { t with cpc := .r0 }) s

/-- SENDF (spec R124): at issue `fi <- 0; crp <- 0; cpc <- F0`. -/
def execSendf (s : State) : StepOut := issue (fun t => some { t with fi := 0, crp := false, cpc := .f0 }) s

/-- FMTCLR (spec R128): `fmt_len <- 0`. -/
def execFmtclr (s : State) : StepOut := issue (fun t => some { t with fmtLen := 0 }) s

/-- FMTCH b (spec R129): a character beyond `FMT_MAX` is dropped with `F_FMTLEN`. -/
def execFmtch (b : Byte) (s : State) : StepOut :=
  issueByte b (fun t =>
    if t.fmtLen = t.params.fmtMax then some (t.raise .fmtlen)
    else
      match memWrite .fmt t.fmtLen t.opb t with
      | none => none
      | some u => some { u with fmtLen := u.fmtLen + 1 }) s

/-- `S0`: poll `TX_READY`; else spin (spec R121). -/
def uopS0 (s : State) : State := if s.regs.txReady then { s with cpc := .s1 } else s

/-- `S1`: `DataWrite(opb)`, then return by `ret` (spec R121). `ret == R_G0` cannot be here; the else branch of the spec's
expression takes it to `F0`. -/
def uopS1 (s : State) : State :=
  { dataWrite s.opb s with cpc := match s.ret with
    | .done => .idle
    | .f0 => .f0
    | .g0 => .f0 }

/-- `R0`: poll `RX_READY`; else spin (spec R122). -/
def uopR0 (s : State) : State := if s.regs.rxReady then { s with cpc := .r1 } else s

/-- `R1`: read the data register and translate; done (spec R122). -/
def uopR1 (s : State) : State :=
  let r := dataRead s
  { r.2 with res := recvByte r.1, cpc := .idle }

/-- `F0`: the `SENDF` loop head (spec R125). -/
def uopF0 (s : State) : Option State := loopHead .f0 .s0 s

end Sys2Proof.Machine
end

