-- ==== Sys2Proof/Machine/Micro.lean ====
section
/-! DEFINITION. The two micro-sequencers: the µop that `cpc` or `hpc` names (spec R68, R69). None means an index outside its
array. -/

namespace Sys2Proof.Machine

/-- The µop named by `cpc` (spec R68). -/
def callerUop (s : State) : Option State :=
  match s.cpc with
  | .idle => some s
  | .i1 => some (uopI1 s)
  | .i2 => some (uopI2 s)
  | .i3 => some (uopI3 s)
  | .i4 => some (uopI4 s)
  | .i5 => some (uopI5 s)
  | .i6 => some (uopI6 s)
  | .i7 => some (uopI7 s)
  | .s0 => some (uopS0 s)
  | .s1 => some (uopS1 s)
  | .r0 => some (uopR0 s)
  | .r1 => some (uopR1 s)
  | .f0 => uopF0 s
  | .a0 => some (uopA0 s)
  | .a0e => some (uopA0e s)
  | .a1 => some (uopA1 s)
  | .a2 => uopA2 s
  | .a3 => some (uopA3 s)
  | .a4 => some (uopA4 s)
  | .a5 => some (uopA5 s)
  | .b0 => some (uopB0 s)
  | .b1 => some (uopB1 s)
  | .b1e => some (uopB1e s)
  | .b2 => some (uopB2 s)
  | .b3 => uopB3 s
  | .b4 => some (uopB4 s)
  | .b5 => some (uopB5 s)
  | .g0 => uopG0 s

/-- The µop named by `hpc` (spec R68). `H_NONE` names none. -/
def handlerUop (s : State) : Option State :=
  match s.hpc with
  | .none => some s
  | .h0 => some (uopH0 s)
  | .h1 => uopH1 s
  | .h2 => some (uopH2 s)
  | .h3 => some (uopH3 s)
  | .h4 => some (uopH4 s)
  | .w0 => some (uopW0 s)
  | .w1 => uopW1 s
  | .w2 => some (uopW2 s)

end Sys2Proof.Machine
end

