-- ==== Sys2Proof/Machine/Dispatch.lean ====
section
/-! DEFINITION. One arm per operation of spec R63: the issue step of a caller-side operation on its own port, the entry step
of a handler. -/

namespace Sys2Proof.Machine

/-- The meaning of an operation presented on the port that accepts it. -/
def exec (i : Instr) (s : State) : Host.Outcome State Fault Refusal :=
  match i with
  | .init => Sys2Proof.Machine.execInit s
  | .send b => Sys2Proof.Machine.execSend b s
  | .recv => Sys2Proof.Machine.execRecv s
  | .sendf => Sys2Proof.Machine.execSendf s
  | .senda b => Sys2Proof.Machine.execSenda b s
  | .recva => Sys2Proof.Machine.execRecva s
  | .sendfa => Sys2Proof.Machine.execSendfa s
  | .irqen => Sys2Proof.Machine.execIrqen s
  | .irqdis => Sys2Proof.Machine.execIrqdis s
  | .rxh => Sys2Proof.Machine.execRxh s
  | .txh => Sys2Proof.Machine.execTxh s
  | .putRx b => Sys2Proof.Machine.execPutRx b s
  | .putTx b => Sys2Proof.Machine.execPutTx b s
  | .getRx => Sys2Proof.Machine.execGetRx s
  | .getTx => Sys2Proof.Machine.execGetTx s
  | .fmtclr => Sys2Proof.Machine.execFmtclr s
  | .fmtch b => Sys2Proof.Machine.execFmtch b s

end Sys2Proof.Machine
end

