-- ==== Sys2Proof/Machine/Line.lean ====
section
/-! DEFINITION. The `Line` agent: the UART hardware and the serial line as the block sees them (spec R112 to R114). A step
that is not enabled does not exist; its turn passes (log 8). -/

namespace Sys2Proof.Machine

/-- `LineRx(b)` is enabled (spec R112). -/
def lineRxEnabled (s : State) : Bool := s.inited && s.regs.rxEn

/-- `LineTx` is enabled (spec R113). -/
def lineTxEnabled (s : State) : Bool := s.inited && s.regs.txEn && !s.regs.txReady

/-- `LineRx(b)` (spec R112): an arriving byte is held if there is room, else lost. -/
def lineRxStep (b : Byte) (s : State) : State :=
  if lineRxEnabled s then
    if s.regs.rxReady then { s with rxLost := s.rxLost + 1 }
    else { s with regs := { s.regs with rxHold := b, rxReady := true } }
  else s

/-- `LineTx` (spec R113): the transmitter finishes sending the held byte. -/
def lineTxStep (s : State) : State :=
  if lineTxEnabled s then
    { s with lineOut := s.lineOut ++ [s.regs.txHold], regs := { s.regs with txReady := true } }
  else s

end Sys2Proof.Machine
end

