-- ==== Sys2Proof/Machine/Ports.lean ====
section
/-! DEFINITION. The agents of spec R7: presenting a word on a port (spec R64, R66), the `Caller`, the `Handler`, the
`Framework` (spec R180), the direct call (spec R155), the `Line` and the `Reset` (spec R200). -/

namespace Sys2Proof.Machine

/-- Present a word on a port: an illegal word is refused with `F_ILLCMD` and nothing else (spec R64, R66 step 1). -/
def present (p : Port) (w : Word) (s : State) : StepOut :=
  match decodeOn p w with
  | .error _ => .next (s.raise .illcmd)
  | .ok i => exec i s

/-- One step of the `Caller` (spec R7, R66): the µop of the command in progress; when there is none, the issue of the next
word of its program; when there is no word either, it waits. -/
def callerStep (s : State) : StepOut :=
  match s.cpc with
  | .idle =>
    match s.prog with
    | [] => .next s
    | r :: rs => present r.port.toPort r.word { s with prog := rs }
  | _ => orFault (callerUop s)

/-- One step of the agent that owns the hardware thread (spec R7, R15). -/
def threadStep (s : State) : StepOut :=
  match s.ctx with
  | .caller => callerStep s
  | .handler => orFault (handlerUop s)

/-- The `Framework` presents a word on the dispatch port (spec R180). It presents nothing while a handler is active (spec
R185); an illegal word is refused with `F_ILLCMD` (spec R64, log 12); a handler is entered exactly when its dispatch condition
holds, and otherwise the turn passes (log 8). -/
def frameworkStep (w : Word) (s : State) : StepOut :=
  match s.ctx with
  | .handler => .next s
  | .caller =>
    match decodeOn .dispatch w with
    | .error _ => .next (s.raise .illcmd)
    | .ok i => if dispatchable s i then exec i s else .next s

/-- A handler entered by direct call (spec R155): offered in caller context at every µop boundary outside a bracket (spec
R223, log 11), with `LINE_EN` and the request line disregarded. -/
def callStep (w : Word) (s : State) : StepOut :=
  if callable s then present .dispatch w s else .next s

/-- The values a later reset leaves in the elements spec R36 calls unspecified: free, named by the seed (log 4). -/
def Unspec.free (seed : Nat) : Unspec where
  regs :=
    { periphEn := Config.freeResetBit seed 0, txEn := Config.freeResetBit seed 1, rxEn := Config.freeResetBit seed 2,
      dsize := Config.freeResetNat seed 0, flowEn := Config.freeResetBit seed 3, div := Config.freeResetNat seed 1,
      fifoEn := Config.freeResetBit seed 4, txReady := Config.freeResetBit seed 5, rxReady := Config.freeResetBit seed 6,
      rxHold := Config.freeResetByte seed 0, txHold := Config.freeResetByte seed 1, rxIe := false, txIe := false,
      lineEn := Config.freeResetBit seed 7,
      pinFuncTx := if Config.freeResetBit seed 8 then .altUart else .default,
      pinFuncRx := if Config.freeResetBit seed 9 then .altUart else .default,
      pinPullTx := if Config.freeResetBit seed 10 then .none else .unspec,
      pinPullRx := if Config.freeResetBit seed 11 then .none else .unspec }
  opb := Config.freeResetByte seed 2
  res := Config.freeResetByte seed 3
  hb := Config.freeResetByte seed 4
  cnt := Config.freeResetNat seed 2
  fi := Config.freeResetNat seed 3
  ok := Config.freeResetBit seed 12
  crp := Config.freeResetBit seed 13

/-- The `Reset` agent (spec R200): always enabled; a command in progress or an active handler is abandoned. Parameters,
program and schedule are not state of the block and stay (log 18). Every unspecified element is drawn afresh: the seed of the
scratch buffer's contents is one no earlier reset of the run has had, and the draw that names the others is used up (log 4,
log 5). -/
def resetStep (s : State) : State :=
  State.resetWith s.params (Unspec.free s.draws) (s.seed + 1) (s.draws + 1) s.prog s.sched

/-- One step of the agent an event names (spec R7). -/
def agentStep (e : Event) (s : State) : StepOut :=
  match e with
  | .thread => threadStep s
  | .lineRx b => .next (lineRxStep b s)
  | .lineTx => .next (lineTxStep s)
  | .dispatch w => frameworkStep w s
  | .call w => callStep w s
  | .reset => .next (resetStep s)

/-- Offer a word so that the next step presents it: an idle sequencer, the word at the head of the program of the port that
accepts it, and the thread's turn; a handler word by direct call (log 9). -/
def offerWord (w : Word) (s : State) : State :=
  let t := { s with cpc := .idle, hpc := .none, ctx := .caller }
  match decodeOn .dispatch w with
  | .ok _ => { t with sched := .call w :: s.sched }
  | .error _ => { t with prog := ⟨callerPortOf w, w⟩ :: s.prog, sched := .thread :: s.sched }

end Sys2Proof.Machine
end

