-- ==== Sys2Proof/Machine/Step.lean ====
section
/-! DEFINITION. One step of the machine: one step of exactly one agent (spec R7, R47). -/

namespace Sys2Proof.Machine

/-- The schedule names the agent that steps; where it names none, the owner of the hardware thread steps (log 7). -/
def step (s : State) : Host.Outcome State Fault Refusal :=
  match s.sched with
  | [] => threadStep s
  | e :: es => agentStep e { s with sched := es }

/-- The state with the word of an opcode-table row offered, so that the very next step presents it (log 9). -/
def State.withFetchWord (s : State) (nbits w : Nat) : State := offerWord (tableWord nbits w) s

end Sys2Proof.Machine
end

