-- ==== Sys2Proof/Safety.lean ====
section
/-! DEFINITION. What counts as a safe state and a safe run: the state invariants, the contents of a ring and of a formatted
send as byte sequences, runs of the machine, and the fairness assumption. -/

namespace Sys2Proof.Machine

/-! ### Runs -/

/-- `n` steps of the machine, stopping at the first fault or refusal. -/
def steps (n : Nat) (s : State) : StepOut := Host.Core.run Sys2Proof.core n s

/-- No fault flag is set: the run is inside the behaviour the document defines (spec R177). -/
def Clean (s : State) : Prop := s.fault = 0

/-- An infinite run: at each point one agent steps (spec R7, R47). -/
def IsRun (σ : Nat → State) (ev : Nat → Event) : Prop := ∀ n, agentStep (ev n) (σ n) = .next (σ (n + 1))

/-- Weak fairness (spec R54): (a) a transmitter that stays busy finishes, (b) a handler that stays dispatchable is
dispatched, (c) the owner of the hardware thread steps. `LineRx` is under no fairness. -/
structure Fair (σ : Nat → State) (ev : Nat → Event) : Prop where
  lineTx : ∀ n, (∀ m, n ≤ m → lineTxEnabled (σ m) = true) → ∃ m, n ≤ m ∧ ev m = .lineTx
  rxh : ∀ n, (∀ m, n ≤ m → dispatchable (σ m) .rxh = true) → ∃ m, n ≤ m ∧ ev m = .dispatch (encode .rxh)
  txh : ∀ n, (∀ m, n ≤ m → dispatchable (σ m) .txh = true) → ∃ m, n ≤ m ∧ ev m = .dispatch (encode .txh)
  thread : ∀ n, ∃ m, n ≤ m ∧ ev m = .thread

/-! ### Byte sequences -/

/-- The unread bytes of a ring, oldest first: `X.mem[X.rd], X.mem[inc(X.rd)], ...`, `occ(X)` of them (spec R88). -/
def unread (n : Nat) (x : Ring) : List Byte :=
  (List.range (occ n x)).map fun k => Memory.getZ x.mem ((x.rd + k) % n)

/-- The characters of the scratch buffer, `fmt_buf[0 .. fmt_len-1]` (spec R27). -/
def fmtChars (s : State) : List Byte := (List.range s.fmtLen).map fun k => s.byteAt .fmt k

/-- The image of a character sequence under the map that replaces each 0x0A by the pair 0x0D, 0x0A (spec R126). -/
def expandLF (cs : List Byte) : List Byte := cs.flatMap fun c => if c = chLF then [chCR, chLF] else [c]

/-- A use of one ring by its primitives (spec R89). -/
inductive RingUse
  | put (b : Byte)
  | get
deriving DecidableEq, Repr

/-- A sequence of uses of one ring: the state after, the bytes the ring took, and the bytes it gave, oldest first. -/
def useRing (r : RingId) : List RingUse → State → Option (State × List Byte × List Byte)
  | [], s => some (s, [], [])
  | .put b :: us, s =>
    match ringPut r b s with
    | none => none
    | some (t, k) =>
      match useRing r us t with
      | none => none
      | some (u, taken, given) => some (u, (if k then b :: taken else taken), given)
  | .get :: us, s =>
    match ringGet r s with
    | none => none
    | some (t, v) =>
      match useRing r us t with
      | none => none
      | some (u, taken, given) => some (u, taken, v.toList ++ given)

/-! ### State invariants -/

/-- Every K-bit and K+1-bit value is in its range, and the scratch buffer's length within the buffer (spec R10, R11). -/
structure InRange (s : State) : Prop where
  rxWr : s.rx.wr < s.N
  rxRd : s.rx.rd < s.N
  txWr : s.tx.wr < s.N
  txRd : s.tx.rd < s.N
  fmtLen : s.fmtLen ≤ s.params.fmtMax
  cnt : s.cnt < 2 ^ (s.params.K + 1)
  fi : s.fi < 2 ^ (s.params.K + 1)

/-- The µ-states of the byte-send and byte-queue sub-sequences (spec R69). -/
def inSub : CState → Bool
  | .s0 | .s1 | .a0 | .a0e | .a1 | .a2 | .a3 | .a4 | .a5 => true
  | .idle | .i1 | .i2 | .i3 | .i4 | .i5 | .i6 | .i7 | .r0 | .r1 | .f0 | .g0
  | .b0 | .b1 | .b1e | .b2 | .b3 | .b4 | .b5 => false

/-- A formatted send is in progress: at a loop head, or in a sub-sequence called from one. -/
def inLoop (s : State) : Bool := s.cpc == .f0 || s.cpc == .g0 || (inSub s.cpc && s.ret != .done)

/-- While a formatted send is in progress its index is within the rendered string, and strictly so between an injected
carriage return and its newline (spec R125, R146). -/
def LoopOk (s : State) : Prop := inLoop s = true → s.fi ≤ s.fmtLen ∧ (s.crp = true → s.fi < s.fmtLen)

/-- The Gray copies are exact (spec R12, R52). -/
def Coherent (s : State) : Prop :=
  s.rx.wrGs = gray s.rx.wr ∧ s.rx.rdGs = gray s.rx.rd ∧ s.tx.wrGs = gray s.tx.wr ∧ s.tx.rdGs = gray s.tx.rd

/-- `hpc == H_NONE` exactly when `ctx == CALLER` (spec R14, R184). -/
def ContextOk (s : State) : Prop := s.hpc = .none ↔ s.ctx = .caller

/-- Inside a bracket the line is masked and no handler is active (spec R50). -/
def BracketOk (s : State) : Prop := inBracket s.cpc = true → s.regs.lineEn = false ∧ s.ctx = .caller

/-- A µop reached through a ring test still finds what the test found (spec R137, R142, R158, R162). -/
structure GuardOk (s : State) : Prop where
  queue : s.cpc = .a1 ∨ s.cpc = .a2 ∨ s.cpc = .a3 → fullP s.N s.tx = false
  consume : s.cpc = .b2 ∨ s.cpc = .b3 ∨ s.cpc = .b4 → emptyC s.rx = false
  rxh : s.hpc = .h1 → fullP s.N s.rx = false
  txh : s.hpc = .w1 → emptyC s.tx = false

/-- The µ-states of INIT (spec R68). -/
def inInit : CState → Bool
  | .i1 | .i2 | .i3 | .i4 | .i5 | .i6 | .i7 => true
  | .idle | .s0 | .s1 | .r0 | .r1 | .f0 | .g0 | .a0 | .a0e | .a1 | .a2 | .a3 | .a4 | .a5
  | .b0 | .b1 | .b1e | .b2 | .b3 | .b4 | .b5 => false

/-- Until INIT has completed nothing but INIT has happened (spec R102, R201); afterwards INIT is never in progress. -/
structure BootOk (s : State) : Prop where
  caller : s.inited = false → s.ctx = .caller
  seq : s.inited = false → s.cpc = .idle ∨ inInit s.cpc = true
  rings : s.inited = false → s.rx = Ring.zero ∧ s.tx = Ring.zero
  sources : s.inited = false → s.regs.rxIe = false ∧ s.regs.txIe = false
  logs : s.inited = false → s.txLog = [] ∧ s.lineOut = [] ∧ s.rxLost = 0 ∧ s.fmtLen = 0
  once : s.inited = true → inInit s.cpc = false

/-- `line_out` is `tx_log` less the byte still in the transmitter, until an overrun is recorded (spec R115). -/
def LineLogOk (s : State) : Prop :=
  s.inited = true → s.faulted .txovr = false →
    s.txLog = s.lineOut ++ (if s.regs.txReady then [] else [s.regs.txHold])

/-- Queued bytes are never stranded with the transmit source disabled (spec R169 item a). -/
def HandshakeOk (s : State) : Prop :=
  occ s.N s.tx ≠ 0 → s.cpc ≠ .a4 → s.cpc ≠ .a5 → s.regs.txIe = true

/-- The state invariant of the machine. -/
structure Inv (s : State) : Prop where
  range : InRange s
  loop : LoopOk s
  memory : Memory.wf s = true
  coherent : Coherent s
  context : ContextOk s
  bracket : BracketOk s
  guards : GuardOk s
  boot : BootOk s
  lineLog : LineLogOk s

end Sys2Proof.Machine
end

