-- ==== Sys2Proof/Certificates/Slice0/Obligations.lean ====
section
/-! DEFINITION. The statements about the model, for the provers. `N` is `2^K` for the open parameter `K`, a field of the
state, so each statement is about every `K`. An equation `exec i s = .next t` with `t` written as an update of `s` says the
result and the frame at once: every field not named in the update is unchanged. -/

open Sys2Proof
open Sys2Proof.Machine

/-! ### Encoding -/

/-- Decoding an encoded operation gives it back, with every operand byte; on a port, exactly where the port accepts its
opcode (spec R60, R61, R63, R64). -/
def Obligations.DecodeEncodeRoundTrip : Prop :=
  (∀ i : Instr, decode (encode i) = .ok i) ∧
  (∀ (p : Port) (i : Instr), decodeOn p (encode i) = if i.port = p then .ok i else .error .wrongPort)

/-- A word that decodes is the encoding of what it decodes to: no bit of it is ignored (spec R61, R65). -/
def Obligations.DecodedWordIsItsEncoding : Prop :=
  ∀ (w : Word) (i : Instr), decode w = .ok i → encode i = w

/-- The decoder against the table of R63 read as match and mask (spec R61): a word decodes exactly when it matches a row, it
matches at most one row, and the row has the operation's mnemonic and port. -/
def Obligations.DecoderAgreesWithOpcodeTable : Prop :=
  (∀ w : Word, (∃ i, decode w = .ok i) ↔ ∃ r ∈ opTable, r.hits w = true) ∧
  (∀ w : Word, (opTable.filter fun r => r.hits w).length ≤ 1) ∧
  (∀ (w : Word) (i : Instr), decode w = .ok i →
    ∃ r ∈ opTable, r.hits w = true ∧ r.mnemonic = i.mnemonic ∧ r.port = i.port)

/-- The worked encodings of R72, legal and illegal. -/
def Obligations.WorkedWordsDecode : Prop :=
  decode 0x0241 = .ok (.send 0x41) ∧ decode 0x050A = .ok (.senda 0x0A) ∧ decode 0x0300 = .ok .recv ∧
  decode 0x21FF = .ok (.putTx 0xFF) ∧ decode 0x1000 = .ok .rxh ∧
  (Pseudo.print [0x41, 0x0A, 0x42]).expand.map encode = [0x3000, 0x3141, 0x310A, 0x3142, 0x0400] ∧
  decode 0x0301 = .error .nonzeroImm ∧
  decode 0x0000 = .error .noSuchOpcode ∧ decode 0x0A00 = .error .noSuchOpcode ∧
  decode 0x1200 = .error .noSuchOpcode ∧ decode 0x2400 = .error .noSuchOpcode ∧
  decode 0x3200 = .error .noSuchOpcode ∧ decode 0xFF00 = .error .noSuchOpcode

/-! ### Issue -/

/-- A step runs the decoded operation: from the `Caller`'s program on a caller-side port, by dispatch, by direct call. The
step takes the word, and the event if the schedule names one, from its queue, and does nothing else around `exec`. -/
def Obligations.StepRunsDecodedOperation : Prop :=
  (∀ (s : State) (r : Request) (rs : List Request) (i : Instr), callerReady s = true → s.prog = r :: rs →
    decodeOn r.port.toPort r.word = .ok i →
      (s.sched = [] → step s = exec i { s with prog := rs }) ∧
      (∀ es, s.sched = .thread :: es → step s = exec i { s with prog := rs, sched := es })) ∧
  (∀ (s : State) (w : Word) (es : List Event) (i : Instr), decodeOn .dispatch w = .ok i →
    (s.sched = .dispatch w :: es → dispatchable s i = true → step s = exec i { s with sched := es }) ∧
    (s.sched = .call w :: es → callable s = true → step s = exec i { s with sched := es }))

/-- An illegal word is refused: it changes no state except the sticky bit `F_ILLCMD`, on every port (spec R64),
whichever way the turn of the thread's owner comes. That the dispatch port presents a word, dispatched or called, only in
caller context, and a called one only outside a bracket, is the model's choice (log 11, log 12). -/
def Obligations.IllegalWordOnlyRaisesIllcmd : Prop :=
  (∀ (s : State) (r : Request) (rs : List Request) (e : Reject), callerReady s = true → s.prog = r :: rs →
    decodeOn r.port.toPort r.word = .error e →
      (s.sched = [] → step s = .next { s with prog := rs, fault := s.fault ||| FaultBit.illcmd.mask }) ∧
      (∀ es, s.sched = .thread :: es →
        step s = .next { s with prog := rs, sched := es, fault := s.fault ||| FaultBit.illcmd.mask })) ∧
  (∀ (s : State) (w : Word) (es : List Event) (e : Reject), decodeOn .dispatch w = .error e →
    (s.ctx = .caller → s.sched = .dispatch w :: es →
      step s = .next { s with sched := es, fault := s.fault ||| FaultBit.illcmd.mask }) ∧
    (callable s = true → s.sched = .call w :: es →
      step s = .next { s with sched := es, fault := s.fault ||| FaultBit.illcmd.mask }))

/-- A busy port is a hold: a caller-side operation presented to it changes nothing, and the step of the thread's owner is
the next µop, which leaves the pending words pending (spec R66). R66 says the agent has no issue step there; that `exec`
answers the state as it is, is the model's choice (log 10). -/
def Obligations.BusyPortHolds : Prop :=
  (∀ (i : Instr) (s : State), i.port ≠ .dispatch → busy s = true → exec i s = .next s) ∧
  (∀ s t : State, s.sched = [] → busy s = true → step s = .next t → t.prog = s.prog)

/-- Use before `INIT` has completed, and `INIT` a second time, raise `F_PREINIT` and change nothing else (spec R102, R155). -/
def Obligations.MisuseOfInitOnlyRaisesPreinit : Prop :=
  ∀ s : State,
    (callerReady s = true → s.inited = true →
      exec .init s = .next { s with fault := s.fault ||| FaultBit.preinit.mask }) ∧
    (callerReady s = true → s.inited = false → ∀ i : Instr, i ≠ .init →
      exec i s = .next { s with fault := s.fault ||| FaultBit.preinit.mask }) ∧
    (s.ctx = .caller → s.inited = false →
      exec .rxh s = .next { s with fault := s.fault ||| FaultBit.preinit.mask } ∧
      exec .txh s = .next { s with fault := s.fault ||| FaultBit.preinit.mask })

/-! ### INIT -/

/-- The seven µops of `INIT`, one step each (spec R101). -/
def Obligations.InitMicroSequence : Prop :=
  ∀ s : State, s.ctx = .caller → s.sched = [] →
    (s.cpc = .i1 → step s = .next { s with regs := { s.regs with periphEn := true }, cpc := .i2 }) ∧
    (s.cpc = .i2 → step s = .next { s with regs := { s.regs with txEn := false, rxEn := false }, cpc := .i3 }) ∧
    (s.cpc = .i3 → step s = .next { s with regs := { s.regs with rxIe := false, txIe := false }, cpc := .i4 }) ∧
    (s.cpc = .i4 → step s = .next
      { s with
        regs := { s.regs with dsize := 8, flowEn := false, div := s.params.baudDiv, fifoEn := false }, cpc := .i5 }) ∧
    (s.cpc = .i5 → step s = .next
      { s with regs := { s.regs with pinFuncTx := .altUart, pinFuncRx := .altUart }, cpc := .i6 }) ∧
    (s.cpc = .i6 → step s = .next { s with regs := { s.regs with pinPullTx := .none, pinPullRx := .none }, cpc := .i7 }) ∧
    (s.cpc = .i7 → step s = .next
      { s with
        regs := { s.regs with txEn := true, rxEn := true, txReady := true, rxReady := false }
        inited := true, cpc := .idle })

/-- `INIT` issued on an idle block that has not completed `INIT`, and run undisturbed: the whole effect and the frame
(spec R101, R103). -/
def Obligations.InitCompletes : Prop :=
  ∀ s : State, callerReady s = true → s.inited = false → s.sched = [] →
    exec .init s = .next { s with cpc := .i1 } ∧
    steps 7 { s with cpc := .i1 } = .next
      { s with
        regs :=
          { s.regs with
            periphEn := true, txEn := true, rxEn := true, rxIe := false, txIe := false, dsize := 8, flowEn := false,
            div := s.params.baudDiv, fifoEn := false, pinFuncTx := .altUart, pinFuncRx := .altUart,
            pinPullTx := .none, pinPullRx := .none, txReady := true, rxReady := false }
        inited := true }

/-! ### The data register and the line -/

/-- `DataWrite(v)` and `DataRead()` (spec R108, R109). That the value read from an empty receiver, a free value of the
spec, is `Config.freeByte` of the draw counter, and the counter itself, are the model's choice (log 4). -/
def Obligations.DataRegisterSideEffects : Prop :=
  ∀ (v : Byte) (s : State),
    dataWrite v s =
      { s with
        fault := if s.regs.txReady then s.fault else s.fault ||| FaultBit.txovr.mask
        regs := { s.regs with txHold := v, txReady := false }
        txLog := s.txLog ++ [v] } ∧
    (s.regs.rxReady = true →
      dataRead s = (s.regs.rxHold, { s with regs := { s.regs with rxReady := false } })) ∧
    (s.regs.rxReady = false →
      dataRead s = (Config.freeByte s.draws,
        { s with fault := s.fault ||| FaultBit.rxund.mask, draws := s.draws + 1 }))

/-- `LineRx(b)` and `LineTx`, where enabled (spec R112, R113). That the turn passes where they are not enabled is
the model's choice (log 8). -/
def Obligations.LineAgentSteps : Prop :=
  ∀ (s : State) (b : Byte) (es : List Event),
    (s.sched = .lineRx b :: es →
      (s.inited = true → s.regs.rxEn = true → s.regs.rxReady = false →
        step s = .next { s with sched := es, regs := { s.regs with rxHold := b, rxReady := true } }) ∧
      (s.inited = true → s.regs.rxEn = true → s.regs.rxReady = true →
        step s = .next { s with sched := es, rxLost := s.rxLost + 1 }) ∧
      (¬ (s.inited = true ∧ s.regs.rxEn = true) → step s = .next { s with sched := es })) ∧
    (s.sched = .lineTx :: es →
      (s.inited = true → s.regs.txEn = true → s.regs.txReady = false →
        step s = .next
          { s with sched := es, lineOut := s.lineOut ++ [s.regs.txHold], regs := { s.regs with txReady := true } }) ∧
      (¬ (s.inited = true ∧ s.regs.txEn = true ∧ s.regs.txReady = false) → step s = .next { s with sched := es }))

/-! ### Synchronous transport -/

/-- The byte-send sub-sequence: `S0` polls, spinning with no effect; `S1` writes `opb` and returns by `ret` (spec R121). -/
def Obligations.ByteSendSubSequence : Prop :=
  ∀ s : State, s.ctx = .caller → s.sched = [] →
    (s.cpc = .s0 → step s = .next (if s.regs.txReady then { s with cpc := .s1 } else s)) ∧
    (s.cpc = .s1 → s.ret = .done → step s = .next { dataWrite s.opb s with cpc := .idle }) ∧
    (s.cpc = .s1 → s.ret = .f0 → step s = .next { dataWrite s.opb s with cpc := .f0 })

/-- `SEND b` with the transmitter ready, run undisturbed: every byte value is sent unchanged (spec R120). -/
def Obligations.SendCompletes : Prop :=
  ∀ (b : Byte) (s : State), callerReady s = true → s.inited = true → s.sched = [] → s.regs.txReady = true →
    exec (.send b) s = .next { s with opb := b, ret := .done, cpc := .s0 } ∧
    steps 2 { s with opb := b, ret := .done, cpc := .s0 } = .next
      { s with
        opb := b, ret := .done
        regs := { s.regs with txHold := b, txReady := false }
        txLog := s.txLog ++ [b] }

/-- `R0` polls, `R1` reads the data register and translates 0x0D to 0x0A, every other value unchanged (spec R122, R123). -/
def Obligations.RecvMicroSequence : Prop :=
  ∀ s : State, s.ctx = .caller → s.sched = [] →
    (s.cpc = .r0 → step s = .next (if s.regs.rxReady then { s with cpc := .r1 } else s)) ∧
    (s.cpc = .r1 → step s = .next
      { (dataRead s).2 with
        res := if (dataRead s).1 = 0x0D then 0x0A else (dataRead s).1
        cpc := .idle })

/-- `RECV` with a byte in the receiver, run undisturbed (spec R122, R123). -/
def Obligations.RecvCompletes : Prop :=
  ∀ s : State, callerReady s = true → s.inited = true → s.sched = [] → s.regs.rxReady = true →
    exec .recv s = .next { s with cpc := .r0 } ∧
    steps 2 { s with cpc := .r0 } = .next
      { s with
        res := if s.regs.rxHold = 0x0D then 0x0A else s.regs.rxHold
        regs := { s.regs with rxReady := false } }

/-- The loop heads `F0` and `G0`: end test; else choose the next byte, a carriage return before each newline (spec R125,
R146). -/
def Obligations.LoopHeadChoosesNextByte : Prop :=
  ∀ (s : State) (back : Ret) (sub : CState), s.ctx = .caller → s.sched = [] →
    (s.cpc = .f0 ∧ back = .f0 ∧ sub = .s0 ∨ s.cpc = .g0 ∧ back = .g0 ∧ sub = .a0) →
      (s.fi = s.fmtLen → step s = .next { s with cnt := s.fmtLen, cpc := .idle }) ∧
      (s.fi < s.fmtLen → s.fmtLen ≤ s.params.fmtMax →
        (s.byteAt .fmt s.fi = 0x0A → s.crp = false →
          step s = .next { s with opb := 0x0D, crp := true, ret := back, cpc := sub }) ∧
        (¬ (s.byteAt .fmt s.fi = 0x0A ∧ s.crp = false) →
          step s = .next
            { s with opb := s.byteAt .fmt s.fi, crp := false, fi := s.fi + 1, ret := back, cpc := sub }))

/-- `SENDF` completes: it is issued, and on some schedule of its own µops and of `LineTx` it runs to the end; it then
returns the number of characters, has written their image to the data register, and has left the scratch buffer, the rings
and the fault register as they were (spec R124, R126, R130). -/
def Obligations.SendfCompletes : Prop :=
  ∀ s : State, callerReady s = true → s.inited = true → s.regs.txEn = true → s.fmtLen ≤ s.params.fmtMax →
    exec .sendf s = .next { s with fi := 0, crp := false, cpc := .f0 } ∧
    ∃ (es : List Event) (t : State), (∀ e ∈ es, e = .thread ∨ e = .lineTx) ∧
      steps es.length { s with fi := 0, crp := false, cpc := .f0, sched := es } = .next t ∧
      t.cpc = .idle ∧ t.ctx = .caller ∧ t.cnt = s.fmtLen ∧ t.txLog = s.txLog ++ expandLF (fmtChars s) ∧
      t.fmtLen = s.fmtLen ∧ t.fmtBuf = s.fmtBuf ∧ t.rx = s.rx ∧ t.tx = s.tx ∧ t.fault = s.fault

/-- The image of a formatted send on EVERY schedule without handlers: whenever a `SENDF` has run to its end under any
interleaving with the line, it has appended to `tx_log` exactly the image of the rendered characters, with no overrun, and
returned their number (spec R126). -/
def Obligations.SendfImageOnEverySchedule : Prop :=
  ∀ (n : Nat) (s t : State), s.cpc = .f0 → s.ctx = .caller → s.fi = 0 → s.crp = false → s.prog = [] →
    s.fmtLen ≤ s.params.fmtMax → (∀ e ∈ s.sched, e = .thread ∨ e = .lineTx ∨ ∃ b, e = .lineRx b) →
    steps n s = .next t → t.cpc = .idle →
      t.txLog = s.txLog ++ expandLF (fmtChars s) ∧ t.cnt = s.fmtLen ∧ t.fault = s.fault ∧
      t.fmtLen = s.fmtLen ∧ t.fmtBuf = s.fmtBuf

/-- The renderer port (spec R128, R129): `FMTCLR` empties the scratch buffer; `FMTCH b` stores at `fmt_len` while there is room,
every other byte of the buffer reading as before, and is dropped with `F_FMTLEN` when the buffer is full. -/
def Obligations.RendererPortEffects : Prop :=
  ∀ (b : Byte) (s : State), callerReady s = true → s.inited = true →
    exec .fmtclr s = .next { s with fmtLen := 0 } ∧
    (s.fmtLen = s.params.fmtMax → exec (.fmtch b) s = .next { s with opb := b, fault := s.fault ||| FaultBit.fmtlen.mask }) ∧
    (s.fmtLen < s.params.fmtMax → ∃ t : State, exec (.fmtch b) s = .next t ∧
      t = { s with opb := b, fmtLen := s.fmtLen + 1, fmtBuf := t.fmtBuf } ∧
      ∀ j, t.byteAt .fmt j = if j = s.fmtLen then b else s.byteAt .fmt j)

/-! ### Asynchronous transport -/

/-- The byte-queue sub-sequence, one step per µop (spec R136, R137, R138). -/
def Obligations.ByteQueueSubSequence : Prop :=
  ∀ s : State, s.ctx = .caller → s.sched = [] →
    (s.cpc = .a0 → step s = .next { s with cpc := if fullP s.N s.tx then .a0e else .a1 }) ∧
    (s.cpc = .a0e → step s = .next { s with regs := { s.regs with txIe := true }, cpc := .a0 }) ∧
    (s.cpc = .a1 → step s = .next { s with regs := { s.regs with lineEn := false }, cpc := .a2 }) ∧
    (s.cpc = .a2 → s.tx.wr < s.N → step s = .next
      { s with tx := { s.tx with mem := Memory.setZ s.tx.mem s.tx.wr s.opb }, cpc := .a3 }) ∧
    (s.cpc = .a3 → step s = .next
      { s with
        tx := { s.tx with wr := (s.tx.wr + 1) % s.N, wrGs := gray ((s.tx.wr + 1) % s.N) }, cpc := .a4 }) ∧
    (s.cpc = .a4 → step s = .next { s with regs := { s.regs with lineEn := true }, cpc := .a5 }) ∧
    (s.cpc = .a5 → s.ret = .done → step s = .next { s with regs := { s.regs with txIe := true }, cpc := .idle }) ∧
    (s.cpc = .a5 → s.ret = .g0 → step s = .next { s with regs := { s.regs with txIe := true }, cpc := .g0 })

/-- `SENDA b` on a ring with room, run undisturbed (spec R135): the byte is queued at the write cursor, the source armed, the
line unmasked whatever it was, and nothing reaches the data register. -/
def Obligations.SendaCompletes : Prop :=
  ∀ (b : Byte) (s : State), callerReady s = true → s.inited = true → s.sched = [] → s.tx.wr < s.N →
    fullP s.N s.tx = false →
    exec (.senda b) s = .next { s with opb := b, ret := .done, cpc := .a0 } ∧
    steps 6 { s with opb := b, ret := .done, cpc := .a0 } = .next
      { s with
        opb := b, ret := .done
        tx :=
          { s.tx with
            mem := Memory.setZ s.tx.mem s.tx.wr b, wr := (s.tx.wr + 1) % s.N, wrGs := gray ((s.tx.wr + 1) % s.N) }
        regs := { s.regs with txIe := true, lineEn := true } }

/-- The arming, waiting and consuming µops of `RECVA`, one step each (spec R141, R142). -/
def Obligations.ConsumeMicroSequence : Prop :=
  ∀ s : State, s.ctx = .caller → s.sched = [] →
    (s.cpc = .b0 → step s = .next { s with regs := { s.regs with rxIe := true }, cpc := .b1 }) ∧
    (s.cpc = .b1 → step s = .next { s with cpc := if emptyC s.rx then .b1e else .b2 }) ∧
    (s.cpc = .b1e → step s = .next { s with regs := { s.regs with rxIe := true }, cpc := .b1 }) ∧
    (s.cpc = .b2 → step s = .next { s with regs := { s.regs with lineEn := false }, cpc := .b3 }) ∧
    (s.cpc = .b3 → s.rx.rd < s.N → step s = .next { s with res := s.byteAt .rxm s.rx.rd, cpc := .b4 }) ∧
    (s.cpc = .b4 → step s = .next
      { s with
        rx := { s.rx with rd := (s.rx.rd + 1) % s.N, rdGs := gray ((s.rx.rd + 1) % s.N) }, cpc := .b5 }) ∧
    (s.cpc = .b5 → step s = .next { s with regs := { s.regs with lineEn := true }, cpc := .idle })

/-- `RECVA` with data waiting, run undisturbed (spec R140, R143): the byte at the read cursor, exactly as stored. -/
def Obligations.RecvaCompletes : Prop :=
  ∀ s : State, callerReady s = true → s.inited = true → s.sched = [] → s.rx.rd < s.N → emptyC s.rx = false →
    exec .recva s = .next { s with cpc := .b0 } ∧
    steps 6 { s with cpc := .b0 } = .next
      { s with
        res := s.byteAt .rxm s.rx.rd
        rx := { s.rx with rd := (s.rx.rd + 1) % s.N, rdGs := gray ((s.rx.rd + 1) % s.N) }
        regs := { s.regs with rxIe := true, lineEn := true } }

/-- `SENDFA` completes: on some schedule of its own µops, of dispatches of `TXH` and of `LineTx` it runs to the end; it then
returns the number of characters, the data register and the outbound ring together hold what they held and then the image of
the characters, and the scratch buffer, the inbound ring and the fault register are as they were (spec R145, R147, R130). -/
def Obligations.SendfaCompletes : Prop :=
  ∀ s : State, callerReady s = true → s.inited = true → s.hpc = .none → s.regs.txEn = true →
    s.regs.lineEn = true → 1 ≤ s.params.K → InRange s → Coherent s →
    exec .sendfa s = .next { s with fi := 0, crp := false, cpc := .g0 } ∧
    ∃ (es : List Event) (t : State), (∀ e ∈ es, e = .thread ∨ e = .lineTx ∨ e = .dispatch (encode .txh)) ∧
      steps es.length { s with fi := 0, crp := false, cpc := .g0, sched := es } = .next t ∧
      t.cpc = .idle ∧ t.ctx = .caller ∧ t.cnt = s.fmtLen ∧
      t.txLog ++ unread t.N t.tx = s.txLog ++ unread s.N s.tx ++ expandLF (fmtChars s) ∧
      t.fmtLen = s.fmtLen ∧ t.fmtBuf = s.fmtBuf ∧ t.rx = s.rx ∧ t.fault = s.fault

/-- `IRQEN` and `IRQDIS` set and clear `LINE_EN` and nothing else; in particular neither FSM moves (spec R148, R149). -/
def Obligations.PairEnableDisable : Prop :=
  ∀ s : State, callerReady s = true → s.inited = true →
    exec .irqen s = .next { s with regs := { s.regs with lineEn := true } } ∧
    exec .irqdis s = .next { s with regs := { s.regs with lineEn := false } }

/-! ### The ring port -/

/-- `PUT.RX b` (spec R91). -/
def Obligations.PutRxEffect : Prop :=
  ∀ (b : Byte) (s : State), callerReady s = true → s.inited = true → s.rx.wr < s.N →
    (s.regs.rxIe = true →
      exec (.putRx b) s = .next { s with opb := b, fault := s.fault ||| FaultBit.owner.mask }) ∧
    (s.regs.rxIe = false → fullP s.N s.rx = true → exec (.putRx b) s = .next { s with opb := b, ok := false }) ∧
    (s.regs.rxIe = false → fullP s.N s.rx = false → exec (.putRx b) s = .next
      { s with
        opb := b, ok := true
        rx :=
          { s.rx with
            mem := Memory.setZ s.rx.mem s.rx.wr b, wr := (s.rx.wr + 1) % s.N, wrGs := gray ((s.rx.wr + 1) % s.N) } })

/-- `PUT.TX b` (spec R92): the caller owns this side, so no ownership fault, whatever the source bits are. -/
def Obligations.PutTxEffect : Prop :=
  ∀ (b : Byte) (s : State), callerReady s = true → s.inited = true → s.tx.wr < s.N →
    (fullP s.N s.tx = true → exec (.putTx b) s = .next { s with opb := b, ok := false }) ∧
    (fullP s.N s.tx = false → exec (.putTx b) s = .next
      { s with
        opb := b, ok := true
        tx :=
          { s.tx with
            mem := Memory.setZ s.tx.mem s.tx.wr b, wr := (s.tx.wr + 1) % s.N, wrGs := gray ((s.tx.wr + 1) % s.N) } })

/-- `GET.RX` (spec R93): no translation, and `res` unchanged on an empty ring. -/
def Obligations.GetRxEffect : Prop :=
  ∀ s : State, callerReady s = true → s.inited = true → s.rx.rd < s.N →
    (emptyC s.rx = true → exec .getRx s = .next { s with ok := false }) ∧
    (emptyC s.rx = false → exec .getRx s = .next
      { s with
        ok := true, res := s.byteAt .rxm s.rx.rd
        rx := { s.rx with rd := (s.rx.rd + 1) % s.N, rdGs := gray ((s.rx.rd + 1) % s.N) } })

/-- `GET.TX` (spec R94): refused while the transmit source is enabled; nothing reaches the data register. -/
def Obligations.GetTxEffect : Prop :=
  ∀ s : State, callerReady s = true → s.inited = true → s.tx.rd < s.N →
    (s.regs.txIe = true → exec .getTx s = .next { s with fault := s.fault ||| FaultBit.owner.mask }) ∧
    (s.regs.txIe = false → emptyC s.tx = true → exec .getTx s = .next { s with ok := false }) ∧
    (s.regs.txIe = false → emptyC s.tx = false → exec .getTx s = .next
      { s with
        ok := true, res := s.byteAt .txm s.tx.rd
        tx := { s.tx with rd := (s.tx.rd + 1) % s.N, rdGs := gray ((s.tx.rd + 1) % s.N) } })

/-- Which bytes of the three arrays an operation changes at issue: `PUT.RX`, `PUT.TX` and `FMTCH` at most the one at their
write index, every other operation none (spec R41, R26, R27). -/
def Obligations.OperationsStoreAtMostOneByte : Prop :=
  ∀ (i : Instr) (s t : State), exec i s = .next t → ∀ (q : Space) (j : Nat),
    t.byteAt q j = s.byteAt q j ∨
      (∃ b, i = .putRx b ∧ q = .rxm ∧ j = s.rx.wr ∧ t.byteAt q j = b) ∨
      (∃ b, i = .putTx b ∧ q = .txm ∧ j = s.tx.wr ∧ t.byteAt q j = b) ∨
      (∃ b, i = .fmtch b ∧ q = .fmt ∧ j = s.fmtLen ∧ t.byteAt q j = b)

/-! ### Handlers, dispatch, contexts -/

/-- The µops of `RXH`, one step each (spec R157, R158, R159). -/
def Obligations.ReadHandlerMicroSequence : Prop :=
  ∀ s : State, s.ctx = .handler → s.sched = [] →
    (s.hpc = .h0 → fullP s.N s.rx = true →
      step s = .next { s with regs := { s.regs with rxIe := false }, hpc := .none, ctx := .caller }) ∧
    (s.hpc = .h0 → fullP s.N s.rx = false → step s = .next { s with hpc := .h1 }) ∧
    (s.hpc = .h1 → s.rx.wr < s.N → step s = .next
      { (dataRead s).2 with
        hb := (dataRead s).1
        rx :=
          { s.rx with
            mem := Memory.setZ s.rx.mem s.rx.wr (dataRead s).1
            wr := (s.rx.wr + 1) % s.N, wrGs := gray ((s.rx.wr + 1) % s.N) }
        hpc := .h2 }) ∧
    (s.hpc = .h2 → step s = .next (if s.regs.txReady then { s with hpc := .h3 } else s)) ∧
    (s.hpc = .h3 → step s = .next { dataWrite s.hb s with hpc := .h4 }) ∧
    (s.hpc = .h4 → step s = .next { s with regs := { s.regs with rxIe := true }, hpc := .none, ctx := .caller })

/-- `RXH` on a ring with room, with a byte in the receiver and the transmitter ready, run undisturbed: the byte is stored and
echoed identically, the source re-enabled, and the interrupted caller untouched (spec R156, R170). -/
def Obligations.RxhCompletes : Prop :=
  ∀ s : State, s.ctx = .caller → s.hpc = .none → s.inited = true → s.sched = [] → s.rx.wr < s.N →
    fullP s.N s.rx = false → s.regs.rxReady = true → s.regs.txReady = true →
    exec .rxh s = .next { s with ctx := .handler, hpc := .h0 } ∧
    steps 5 { s with ctx := .handler, hpc := .h0 } = .next
      { s with
        hb := s.regs.rxHold
        rx :=
          { s.rx with
            mem := Memory.setZ s.rx.mem s.rx.wr s.regs.rxHold
            wr := (s.rx.wr + 1) % s.N, wrGs := gray ((s.rx.wr + 1) % s.N) }
        regs := { s.regs with rxReady := false, txHold := s.regs.rxHold, txReady := false, rxIe := true }
        txLog := s.txLog ++ [s.regs.rxHold] }

/-- The µops of `TXH`, one step each (spec R161, R162, R163). -/
def Obligations.WriteHandlerMicroSequence : Prop :=
  ∀ s : State, s.ctx = .handler → s.sched = [] →
    (s.hpc = .w0 → emptyC s.tx = true →
      step s = .next { s with regs := { s.regs with txIe := false }, hpc := .none, ctx := .caller }) ∧
    (s.hpc = .w0 → emptyC s.tx = false → step s = .next { s with hpc := .w1 }) ∧
    (s.hpc = .w1 → s.tx.rd < s.N → step s = .next
      { dataWrite (s.byteAt .txm s.tx.rd) s with
        tx := { s.tx with rd := (s.tx.rd + 1) % s.N, rdGs := gray ((s.tx.rd + 1) % s.N) }
        hpc := .w2 }) ∧
    (s.hpc = .w2 → step s = .next { s with regs := { s.regs with txIe := true }, hpc := .none, ctx := .caller })

/-- `TXH` on a ring with a byte and the transmitter ready, run undisturbed (spec R160). -/
def Obligations.TxhCompletes : Prop :=
  ∀ s : State, s.ctx = .caller → s.hpc = .none → s.inited = true → s.sched = [] → s.tx.rd < s.N →
    emptyC s.tx = false → s.regs.txReady = true →
    exec .txh s = .next { s with ctx := .handler, hpc := .w0 } ∧
    steps 3 { s with ctx := .handler, hpc := .w0 } = .next
      { s with
        tx := { s.tx with rd := (s.tx.rd + 1) % s.N, rdGs := gray ((s.tx.rd + 1) % s.N) }
        regs := { s.regs with txHold := s.byteAt .txm s.tx.rd, txReady := false, txIe := true }
        txLog := s.txLog ++ [s.byteAt .txm s.tx.rd] }

/-- Dispatch (spec R179, R180, R181, R182): the `Framework`'s step for a handler word is the entry step exactly when `inited`,
caller context, `LINE_EN` and the request of that handler hold; the entry step writes `ctx` and `hpc` only. The two conditions
do not exclude each other: when both requests are up either handler may be dispatched. The spec gives the `Framework` no step
where the condition is false; that a turn scheduled there passes and changes nothing is the model's choice (log 8). -/
def Obligations.DispatchExactlyUnderItsCondition : Prop :=
  ∀ (s : State) (es : List Event),
    (s.sched = .dispatch 0x1000 :: es →
      step s = .next
        (if s.inited ∧ s.ctx = .caller ∧ s.regs.lineEn ∧ s.regs.rxIe ∧ s.regs.rxReady
          then { s with sched := es, ctx := .handler, hpc := .h0 } else { s with sched := es })) ∧
    (s.sched = .dispatch 0x1100 :: es →
      step s = .next
        (if s.inited ∧ s.ctx = .caller ∧ s.regs.lineEn ∧ s.regs.txIe ∧ s.regs.txReady
          then { s with sched := es, ctx := .handler, hpc := .w0 } else { s with sched := es })) ∧
    (s.inited = true → s.ctx = .caller → s.regs.lineEn = true → rxIrq s = true → txIrq s = true →
      step { s with sched := .dispatch 0x1000 :: es } = .next { s with sched := es, ctx := .handler, hpc := .h0 } ∧
      step { s with sched := .dispatch 0x1100 :: es } = .next { s with sched := es, ctx := .handler, hpc := .w0 })

/-- No nesting, and no call into a bracket (spec R185, R223): while a handler is active neither dispatch nor a direct call does
anything, and a direct call does nothing between a mask and its unmask. Elsewhere in caller context, once `INIT` has
completed, a direct call is the entry step, whatever `LINE_EN` and the request lines are (spec R155). The spec gives no step in
the first two cases; that the turn passes (log 8), that it passes for an illegal word too (log 12), and at which boundaries a
direct call is offered (log 11), is the model's choice. -/
def Obligations.NoNestingOfHandlers : Prop :=
  ∀ (s : State) (w : Word) (es : List Event),
    (s.ctx = .handler → s.sched = .dispatch w :: es → step s = .next { s with sched := es }) ∧
    (s.ctx = .handler ∨ inBracket s.cpc = true → s.sched = .call w :: es → step s = .next { s with sched := es }) ∧
    (s.ctx = .caller → inBracket s.cpc = false → s.inited = true →
      (s.sched = .call 0x1000 :: es → step s = .next { s with sched := es, ctx := .handler, hpc := .h0 }) ∧
      (s.sched = .call 0x1100 :: es → step s = .next { s with sched := es, ctx := .handler, hpc := .w0 }))

/-- While a handler is active, nothing but reset touches the interrupted caller: its sequencer, its results and latches, the
scratch buffer, its pending words, and the line mask (spec R13, R171, R181, R184). -/
def Obligations.HandlerPreservesCaller : Prop :=
  ∀ s t : State, s.ctx = .handler → s.sched.head? ≠ some .reset → step s = .next t →
    t.cpc = s.cpc ∧ t.ret = s.ret ∧ t.opb = s.opb ∧ t.res = s.res ∧ t.cnt = s.cnt ∧ t.fi = s.fi ∧ t.crp = s.crp ∧
    t.ok = s.ok ∧ t.fmtLen = s.fmtLen ∧ t.fmtBuf = s.fmtBuf ∧ t.prog = s.prog ∧ t.regs.lineEn = s.regs.lineEn

/-- Single producer, single consumer (spec R49, R90): a step in handler context moves neither `TX.wr` nor `RX.rd`; a µop of a
command moves neither `RX.wr` nor `TX.rd`; and only their own handlers move those in handler context. -/
def Obligations.CursorsMovedOnlyByTheirOwner : Prop :=
  ∀ s t : State, s.sched.head? ≠ some .reset → step s = .next t →
    (s.ctx = .handler → t.tx.wr = s.tx.wr ∧ t.rx.rd = s.rx.rd ∧
      (s.hpc ≠ .h1 → t.rx.wr = s.rx.wr) ∧ (s.hpc ≠ .w1 → t.tx.rd = s.tx.rd)) ∧
    (s.ctx = .caller → s.cpc ≠ .idle → t.rx.wr = s.rx.wr ∧ t.tx.rd = s.tx.rd ∧
      (s.cpc ≠ .a3 → t.tx.wr = s.tx.wr) ∧ (s.cpc ≠ .b4 → t.rx.rd = s.rx.rd))

/-- The two rings are independent (spec R98): an operation on one ring neither writes the other (it is as it was) nor reads it
(with any other ring `x` in its place the same happens, and `x` is left there). At issue, and for the µops of both sequencers;
the µops of `RXH`, its echo among them, do not touch ring `TX`. -/
def Obligations.RingsAreIndependent : Prop :=
  (∀ (i : Instr) (s t : State) (x : Ring), i = .getRx ∨ i = .recva ∨ i = .rxh ∨ (∃ b, i = .putRx b) → exec i s = .next t →
    t.tx = s.tx ∧ exec i { s with tx := x } = .next { t with tx := x }) ∧
  (∀ (i : Instr) (s t : State) (x : Ring),
    i = .getTx ∨ i = .sendfa ∨ i = .txh ∨ (∃ b, i = .putTx b ∨ i = .senda b) → exec i s = .next t →
    t.rx = s.rx ∧ exec i { s with rx := x } = .next { t with rx := x }) ∧
  (∀ (s t : State) (x : Ring), callerUop s = some t →
    (s.cpc ≠ .a2 → s.cpc ≠ .a3 → t.tx = s.tx) ∧ (s.cpc ≠ .b4 → t.rx = s.rx) ∧
    (s.cpc ≠ .a0 → s.cpc ≠ .a2 → s.cpc ≠ .a3 → callerUop { s with tx := x } = some { t with tx := x }) ∧
    (s.cpc ≠ .b1 → s.cpc ≠ .b3 → s.cpc ≠ .b4 → callerUop { s with rx := x } = some { t with rx := x })) ∧
  (∀ (s t : State) (x : Ring), handlerUop s = some t →
    (s.hpc ≠ .w1 → t.tx = s.tx) ∧ (s.hpc ≠ .h1 → t.rx = s.rx) ∧
    (s.hpc ≠ .w0 → s.hpc ≠ .w1 → handlerUop { s with tx := x } = some { t with tx := x }) ∧
    (s.hpc ≠ .h0 → s.hpc ≠ .h1 → handlerUop { s with rx := x } = some { t with rx := x }))

/-- What moves the handshake FSMs (spec R165 to R168): outside reset, `RX_IE` changes only at `I3`, `B0`, `B1E`, `H0`, `H4` and
`TX_IE` only at `I3`, `A0E`, `A5`, `W0`, `W2`. -/
def Obligations.OnlyNamedStepsMoveTheFsms : Prop :=
  ∀ s t : State, s.sched.head? ≠ some .reset → step s = .next t →
    (t.regs.rxIe ≠ s.regs.rxIe →
      s.ctx = .caller ∧ (s.cpc = .i3 ∧ t.regs.rxIe = false ∨ (s.cpc = .b0 ∨ s.cpc = .b1e) ∧ t.regs.rxIe = true) ∨
      s.ctx = .handler ∧ (s.hpc = .h0 ∧ fullP s.N s.rx = true ∧ t.regs.rxIe = false ∨
        s.hpc = .h4 ∧ t.regs.rxIe = true)) ∧
    (t.regs.txIe ≠ s.regs.txIe →
      s.ctx = .caller ∧ (s.cpc = .i3 ∧ t.regs.txIe = false ∨ (s.cpc = .a0e ∨ s.cpc = .a5) ∧ t.regs.txIe = true) ∨
      s.ctx = .handler ∧ (s.hpc = .w0 ∧ emptyC s.tx = true ∧ t.regs.txIe = false ∨
        s.hpc = .w2 ∧ t.regs.txIe = true))

/-- The results stay valid until the next operation that writes the same result (spec R67): outside reset, `res` changes
only at `R1`, `B3` or the issue of a ring read, `cnt` only at a loop head, `ok` only at the issue of a ring-port operation. -/
def Obligations.ResultsStayValid : Prop :=
  ∀ s t : State, s.sched.head? ≠ some .reset → step s = .next t →
    (t.res ≠ s.res → s.ctx = .caller ∧ (s.cpc = .r1 ∨ s.cpc = .b3 ∨ s.cpc = .idle ∧
      ∃ r, s.prog.head? = some r ∧ (decode r.word = .ok .getRx ∨ decode r.word = .ok .getTx))) ∧
    (t.cnt ≠ s.cnt → s.ctx = .caller ∧ (s.cpc = .f0 ∨ s.cpc = .g0) ∧ s.fi = s.fmtLen) ∧
    (t.ok ≠ s.ok → s.ctx = .caller ∧ s.cpc = .idle ∧
      ∃ r i, s.prog.head? = some r ∧ decode r.word = .ok i ∧ i.port = .ring)

/-- Fault bits are sticky, a fault never transfers control by itself, and no step raises two (spec R25, R176, R182). -/
def Obligations.FaultsAreStickyAndSingle : Prop :=
  ∀ s t : State, s.sched.head? ≠ some .reset → step s = .next t →
    t.fault = s.fault ∨ ∃ f : FaultBit, t.fault = s.fault ||| f.mask

/-! ### Gray code and ring laws -/

/-- The Gray code bit by bit, and its decoding (spec R82, R83): a bijection on `[0, 2^K)`. -/
def Obligations.GrayCodeDecodes : Prop :=
  (∀ c i : Nat, (gray c).testBit i = (c.testBit i != c.testBit (i + 1))) ∧
  (∀ K c : Nat, c < 2 ^ K → gray c < 2 ^ K ∧ ungray K (gray c) = c) ∧
  (∀ K g : Nat, g < 2 ^ K → ungray K g < 2 ^ K ∧ gray (ungray K g) = g) ∧
  (∀ K g i : Nat, g < 2 ^ K → i < K →
    (ungray K g).testBit i = ((ungray K g).testBit (i + 1) != g.testBit i))

/-- Advancing a cursor changes exactly one bit of its Gray code, at the wrap too (spec R84). -/
def Obligations.GrayAdvanceChangesOneBit : Prop :=
  ∀ K c : Nat, 1 ≤ K → c < 2 ^ K → ∃ j, j < K ∧ gray c ^^^ gray (inc (2 ^ K) c) = 2 ^ j

/-- The flags through the exact Gray copies are the document's comparisons, and occupancy tells them (spec R85 to R88, V5). -/
def Obligations.FlagsAreTheDocumentsComparisons : Prop :=
  ∀ s : State, InRange s → Coherent s → 1 ≤ s.params.K → ∀ r : RingId,
    let x := s.ring r
    (fullP s.N x = true ↔ (x.wr + 1) % s.N = x.rd) ∧
    (emptyC x = true ↔ x.rd = x.wr) ∧
    (occ s.N x = s.N - 1 ↔ fullP s.N x = true) ∧
    (occ s.N x = 0 ↔ emptyC x = true) ∧
    occ s.N x ≤ s.N - 1 ∧
    ¬ (fullP s.N x = true ∧ emptyC x = true)

/-- The FIFO law (spec R95): whatever uses of one ring by its primitives, interleaved in any way, what the ring gives and then
still holds is what it held and then took; from an empty ring, what it gives is a prefix of what it took. -/
def Obligations.RingIsFirstInFirstOut : Prop :=
  ∀ (r : RingId) (us : List RingUse) (s : State), InRange s → Coherent s →
    ∃ (t : State) (taken given : List Byte), useRing r us s = some (t, taken, given) ∧
      given ++ unread s.N (t.ring r) = unread s.N (s.ring r) ++ taken ∧
      (emptyC (s.ring r) = true → given <+: taken)

/-- Occupancy and wrap (spec R96): from cursors at zero, after `w` accepted writes and `v` reads that gave a byte. -/
def Obligations.OccupancyAndWrap : Prop :=
  ∀ (r : RingId) (us : List RingUse) (s t : State) (taken given : List Byte), InRange s → Coherent s →
    (s.ring r).wr = 0 → (s.ring r).rd = 0 → useRing r us s = some (t, taken, given) →
      (t.ring r).wr = taken.length % s.N ∧ (t.ring r).rd = given.length % s.N ∧
      given.length ≤ taken.length ∧ occ s.N (t.ring r) = taken.length - given.length

/-! ### Reset -/

/-- What reset leaves, for every choice of the unspecified values, every parameter and every queue; and the reset step, always
enabled, is such a reset (spec R36, R200). That it keeps the program, the schedule and the parameters, and that it names its
free values by a seed and a draw count greater than before, is the model's choice (log 18, log 4, log 5). -/
def Obligations.ResetLeavesTheTable : Prop :=
  (∀ (p : Params) (u : Unspec) (seed draws : Nat) (prog : List Request) (sched : List Event),
    let s := State.resetWith p u seed draws prog sched
    s.rx = ⟨0, 0, 0, 0, []⟩ ∧ s.tx = ⟨0, 0, 0, 0, []⟩ ∧
    (∀ j, s.byteAt .rxm j = 0x00 ∧ s.byteAt .txm j = 0x00 ∧ s.byteAt .fmt j = Config.freeFmt seed j) ∧
    s.regs.rxIe = false ∧ s.regs.txIe = false ∧
    s.cpc = .idle ∧ s.hpc = .none ∧ s.ctx = .caller ∧ s.ret = .done ∧ s.fmtLen = 0 ∧ s.fault = 0 ∧ s.inited = false ∧
    s.txLog = [] ∧ s.lineOut = [] ∧ s.rxLost = 0 ∧
    s.regs = { u.regs with rxIe := false, txIe := false } ∧
    s.opb = u.opb ∧ s.res = u.res ∧ s.hb = u.hb ∧ s.ok = u.ok ∧ s.crp = u.crp ∧
    (u.cnt < 2 ^ (p.K + 1) → s.cnt = u.cnt) ∧ (u.fi < 2 ^ (p.K + 1) → s.fi = u.fi)) ∧
  (∀ (s : State) (es : List Event), s.sched = .reset :: es →
    ∃ (u : Unspec) (seed draws : Nat), s.seed < seed ∧ s.draws < draws ∧
      step s = .next (State.resetWith s.params u seed draws s.prog es)) ∧
  (∃ (u : Unspec), State.reset = State.resetWith Config.params u 0 0 [] [])

/-! ### Invariants -/

/-- The Gray copies stay exact (spec R52). -/
def Obligations.StepKeepsCoherence : Prop :=
  ∀ s t : State, Coherent s → step s = .next t → Coherent t

/-- EVERY STEP KEEPS THE STATE INVARIANT: ranges, the loop index, canonical memory, exact Gray copies, `hpc == H_NONE` exactly
in caller context, the bracket masks the line, the ring tests still hold where their µops act, nothing but `INIT` before `INIT`,
and `line_out` is `tx_log` less the byte in flight. -/
def Obligations.StepKeepsInvariant : Prop :=
  ∀ s t : State, Inv s → step s = .next t → Inv t

/-- The state invariant holds after every reset. -/
def Obligations.InvariantAtReset : Prop :=
  (∀ (p : Params) (u : Unspec) (seed draws : Nat) (prog : List Request) (sched : List Event),
    Inv (State.resetWith p u seed draws prog sched)) ∧ Inv State.reset

/-- No index ever leaves its array (spec R41, R43): from a state in range the machine always has a next state. -/
def Obligations.StepNeverStops : Prop :=
  ∀ s : State, InRange s → LoopOk s → ∃ t, step s = .next t

/-- Between a mask and its unmask (spec R50): no handler is active after any step, whatever the schedule offers; a dispatch of
either handler changes nothing; and the bracket is left only by its unmask, which sets `LINE_EN`. The spec gives neither a
dispatch nor a direct call a step there (R180, R223); that a turn scheduled for one passes is the model's choice (log 8,
log 11). -/
def Obligations.BracketExcludesHandlers : Prop :=
  ∀ s t : State, Inv s → inBracket s.cpc = true → s.sched.head? ≠ some .reset → step s = .next t →
    t.ctx = .caller ∧ t.hpc = .none ∧
    (s.sched.head? = some (.dispatch 0x1000) ∨ s.sched.head? = some (.dispatch 0x1100) →
      t = { s with sched := s.sched.tail }) ∧
    (inBracket t.cpc = true ∨ (s.cpc = .a4 ∨ s.cpc = .b5) ∧ t.regs.lineEn = true)

/-- What the line carried is a prefix of what the data register was given, and all of it when the transmitter is ready, on
every run without an overrun (spec R115). -/
def Obligations.LineOutputIsLogPrefix : Prop :=
  ∀ (n : Nat) (s t : State), Inv s → steps n s = .next t → t.faulted .txovr = false →
    t.lineOut <+: t.txLog ∧ (t.regs.txReady = true → t.lineOut = t.txLog)

/-- Queued bytes are never stranded with the transmit source disabled (spec R169 item a), while the outbound ring is filled
only by `SENDA` and `SENDFA`, not by `PUT.TX`. -/
def Obligations.StepKeepsHandshake : Prop :=
  ∀ s t : State, Inv s → HandshakeOk s →
    (∀ r b, s.prog.head? = some r → decode r.word ≠ .ok (.putTx b)) → step s = .next t → HandshakeOk t

/-- The `TXH` transfer moves the oldest queued byte to the data register and changes nothing else of what the outbound path
holds: no loss, no duplication (spec R139, R162). -/
def Obligations.WriteHandlerMovesOldestByte : Prop :=
  ∀ s t : State, InRange s → Coherent s → emptyC s.tx = false → s.ctx = .handler → s.hpc = .w1 → s.sched = [] →
    step s = .next t →
      t.txLog ++ unread t.N t.tx = s.txLog ++ unread s.N s.tx ∧ (unread t.N t.tx).length + 1 = (unread s.N s.tx).length

/-- END TO END (spec R139, S9): a program of `SENDA` operations, on every schedule of the thread, the line and dispatches of
`TXH`: once the program has run, the data register and the outbound ring together hold
what they held and then the bytes sent, in order, none lost, none duplicated; and no fault was raised. -/
def Obligations.SendaEndToEnd : Prop :=
  ∀ (bs : List Byte) (n : Nat) (s t : State), Inv s → callerReady s = true → s.inited = true →
    s.prog = bs.map (fun b => ⟨.command, encode (.senda b)⟩) →
    (∀ e ∈ s.sched, e = .thread ∨ e = .lineTx ∨ (∃ b, e = .lineRx b) ∨ e = .dispatch (encode .txh)) →
    steps n s = .next t → callerReady t = true → t.prog = [] →
      t.txLog ++ unread t.N t.tx = s.txLog ++ unread s.N s.tx ++ bs ∧ t.fault = s.fault

/-! ### Hangs and liveness -/

/-- An asynchronous send on a full ring with the line masked never completes, on any schedule without reset and direct calls
(spec R212, R216):
it stays in its wait loop, the ring stays as it is, and no fault is raised. -/
def Obligations.MaskedSendOnFullRingHangs : Prop :=
  ∀ (n : Nat) (s t : State), s.ctx = .caller → s.cpc = .a0 ∨ s.cpc = .a0e → s.regs.lineEn = false →
    fullP s.N s.tx = true →
    (∀ e ∈ s.sched, e ≠ .reset ∧ ∀ w, e ≠ .call w ∧ (e = .dispatch w → ∃ i, decodeOn .dispatch w = .ok i)) → steps n s = .next t →
      t.ctx = .caller ∧ (t.cpc = .a0 ∨ t.cpc = .a0e) ∧ t.tx = s.tx ∧ t.txLog = s.txLog ∧ t.fault = s.fault

/-- Under weak fairness a synchronous send completes, while the line is masked or both sources are disabled, on every run
without reset and direct calls (spec R54, R120, R127): "never suspends indefinitely under correct hardware". -/
def Obligations.FairSendCompletes : Prop :=
  ∀ (σ : Nat → State) (ev : Nat → Event), IsRun σ ev → Fair σ ev → (∀ n, ev n ≠ .reset ∧ ∀ w, ev n ≠ .call w) →
    (σ 0).ctx = .caller → (σ 0).cpc = .s0 → (σ 0).ret = .done → (σ 0).inited = true → (σ 0).regs.txEn = true →
    (σ 0).regs.lineEn = false ∨ ((σ 0).regs.rxIe = false ∧ (σ 0).regs.txIe = false) →
    ∃ n, (σ n).cpc = .idle ∧ (σ n).txLog = (σ 0).txLog ++ [(σ 0).opb] ∧ (σ n).faulted .txovr = (σ 0).faulted .txovr
end

