-- ==== Sys2Proof/Laws/Encoding.lean ====
section
/-! SUPPORT. The fields of a joined word, a word joined from its fields, and what it is to match a row of the opcode table. -/

namespace Sys2Proof

@[simp] theorem opField_join (b c : Byte) : opField (joinWord b c) = b := by
  unfold opField joinWord
  ext i hi
  have h : 8 + i < 16 := by omega
  simp [BitVec.getElem_extractLsb', hi, h]

@[simp] theorem immField_join (b c : Byte) : immField (joinWord b c) = c := by
  unfold immField joinWord
  ext i hi
  have h : i < 16 := by omega
  simp [BitVec.getElem_extractLsb', hi, h]

theorem join_fields (w : Word) : joinWord (opField w) (immField w) = w := by
  unfold opField immField joinWord
  ext i hi
  by_cases h : i < 8
  · simp [h, BitVec.getElem_shiftLeft]
    rfl
  · have h1 : 8 + (i - 8) = i := by omega
    have h2 : i - 8 < 8 := by omega
    simp [h, BitVec.getElem_shiftLeft, h1, h2]
    rfl

theorem and_highByte (w : Word) (b : Byte) : w &&& 0xFF00 = joinWord b 0x00 ↔ opField w = b := by
  have key : w &&& 0xFF00 = joinWord (opField w) 0x00 := by
    apply BitVec.eq_of_getLsbD_eq
    intro i hi
    interval_cases i <;> simp [opField, joinWord]
  rw [key]
  constructor
  · intro h; simpa using congrArg opField h
  · rintro rfl; rfl

theorem and_allOnes (w : Word) : w &&& 0xFFFF = w := by
  have : (0xFFFF : Word) = BitVec.allOnes 16 := by decide
  rw [this, BitVec.and_allOnes]

/-- A word matches a row exactly when its opcode is the row's and, in format Z, its `imm` is zero (spec R61). -/
theorem OpRow.hits_iff (r : OpRow) (w : Word) :
    r.hits w = true ↔ opField w = r.opcode ∧ (r.format = .Z → immField w = 0x00) := by
  unfold OpRow.hits OpRow.mask OpRow.matchWord
  cases hf : r.format
  · simpa using and_highByte w r.opcode
  · simp only [beq_iff_eq, and_allOnes, forall_const]
    constructor
    · rintro rfl; simp
    · rintro ⟨h1, h2⟩; rw [← h1, ← h2]; exact (join_fields w).symm

end Sys2Proof
end

