-- ==== Sys2Proof/Laws/State.lean ====
section
/-! SUPPORT. One lemma per field per update of the state, so that no later proof unfolds an update. -/

namespace Sys2Proof.Machine

/-! ### `raise` -/

@[simp] theorem raise_params (s : State) (f : FaultBit) : (s.raise f).params = s.params := rfl
@[simp] theorem raise_rx (s : State) (f : FaultBit) : (s.raise f).rx = s.rx := rfl
@[simp] theorem raise_tx (s : State) (f : FaultBit) : (s.raise f).tx = s.tx := rfl
@[simp] theorem raise_opb (s : State) (f : FaultBit) : (s.raise f).opb = s.opb := rfl
@[simp] theorem raise_res (s : State) (f : FaultBit) : (s.raise f).res = s.res := rfl
@[simp] theorem raise_cnt (s : State) (f : FaultBit) : (s.raise f).cnt = s.cnt := rfl
@[simp] theorem raise_fi (s : State) (f : FaultBit) : (s.raise f).fi = s.fi := rfl
@[simp] theorem raise_fmtLen (s : State) (f : FaultBit) : (s.raise f).fmtLen = s.fmtLen := rfl
@[simp] theorem raise_hb (s : State) (f : FaultBit) : (s.raise f).hb = s.hb := rfl
@[simp] theorem raise_ok (s : State) (f : FaultBit) : (s.raise f).ok = s.ok := rfl
@[simp] theorem raise_crp (s : State) (f : FaultBit) : (s.raise f).crp = s.crp := rfl
@[simp] theorem raise_fmtBuf (s : State) (f : FaultBit) : (s.raise f).fmtBuf = s.fmtBuf := rfl
@[simp] theorem raise_cpc (s : State) (f : FaultBit) : (s.raise f).cpc = s.cpc := rfl
@[simp] theorem raise_hpc (s : State) (f : FaultBit) : (s.raise f).hpc = s.hpc := rfl
@[simp] theorem raise_ctx (s : State) (f : FaultBit) : (s.raise f).ctx = s.ctx := rfl
@[simp] theorem raise_ret (s : State) (f : FaultBit) : (s.raise f).ret = s.ret := rfl
@[simp] theorem raise_regs (s : State) (f : FaultBit) : (s.raise f).regs = s.regs := rfl
@[simp] theorem raise_fault (s : State) (f : FaultBit) : (s.raise f).fault = s.fault ||| f.mask := rfl
@[simp] theorem raise_txLog (s : State) (f : FaultBit) : (s.raise f).txLog = s.txLog := rfl
@[simp] theorem raise_lineOut (s : State) (f : FaultBit) : (s.raise f).lineOut = s.lineOut := rfl
@[simp] theorem raise_rxLost (s : State) (f : FaultBit) : (s.raise f).rxLost = s.rxLost := rfl
@[simp] theorem raise_inited (s : State) (f : FaultBit) : (s.raise f).inited = s.inited := rfl
@[simp] theorem raise_prog (s : State) (f : FaultBit) : (s.raise f).prog = s.prog := rfl
@[simp] theorem raise_sched (s : State) (f : FaultBit) : (s.raise f).sched = s.sched := rfl
@[simp] theorem raise_draws (s : State) (f : FaultBit) : (s.raise f).draws = s.draws := rfl
@[simp] theorem raise_seed (s : State) (f : FaultBit) : (s.raise f).seed = s.seed := rfl

/-! ### `takeImm` -/

@[simp] theorem takeImm_params (b : Byte) (s : State) : (takeImm b s).params = s.params := rfl
@[simp] theorem takeImm_rx (b : Byte) (s : State) : (takeImm b s).rx = s.rx := rfl
@[simp] theorem takeImm_tx (b : Byte) (s : State) : (takeImm b s).tx = s.tx := rfl
@[simp] theorem takeImm_opb (b : Byte) (s : State) : (takeImm b s).opb = b := rfl
@[simp] theorem takeImm_res (b : Byte) (s : State) : (takeImm b s).res = s.res := rfl
@[simp] theorem takeImm_cnt (b : Byte) (s : State) : (takeImm b s).cnt = s.cnt := rfl
@[simp] theorem takeImm_fi (b : Byte) (s : State) : (takeImm b s).fi = s.fi := rfl
@[simp] theorem takeImm_fmtLen (b : Byte) (s : State) : (takeImm b s).fmtLen = s.fmtLen := rfl
@[simp] theorem takeImm_hb (b : Byte) (s : State) : (takeImm b s).hb = s.hb := rfl
@[simp] theorem takeImm_ok (b : Byte) (s : State) : (takeImm b s).ok = s.ok := rfl
@[simp] theorem takeImm_crp (b : Byte) (s : State) : (takeImm b s).crp = s.crp := rfl
@[simp] theorem takeImm_fmtBuf (b : Byte) (s : State) : (takeImm b s).fmtBuf = s.fmtBuf := rfl
@[simp] theorem takeImm_cpc (b : Byte) (s : State) : (takeImm b s).cpc = s.cpc := rfl
@[simp] theorem takeImm_hpc (b : Byte) (s : State) : (takeImm b s).hpc = s.hpc := rfl
@[simp] theorem takeImm_ctx (b : Byte) (s : State) : (takeImm b s).ctx = s.ctx := rfl
@[simp] theorem takeImm_ret (b : Byte) (s : State) : (takeImm b s).ret = s.ret := rfl
@[simp] theorem takeImm_regs (b : Byte) (s : State) : (takeImm b s).regs = s.regs := rfl
@[simp] theorem takeImm_fault (b : Byte) (s : State) : (takeImm b s).fault = s.fault := rfl
@[simp] theorem takeImm_txLog (b : Byte) (s : State) : (takeImm b s).txLog = s.txLog := rfl
@[simp] theorem takeImm_lineOut (b : Byte) (s : State) : (takeImm b s).lineOut = s.lineOut := rfl
@[simp] theorem takeImm_rxLost (b : Byte) (s : State) : (takeImm b s).rxLost = s.rxLost := rfl
@[simp] theorem takeImm_inited (b : Byte) (s : State) : (takeImm b s).inited = s.inited := rfl
@[simp] theorem takeImm_prog (b : Byte) (s : State) : (takeImm b s).prog = s.prog := rfl
@[simp] theorem takeImm_sched (b : Byte) (s : State) : (takeImm b s).sched = s.sched := rfl
@[simp] theorem takeImm_draws (b : Byte) (s : State) : (takeImm b s).draws = s.draws := rfl
@[simp] theorem takeImm_seed (b : Byte) (s : State) : (takeImm b s).seed = s.seed := rfl

/-! ### `setRxIe` -/

@[simp] theorem setRxIe_params (v : Bool) (s : State) : (setRxIe v s).params = s.params := rfl
@[simp] theorem setRxIe_rx (v : Bool) (s : State) : (setRxIe v s).rx = s.rx := rfl
@[simp] theorem setRxIe_tx (v : Bool) (s : State) : (setRxIe v s).tx = s.tx := rfl
@[simp] theorem setRxIe_opb (v : Bool) (s : State) : (setRxIe v s).opb = s.opb := rfl
@[simp] theorem setRxIe_res (v : Bool) (s : State) : (setRxIe v s).res = s.res := rfl
@[simp] theorem setRxIe_cnt (v : Bool) (s : State) : (setRxIe v s).cnt = s.cnt := rfl
@[simp] theorem setRxIe_fi (v : Bool) (s : State) : (setRxIe v s).fi = s.fi := rfl
@[simp] theorem setRxIe_fmtLen (v : Bool) (s : State) : (setRxIe v s).fmtLen = s.fmtLen := rfl
@[simp] theorem setRxIe_hb (v : Bool) (s : State) : (setRxIe v s).hb = s.hb := rfl
@[simp] theorem setRxIe_ok (v : Bool) (s : State) : (setRxIe v s).ok = s.ok := rfl
@[simp] theorem setRxIe_crp (v : Bool) (s : State) : (setRxIe v s).crp = s.crp := rfl
@[simp] theorem setRxIe_fmtBuf (v : Bool) (s : State) : (setRxIe v s).fmtBuf = s.fmtBuf := rfl
@[simp] theorem setRxIe_cpc (v : Bool) (s : State) : (setRxIe v s).cpc = s.cpc := rfl
@[simp] theorem setRxIe_hpc (v : Bool) (s : State) : (setRxIe v s).hpc = s.hpc := rfl
@[simp] theorem setRxIe_ctx (v : Bool) (s : State) : (setRxIe v s).ctx = s.ctx := rfl
@[simp] theorem setRxIe_ret (v : Bool) (s : State) : (setRxIe v s).ret = s.ret := rfl
@[simp] theorem setRxIe_regs (v : Bool) (s : State) : (setRxIe v s).regs = { s.regs with rxIe := v } := rfl
@[simp] theorem setRxIe_fault (v : Bool) (s : State) : (setRxIe v s).fault = s.fault := rfl
@[simp] theorem setRxIe_txLog (v : Bool) (s : State) : (setRxIe v s).txLog = s.txLog := rfl
@[simp] theorem setRxIe_lineOut (v : Bool) (s : State) : (setRxIe v s).lineOut = s.lineOut := rfl
@[simp] theorem setRxIe_rxLost (v : Bool) (s : State) : (setRxIe v s).rxLost = s.rxLost := rfl
@[simp] theorem setRxIe_inited (v : Bool) (s : State) : (setRxIe v s).inited = s.inited := rfl
@[simp] theorem setRxIe_prog (v : Bool) (s : State) : (setRxIe v s).prog = s.prog := rfl
@[simp] theorem setRxIe_sched (v : Bool) (s : State) : (setRxIe v s).sched = s.sched := rfl
@[simp] theorem setRxIe_draws (v : Bool) (s : State) : (setRxIe v s).draws = s.draws := rfl
@[simp] theorem setRxIe_seed (v : Bool) (s : State) : (setRxIe v s).seed = s.seed := rfl

/-! ### `setTxIe` -/

@[simp] theorem setTxIe_params (v : Bool) (s : State) : (setTxIe v s).params = s.params := rfl
@[simp] theorem setTxIe_rx (v : Bool) (s : State) : (setTxIe v s).rx = s.rx := rfl
@[simp] theorem setTxIe_tx (v : Bool) (s : State) : (setTxIe v s).tx = s.tx := rfl
@[simp] theorem setTxIe_opb (v : Bool) (s : State) : (setTxIe v s).opb = s.opb := rfl
@[simp] theorem setTxIe_res (v : Bool) (s : State) : (setTxIe v s).res = s.res := rfl
@[simp] theorem setTxIe_cnt (v : Bool) (s : State) : (setTxIe v s).cnt = s.cnt := rfl
@[simp] theorem setTxIe_fi (v : Bool) (s : State) : (setTxIe v s).fi = s.fi := rfl
@[simp] theorem setTxIe_fmtLen (v : Bool) (s : State) : (setTxIe v s).fmtLen = s.fmtLen := rfl
@[simp] theorem setTxIe_hb (v : Bool) (s : State) : (setTxIe v s).hb = s.hb := rfl
@[simp] theorem setTxIe_ok (v : Bool) (s : State) : (setTxIe v s).ok = s.ok := rfl
@[simp] theorem setTxIe_crp (v : Bool) (s : State) : (setTxIe v s).crp = s.crp := rfl
@[simp] theorem setTxIe_fmtBuf (v : Bool) (s : State) : (setTxIe v s).fmtBuf = s.fmtBuf := rfl
@[simp] theorem setTxIe_cpc (v : Bool) (s : State) : (setTxIe v s).cpc = s.cpc := rfl
@[simp] theorem setTxIe_hpc (v : Bool) (s : State) : (setTxIe v s).hpc = s.hpc := rfl
@[simp] theorem setTxIe_ctx (v : Bool) (s : State) : (setTxIe v s).ctx = s.ctx := rfl
@[simp] theorem setTxIe_ret (v : Bool) (s : State) : (setTxIe v s).ret = s.ret := rfl
@[simp] theorem setTxIe_regs (v : Bool) (s : State) : (setTxIe v s).regs = { s.regs with txIe := v } := rfl
@[simp] theorem setTxIe_fault (v : Bool) (s : State) : (setTxIe v s).fault = s.fault := rfl
@[simp] theorem setTxIe_txLog (v : Bool) (s : State) : (setTxIe v s).txLog = s.txLog := rfl
@[simp] theorem setTxIe_lineOut (v : Bool) (s : State) : (setTxIe v s).lineOut = s.lineOut := rfl
@[simp] theorem setTxIe_rxLost (v : Bool) (s : State) : (setTxIe v s).rxLost = s.rxLost := rfl
@[simp] theorem setTxIe_inited (v : Bool) (s : State) : (setTxIe v s).inited = s.inited := rfl
@[simp] theorem setTxIe_prog (v : Bool) (s : State) : (setTxIe v s).prog = s.prog := rfl
@[simp] theorem setTxIe_sched (v : Bool) (s : State) : (setTxIe v s).sched = s.sched := rfl
@[simp] theorem setTxIe_draws (v : Bool) (s : State) : (setTxIe v s).draws = s.draws := rfl
@[simp] theorem setTxIe_seed (v : Bool) (s : State) : (setTxIe v s).seed = s.seed := rfl

/-! ### `setLine` -/

@[simp] theorem setLine_params (v : Bool) (s : State) : (setLine v s).params = s.params := rfl
@[simp] theorem setLine_rx (v : Bool) (s : State) : (setLine v s).rx = s.rx := rfl
@[simp] theorem setLine_tx (v : Bool) (s : State) : (setLine v s).tx = s.tx := rfl
@[simp] theorem setLine_opb (v : Bool) (s : State) : (setLine v s).opb = s.opb := rfl
@[simp] theorem setLine_res (v : Bool) (s : State) : (setLine v s).res = s.res := rfl
@[simp] theorem setLine_cnt (v : Bool) (s : State) : (setLine v s).cnt = s.cnt := rfl
@[simp] theorem setLine_fi (v : Bool) (s : State) : (setLine v s).fi = s.fi := rfl
@[simp] theorem setLine_fmtLen (v : Bool) (s : State) : (setLine v s).fmtLen = s.fmtLen := rfl
@[simp] theorem setLine_hb (v : Bool) (s : State) : (setLine v s).hb = s.hb := rfl
@[simp] theorem setLine_ok (v : Bool) (s : State) : (setLine v s).ok = s.ok := rfl
@[simp] theorem setLine_crp (v : Bool) (s : State) : (setLine v s).crp = s.crp := rfl
@[simp] theorem setLine_fmtBuf (v : Bool) (s : State) : (setLine v s).fmtBuf = s.fmtBuf := rfl
@[simp] theorem setLine_cpc (v : Bool) (s : State) : (setLine v s).cpc = s.cpc := rfl
@[simp] theorem setLine_hpc (v : Bool) (s : State) : (setLine v s).hpc = s.hpc := rfl
@[simp] theorem setLine_ctx (v : Bool) (s : State) : (setLine v s).ctx = s.ctx := rfl
@[simp] theorem setLine_ret (v : Bool) (s : State) : (setLine v s).ret = s.ret := rfl
@[simp] theorem setLine_regs (v : Bool) (s : State) : (setLine v s).regs = { s.regs with lineEn := v } := rfl
@[simp] theorem setLine_fault (v : Bool) (s : State) : (setLine v s).fault = s.fault := rfl
@[simp] theorem setLine_txLog (v : Bool) (s : State) : (setLine v s).txLog = s.txLog := rfl
@[simp] theorem setLine_lineOut (v : Bool) (s : State) : (setLine v s).lineOut = s.lineOut := rfl
@[simp] theorem setLine_rxLost (v : Bool) (s : State) : (setLine v s).rxLost = s.rxLost := rfl
@[simp] theorem setLine_inited (v : Bool) (s : State) : (setLine v s).inited = s.inited := rfl
@[simp] theorem setLine_prog (v : Bool) (s : State) : (setLine v s).prog = s.prog := rfl
@[simp] theorem setLine_sched (v : Bool) (s : State) : (setLine v s).sched = s.sched := rfl
@[simp] theorem setLine_draws (v : Bool) (s : State) : (setLine v s).draws = s.draws := rfl
@[simp] theorem setLine_seed (v : Bool) (s : State) : (setLine v s).seed = s.seed := rfl

/-! ### `enterHandler` -/

@[simp] theorem enterHandler_params (q : HState) (s : State) : (enterHandler q s).params = s.params := rfl
@[simp] theorem enterHandler_rx (q : HState) (s : State) : (enterHandler q s).rx = s.rx := rfl
@[simp] theorem enterHandler_tx (q : HState) (s : State) : (enterHandler q s).tx = s.tx := rfl
@[simp] theorem enterHandler_opb (q : HState) (s : State) : (enterHandler q s).opb = s.opb := rfl
@[simp] theorem enterHandler_res (q : HState) (s : State) : (enterHandler q s).res = s.res := rfl
@[simp] theorem enterHandler_cnt (q : HState) (s : State) : (enterHandler q s).cnt = s.cnt := rfl
@[simp] theorem enterHandler_fi (q : HState) (s : State) : (enterHandler q s).fi = s.fi := rfl
@[simp] theorem enterHandler_fmtLen (q : HState) (s : State) : (enterHandler q s).fmtLen = s.fmtLen := rfl
@[simp] theorem enterHandler_hb (q : HState) (s : State) : (enterHandler q s).hb = s.hb := rfl
@[simp] theorem enterHandler_ok (q : HState) (s : State) : (enterHandler q s).ok = s.ok := rfl
@[simp] theorem enterHandler_crp (q : HState) (s : State) : (enterHandler q s).crp = s.crp := rfl
@[simp] theorem enterHandler_fmtBuf (q : HState) (s : State) : (enterHandler q s).fmtBuf = s.fmtBuf := rfl
@[simp] theorem enterHandler_cpc (q : HState) (s : State) : (enterHandler q s).cpc = s.cpc := rfl
@[simp] theorem enterHandler_hpc (q : HState) (s : State) : (enterHandler q s).hpc = q := rfl
@[simp] theorem enterHandler_ctx (q : HState) (s : State) : (enterHandler q s).ctx = .handler := rfl
@[simp] theorem enterHandler_ret (q : HState) (s : State) : (enterHandler q s).ret = s.ret := rfl
@[simp] theorem enterHandler_regs (q : HState) (s : State) : (enterHandler q s).regs = s.regs := rfl
@[simp] theorem enterHandler_fault (q : HState) (s : State) : (enterHandler q s).fault = s.fault := rfl
@[simp] theorem enterHandler_txLog (q : HState) (s : State) : (enterHandler q s).txLog = s.txLog := rfl
@[simp] theorem enterHandler_lineOut (q : HState) (s : State) : (enterHandler q s).lineOut = s.lineOut := rfl
@[simp] theorem enterHandler_rxLost (q : HState) (s : State) : (enterHandler q s).rxLost = s.rxLost := rfl
@[simp] theorem enterHandler_inited (q : HState) (s : State) : (enterHandler q s).inited = s.inited := rfl
@[simp] theorem enterHandler_prog (q : HState) (s : State) : (enterHandler q s).prog = s.prog := rfl
@[simp] theorem enterHandler_sched (q : HState) (s : State) : (enterHandler q s).sched = s.sched := rfl
@[simp] theorem enterHandler_draws (q : HState) (s : State) : (enterHandler q s).draws = s.draws := rfl
@[simp] theorem enterHandler_seed (q : HState) (s : State) : (enterHandler q s).seed = s.seed := rfl

/-! ### `leaveHandler` -/

@[simp] theorem leaveHandler_params (s : State) : (leaveHandler s).params = s.params := rfl
@[simp] theorem leaveHandler_rx (s : State) : (leaveHandler s).rx = s.rx := rfl
@[simp] theorem leaveHandler_tx (s : State) : (leaveHandler s).tx = s.tx := rfl
@[simp] theorem leaveHandler_opb (s : State) : (leaveHandler s).opb = s.opb := rfl
@[simp] theorem leaveHandler_res (s : State) : (leaveHandler s).res = s.res := rfl
@[simp] theorem leaveHandler_cnt (s : State) : (leaveHandler s).cnt = s.cnt := rfl
@[simp] theorem leaveHandler_fi (s : State) : (leaveHandler s).fi = s.fi := rfl
@[simp] theorem leaveHandler_fmtLen (s : State) : (leaveHandler s).fmtLen = s.fmtLen := rfl
@[simp] theorem leaveHandler_hb (s : State) : (leaveHandler s).hb = s.hb := rfl
@[simp] theorem leaveHandler_ok (s : State) : (leaveHandler s).ok = s.ok := rfl
@[simp] theorem leaveHandler_crp (s : State) : (leaveHandler s).crp = s.crp := rfl
@[simp] theorem leaveHandler_fmtBuf (s : State) : (leaveHandler s).fmtBuf = s.fmtBuf := rfl
@[simp] theorem leaveHandler_cpc (s : State) : (leaveHandler s).cpc = s.cpc := rfl
@[simp] theorem leaveHandler_hpc (s : State) : (leaveHandler s).hpc = .none := rfl
@[simp] theorem leaveHandler_ctx (s : State) : (leaveHandler s).ctx = .caller := rfl
@[simp] theorem leaveHandler_ret (s : State) : (leaveHandler s).ret = s.ret := rfl
@[simp] theorem leaveHandler_regs (s : State) : (leaveHandler s).regs = s.regs := rfl
@[simp] theorem leaveHandler_fault (s : State) : (leaveHandler s).fault = s.fault := rfl
@[simp] theorem leaveHandler_txLog (s : State) : (leaveHandler s).txLog = s.txLog := rfl
@[simp] theorem leaveHandler_lineOut (s : State) : (leaveHandler s).lineOut = s.lineOut := rfl
@[simp] theorem leaveHandler_rxLost (s : State) : (leaveHandler s).rxLost = s.rxLost := rfl
@[simp] theorem leaveHandler_inited (s : State) : (leaveHandler s).inited = s.inited := rfl
@[simp] theorem leaveHandler_prog (s : State) : (leaveHandler s).prog = s.prog := rfl
@[simp] theorem leaveHandler_sched (s : State) : (leaveHandler s).sched = s.sched := rfl
@[simp] theorem leaveHandler_draws (s : State) : (leaveHandler s).draws = s.draws := rfl
@[simp] theorem leaveHandler_seed (s : State) : (leaveHandler s).seed = s.seed := rfl

/-! ### `resetStep` -/

@[simp] theorem resetStep_params (s : State) : (resetStep s).params = s.params := rfl
@[simp] theorem resetStep_rx (s : State) : (resetStep s).rx = Ring.zero := rfl
@[simp] theorem resetStep_tx (s : State) : (resetStep s).tx = Ring.zero := rfl
@[simp] theorem resetStep_fmtLen (s : State) : (resetStep s).fmtLen = 0 := rfl
@[simp] theorem resetStep_fmtBuf (s : State) : (resetStep s).fmtBuf = [] := rfl
@[simp] theorem resetStep_cpc (s : State) : (resetStep s).cpc = .idle := rfl
@[simp] theorem resetStep_hpc (s : State) : (resetStep s).hpc = .none := rfl
@[simp] theorem resetStep_ctx (s : State) : (resetStep s).ctx = .caller := rfl
@[simp] theorem resetStep_ret (s : State) : (resetStep s).ret = .done := rfl
@[simp] theorem resetStep_fault (s : State) : (resetStep s).fault = 0 := rfl
@[simp] theorem resetStep_txLog (s : State) : (resetStep s).txLog = [] := rfl
@[simp] theorem resetStep_lineOut (s : State) : (resetStep s).lineOut = [] := rfl
@[simp] theorem resetStep_rxLost (s : State) : (resetStep s).rxLost = 0 := rfl
@[simp] theorem resetStep_inited (s : State) : (resetStep s).inited = false := rfl
@[simp] theorem resetStep_prog (s : State) : (resetStep s).prog = s.prog := rfl
@[simp] theorem resetStep_sched (s : State) : (resetStep s).sched = s.sched := rfl
@[simp] theorem resetStep_draws (s : State) : (resetStep s).draws = s.draws + 1 := rfl
@[simp] theorem resetStep_seed (s : State) : (resetStep s).seed = s.seed + 1 := rfl

/-! ### `regWrite` -/

@[simp] theorem regWrite_params (c : CfgWrite) (s : State) : (regWrite c s).params = s.params := by
  cases c <;> first | rfl | (rename_i p v; cases p <;> rfl)
@[simp] theorem regWrite_rx (c : CfgWrite) (s : State) : (regWrite c s).rx = s.rx := by
  cases c <;> first | rfl | (rename_i p v; cases p <;> rfl)
@[simp] theorem regWrite_tx (c : CfgWrite) (s : State) : (regWrite c s).tx = s.tx := by
  cases c <;> first | rfl | (rename_i p v; cases p <;> rfl)
@[simp] theorem regWrite_opb (c : CfgWrite) (s : State) : (regWrite c s).opb = s.opb := by
  cases c <;> first | rfl | (rename_i p v; cases p <;> rfl)
@[simp] theorem regWrite_res (c : CfgWrite) (s : State) : (regWrite c s).res = s.res := by
  cases c <;> first | rfl | (rename_i p v; cases p <;> rfl)
@[simp] theorem regWrite_cnt (c : CfgWrite) (s : State) : (regWrite c s).cnt = s.cnt := by
  cases c <;> first | rfl | (rename_i p v; cases p <;> rfl)
@[simp] theorem regWrite_fi (c : CfgWrite) (s : State) : (regWrite c s).fi = s.fi := by
  cases c <;> first | rfl | (rename_i p v; cases p <;> rfl)
@[simp] theorem regWrite_fmtLen (c : CfgWrite) (s : State) : (regWrite c s).fmtLen = s.fmtLen := by
  cases c <;> first | rfl | (rename_i p v; cases p <;> rfl)
@[simp] theorem regWrite_hb (c : CfgWrite) (s : State) : (regWrite c s).hb = s.hb := by
  cases c <;> first | rfl | (rename_i p v; cases p <;> rfl)
@[simp] theorem regWrite_ok (c : CfgWrite) (s : State) : (regWrite c s).ok = s.ok := by
  cases c <;> first | rfl | (rename_i p v; cases p <;> rfl)
@[simp] theorem regWrite_crp (c : CfgWrite) (s : State) : (regWrite c s).crp = s.crp := by
  cases c <;> first | rfl | (rename_i p v; cases p <;> rfl)
@[simp] theorem regWrite_fmtBuf (c : CfgWrite) (s : State) : (regWrite c s).fmtBuf = s.fmtBuf := by
  cases c <;> first | rfl | (rename_i p v; cases p <;> rfl)
@[simp] theorem regWrite_cpc (c : CfgWrite) (s : State) : (regWrite c s).cpc = s.cpc := by
  cases c <;> first | rfl | (rename_i p v; cases p <;> rfl)
@[simp] theorem regWrite_hpc (c : CfgWrite) (s : State) : (regWrite c s).hpc = s.hpc := by
  cases c <;> first | rfl | (rename_i p v; cases p <;> rfl)
@[simp] theorem regWrite_ctx (c : CfgWrite) (s : State) : (regWrite c s).ctx = s.ctx := by
  cases c <;> first | rfl | (rename_i p v; cases p <;> rfl)
@[simp] theorem regWrite_ret (c : CfgWrite) (s : State) : (regWrite c s).ret = s.ret := by
  cases c <;> first | rfl | (rename_i p v; cases p <;> rfl)
@[simp] theorem regWrite_fault (c : CfgWrite) (s : State) : (regWrite c s).fault = s.fault := by
  cases c <;> first | rfl | (rename_i p v; cases p <;> rfl)
@[simp] theorem regWrite_txLog (c : CfgWrite) (s : State) : (regWrite c s).txLog = s.txLog := by
  cases c <;> first | rfl | (rename_i p v; cases p <;> rfl)
@[simp] theorem regWrite_lineOut (c : CfgWrite) (s : State) : (regWrite c s).lineOut = s.lineOut := by
  cases c <;> first | rfl | (rename_i p v; cases p <;> rfl)
@[simp] theorem regWrite_rxLost (c : CfgWrite) (s : State) : (regWrite c s).rxLost = s.rxLost := by
  cases c <;> first | rfl | (rename_i p v; cases p <;> rfl)
@[simp] theorem regWrite_inited (c : CfgWrite) (s : State) : (regWrite c s).inited = s.inited := by
  cases c <;> first | rfl | (rename_i p v; cases p <;> rfl)
@[simp] theorem regWrite_prog (c : CfgWrite) (s : State) : (regWrite c s).prog = s.prog := by
  cases c <;> first | rfl | (rename_i p v; cases p <;> rfl)
@[simp] theorem regWrite_sched (c : CfgWrite) (s : State) : (regWrite c s).sched = s.sched := by
  cases c <;> first | rfl | (rename_i p v; cases p <;> rfl)
@[simp] theorem regWrite_draws (c : CfgWrite) (s : State) : (regWrite c s).draws = s.draws := by
  cases c <;> first | rfl | (rename_i p v; cases p <;> rfl)
@[simp] theorem regWrite_seed (c : CfgWrite) (s : State) : (regWrite c s).seed = s.seed := by
  cases c <;> first | rfl | (rename_i p v; cases p <;> rfl)

/-! ### `dataWrite` -/

@[simp] theorem dataWrite_params (v : Byte) (s : State) : (dataWrite v s).params = s.params := by
  unfold dataWrite; split <;> rfl
@[simp] theorem dataWrite_rx (v : Byte) (s : State) : (dataWrite v s).rx = s.rx := by
  unfold dataWrite; split <;> rfl
@[simp] theorem dataWrite_tx (v : Byte) (s : State) : (dataWrite v s).tx = s.tx := by
  unfold dataWrite; split <;> rfl
@[simp] theorem dataWrite_opb (v : Byte) (s : State) : (dataWrite v s).opb = s.opb := by
  unfold dataWrite; split <;> rfl
@[simp] theorem dataWrite_res (v : Byte) (s : State) : (dataWrite v s).res = s.res := by
  unfold dataWrite; split <;> rfl
@[simp] theorem dataWrite_cnt (v : Byte) (s : State) : (dataWrite v s).cnt = s.cnt := by
  unfold dataWrite; split <;> rfl
@[simp] theorem dataWrite_fi (v : Byte) (s : State) : (dataWrite v s).fi = s.fi := by
  unfold dataWrite; split <;> rfl
@[simp] theorem dataWrite_fmtLen (v : Byte) (s : State) : (dataWrite v s).fmtLen = s.fmtLen := by
  unfold dataWrite; split <;> rfl
@[simp] theorem dataWrite_hb (v : Byte) (s : State) : (dataWrite v s).hb = s.hb := by
  unfold dataWrite; split <;> rfl
@[simp] theorem dataWrite_ok (v : Byte) (s : State) : (dataWrite v s).ok = s.ok := by
  unfold dataWrite; split <;> rfl
@[simp] theorem dataWrite_crp (v : Byte) (s : State) : (dataWrite v s).crp = s.crp := by
  unfold dataWrite; split <;> rfl
@[simp] theorem dataWrite_fmtBuf (v : Byte) (s : State) : (dataWrite v s).fmtBuf = s.fmtBuf := by
  unfold dataWrite; split <;> rfl
@[simp] theorem dataWrite_cpc (v : Byte) (s : State) : (dataWrite v s).cpc = s.cpc := by
  unfold dataWrite; split <;> rfl
@[simp] theorem dataWrite_hpc (v : Byte) (s : State) : (dataWrite v s).hpc = s.hpc := by
  unfold dataWrite; split <;> rfl
@[simp] theorem dataWrite_ctx (v : Byte) (s : State) : (dataWrite v s).ctx = s.ctx := by
  unfold dataWrite; split <;> rfl
@[simp] theorem dataWrite_ret (v : Byte) (s : State) : (dataWrite v s).ret = s.ret := by
  unfold dataWrite; split <;> rfl
@[simp] theorem dataWrite_lineOut (v : Byte) (s : State) : (dataWrite v s).lineOut = s.lineOut := by
  unfold dataWrite; split <;> rfl
@[simp] theorem dataWrite_rxLost (v : Byte) (s : State) : (dataWrite v s).rxLost = s.rxLost := by
  unfold dataWrite; split <;> rfl
@[simp] theorem dataWrite_inited (v : Byte) (s : State) : (dataWrite v s).inited = s.inited := by
  unfold dataWrite; split <;> rfl
@[simp] theorem dataWrite_prog (v : Byte) (s : State) : (dataWrite v s).prog = s.prog := by
  unfold dataWrite; split <;> rfl
@[simp] theorem dataWrite_sched (v : Byte) (s : State) : (dataWrite v s).sched = s.sched := by
  unfold dataWrite; split <;> rfl
@[simp] theorem dataWrite_draws (v : Byte) (s : State) : (dataWrite v s).draws = s.draws := by
  unfold dataWrite; split <;> rfl
@[simp] theorem dataWrite_seed (v : Byte) (s : State) : (dataWrite v s).seed = s.seed := by
  unfold dataWrite; split <;> rfl

/-! ### `dataRead` -/

@[simp] theorem dataRead_params (s : State) : (dataRead s).2.params = s.params := by
  unfold dataRead; split <;> rfl
@[simp] theorem dataRead_rx (s : State) : (dataRead s).2.rx = s.rx := by
  unfold dataRead; split <;> rfl
@[simp] theorem dataRead_tx (s : State) : (dataRead s).2.tx = s.tx := by
  unfold dataRead; split <;> rfl
@[simp] theorem dataRead_opb (s : State) : (dataRead s).2.opb = s.opb := by
  unfold dataRead; split <;> rfl
@[simp] theorem dataRead_res (s : State) : (dataRead s).2.res = s.res := by
  unfold dataRead; split <;> rfl
@[simp] theorem dataRead_cnt (s : State) : (dataRead s).2.cnt = s.cnt := by
  unfold dataRead; split <;> rfl
@[simp] theorem dataRead_fi (s : State) : (dataRead s).2.fi = s.fi := by
  unfold dataRead; split <;> rfl
@[simp] theorem dataRead_fmtLen (s : State) : (dataRead s).2.fmtLen = s.fmtLen := by
  unfold dataRead; split <;> rfl
@[simp] theorem dataRead_hb (s : State) : (dataRead s).2.hb = s.hb := by
  unfold dataRead; split <;> rfl
@[simp] theorem dataRead_ok (s : State) : (dataRead s).2.ok = s.ok := by
  unfold dataRead; split <;> rfl
@[simp] theorem dataRead_crp (s : State) : (dataRead s).2.crp = s.crp := by
  unfold dataRead; split <;> rfl
@[simp] theorem dataRead_fmtBuf (s : State) : (dataRead s).2.fmtBuf = s.fmtBuf := by
  unfold dataRead; split <;> rfl
@[simp] theorem dataRead_cpc (s : State) : (dataRead s).2.cpc = s.cpc := by
  unfold dataRead; split <;> rfl
@[simp] theorem dataRead_hpc (s : State) : (dataRead s).2.hpc = s.hpc := by
  unfold dataRead; split <;> rfl
@[simp] theorem dataRead_ctx (s : State) : (dataRead s).2.ctx = s.ctx := by
  unfold dataRead; split <;> rfl
@[simp] theorem dataRead_ret (s : State) : (dataRead s).2.ret = s.ret := by
  unfold dataRead; split <;> rfl
@[simp] theorem dataRead_txLog (s : State) : (dataRead s).2.txLog = s.txLog := by
  unfold dataRead; split <;> rfl
@[simp] theorem dataRead_lineOut (s : State) : (dataRead s).2.lineOut = s.lineOut := by
  unfold dataRead; split <;> rfl
@[simp] theorem dataRead_rxLost (s : State) : (dataRead s).2.rxLost = s.rxLost := by
  unfold dataRead; split <;> rfl
@[simp] theorem dataRead_inited (s : State) : (dataRead s).2.inited = s.inited := by
  unfold dataRead; split <;> rfl
@[simp] theorem dataRead_prog (s : State) : (dataRead s).2.prog = s.prog := by
  unfold dataRead; split <;> rfl
@[simp] theorem dataRead_sched (s : State) : (dataRead s).2.sched = s.sched := by
  unfold dataRead; split <;> rfl
@[simp] theorem dataRead_seed (s : State) : (dataRead s).2.seed = s.seed := by
  unfold dataRead; split <;> rfl

/-! ### `putByte` -/

@[simp] theorem putByte_params (s : State) (p : Space) (i : Nat) (v : Byte) : (s.putByte p i v).params = s.params := by
  cases p <;> rfl
@[simp] theorem putByte_opb (s : State) (p : Space) (i : Nat) (v : Byte) : (s.putByte p i v).opb = s.opb := by
  cases p <;> rfl
@[simp] theorem putByte_res (s : State) (p : Space) (i : Nat) (v : Byte) : (s.putByte p i v).res = s.res := by
  cases p <;> rfl
@[simp] theorem putByte_cnt (s : State) (p : Space) (i : Nat) (v : Byte) : (s.putByte p i v).cnt = s.cnt := by
  cases p <;> rfl
@[simp] theorem putByte_fi (s : State) (p : Space) (i : Nat) (v : Byte) : (s.putByte p i v).fi = s.fi := by
  cases p <;> rfl
@[simp] theorem putByte_fmtLen (s : State) (p : Space) (i : Nat) (v : Byte) : (s.putByte p i v).fmtLen = s.fmtLen := by
  cases p <;> rfl
@[simp] theorem putByte_hb (s : State) (p : Space) (i : Nat) (v : Byte) : (s.putByte p i v).hb = s.hb := by
  cases p <;> rfl
@[simp] theorem putByte_ok (s : State) (p : Space) (i : Nat) (v : Byte) : (s.putByte p i v).ok = s.ok := by
  cases p <;> rfl
@[simp] theorem putByte_crp (s : State) (p : Space) (i : Nat) (v : Byte) : (s.putByte p i v).crp = s.crp := by
  cases p <;> rfl
@[simp] theorem putByte_cpc (s : State) (p : Space) (i : Nat) (v : Byte) : (s.putByte p i v).cpc = s.cpc := by
  cases p <;> rfl
@[simp] theorem putByte_hpc (s : State) (p : Space) (i : Nat) (v : Byte) : (s.putByte p i v).hpc = s.hpc := by
  cases p <;> rfl
@[simp] theorem putByte_ctx (s : State) (p : Space) (i : Nat) (v : Byte) : (s.putByte p i v).ctx = s.ctx := by
  cases p <;> rfl
@[simp] theorem putByte_ret (s : State) (p : Space) (i : Nat) (v : Byte) : (s.putByte p i v).ret = s.ret := by
  cases p <;> rfl
@[simp] theorem putByte_regs (s : State) (p : Space) (i : Nat) (v : Byte) : (s.putByte p i v).regs = s.regs := by
  cases p <;> rfl
@[simp] theorem putByte_fault (s : State) (p : Space) (i : Nat) (v : Byte) : (s.putByte p i v).fault = s.fault := by
  cases p <;> rfl
@[simp] theorem putByte_txLog (s : State) (p : Space) (i : Nat) (v : Byte) : (s.putByte p i v).txLog = s.txLog := by
  cases p <;> rfl
@[simp] theorem putByte_lineOut (s : State) (p : Space) (i : Nat) (v : Byte) : (s.putByte p i v).lineOut = s.lineOut := by
  cases p <;> rfl
@[simp] theorem putByte_rxLost (s : State) (p : Space) (i : Nat) (v : Byte) : (s.putByte p i v).rxLost = s.rxLost := by
  cases p <;> rfl
@[simp] theorem putByte_inited (s : State) (p : Space) (i : Nat) (v : Byte) : (s.putByte p i v).inited = s.inited := by
  cases p <;> rfl
@[simp] theorem putByte_prog (s : State) (p : Space) (i : Nat) (v : Byte) : (s.putByte p i v).prog = s.prog := by
  cases p <;> rfl
@[simp] theorem putByte_sched (s : State) (p : Space) (i : Nat) (v : Byte) : (s.putByte p i v).sched = s.sched := by
  cases p <;> rfl
@[simp] theorem putByte_draws (s : State) (p : Space) (i : Nat) (v : Byte) : (s.putByte p i v).draws = s.draws := by
  cases p <;> rfl
@[simp] theorem putByte_seed (s : State) (p : Space) (i : Nat) (v : Byte) : (s.putByte p i v).seed = s.seed := by
  cases p <;> rfl

/-! ### `advanceWr` -/

@[simp] theorem advanceWr_params (r : RingId) (s : State) : (advanceWr r s).params = s.params := by
  cases r <;> rfl
@[simp] theorem advanceWr_opb (r : RingId) (s : State) : (advanceWr r s).opb = s.opb := by
  cases r <;> rfl
@[simp] theorem advanceWr_res (r : RingId) (s : State) : (advanceWr r s).res = s.res := by
  cases r <;> rfl
@[simp] theorem advanceWr_cnt (r : RingId) (s : State) : (advanceWr r s).cnt = s.cnt := by
  cases r <;> rfl
@[simp] theorem advanceWr_fi (r : RingId) (s : State) : (advanceWr r s).fi = s.fi := by
  cases r <;> rfl
@[simp] theorem advanceWr_fmtLen (r : RingId) (s : State) : (advanceWr r s).fmtLen = s.fmtLen := by
  cases r <;> rfl
@[simp] theorem advanceWr_hb (r : RingId) (s : State) : (advanceWr r s).hb = s.hb := by
  cases r <;> rfl
@[simp] theorem advanceWr_ok (r : RingId) (s : State) : (advanceWr r s).ok = s.ok := by
  cases r <;> rfl
@[simp] theorem advanceWr_crp (r : RingId) (s : State) : (advanceWr r s).crp = s.crp := by
  cases r <;> rfl
@[simp] theorem advanceWr_fmtBuf (r : RingId) (s : State) : (advanceWr r s).fmtBuf = s.fmtBuf := by
  cases r <;> rfl
@[simp] theorem advanceWr_cpc (r : RingId) (s : State) : (advanceWr r s).cpc = s.cpc := by
  cases r <;> rfl
@[simp] theorem advanceWr_hpc (r : RingId) (s : State) : (advanceWr r s).hpc = s.hpc := by
  cases r <;> rfl
@[simp] theorem advanceWr_ctx (r : RingId) (s : State) : (advanceWr r s).ctx = s.ctx := by
  cases r <;> rfl
@[simp] theorem advanceWr_ret (r : RingId) (s : State) : (advanceWr r s).ret = s.ret := by
  cases r <;> rfl
@[simp] theorem advanceWr_regs (r : RingId) (s : State) : (advanceWr r s).regs = s.regs := by
  cases r <;> rfl
@[simp] theorem advanceWr_fault (r : RingId) (s : State) : (advanceWr r s).fault = s.fault := by
  cases r <;> rfl
@[simp] theorem advanceWr_txLog (r : RingId) (s : State) : (advanceWr r s).txLog = s.txLog := by
  cases r <;> rfl
@[simp] theorem advanceWr_lineOut (r : RingId) (s : State) : (advanceWr r s).lineOut = s.lineOut := by
  cases r <;> rfl
@[simp] theorem advanceWr_rxLost (r : RingId) (s : State) : (advanceWr r s).rxLost = s.rxLost := by
  cases r <;> rfl
@[simp] theorem advanceWr_inited (r : RingId) (s : State) : (advanceWr r s).inited = s.inited := by
  cases r <;> rfl
@[simp] theorem advanceWr_prog (r : RingId) (s : State) : (advanceWr r s).prog = s.prog := by
  cases r <;> rfl
@[simp] theorem advanceWr_sched (r : RingId) (s : State) : (advanceWr r s).sched = s.sched := by
  cases r <;> rfl
@[simp] theorem advanceWr_draws (r : RingId) (s : State) : (advanceWr r s).draws = s.draws := by
  cases r <;> rfl
@[simp] theorem advanceWr_seed (r : RingId) (s : State) : (advanceWr r s).seed = s.seed := by
  cases r <;> rfl

/-! ### `advanceRd` -/

@[simp] theorem advanceRd_params (r : RingId) (s : State) : (advanceRd r s).params = s.params := by
  cases r <;> rfl
@[simp] theorem advanceRd_opb (r : RingId) (s : State) : (advanceRd r s).opb = s.opb := by
  cases r <;> rfl
@[simp] theorem advanceRd_res (r : RingId) (s : State) : (advanceRd r s).res = s.res := by
  cases r <;> rfl
@[simp] theorem advanceRd_cnt (r : RingId) (s : State) : (advanceRd r s).cnt = s.cnt := by
  cases r <;> rfl
@[simp] theorem advanceRd_fi (r : RingId) (s : State) : (advanceRd r s).fi = s.fi := by
  cases r <;> rfl
@[simp] theorem advanceRd_fmtLen (r : RingId) (s : State) : (advanceRd r s).fmtLen = s.fmtLen := by
  cases r <;> rfl
@[simp] theorem advanceRd_hb (r : RingId) (s : State) : (advanceRd r s).hb = s.hb := by
  cases r <;> rfl
@[simp] theorem advanceRd_ok (r : RingId) (s : State) : (advanceRd r s).ok = s.ok := by
  cases r <;> rfl
@[simp] theorem advanceRd_crp (r : RingId) (s : State) : (advanceRd r s).crp = s.crp := by
  cases r <;> rfl
@[simp] theorem advanceRd_fmtBuf (r : RingId) (s : State) : (advanceRd r s).fmtBuf = s.fmtBuf := by
  cases r <;> rfl
@[simp] theorem advanceRd_cpc (r : RingId) (s : State) : (advanceRd r s).cpc = s.cpc := by
  cases r <;> rfl
@[simp] theorem advanceRd_hpc (r : RingId) (s : State) : (advanceRd r s).hpc = s.hpc := by
  cases r <;> rfl
@[simp] theorem advanceRd_ctx (r : RingId) (s : State) : (advanceRd r s).ctx = s.ctx := by
  cases r <;> rfl
@[simp] theorem advanceRd_ret (r : RingId) (s : State) : (advanceRd r s).ret = s.ret := by
  cases r <;> rfl
@[simp] theorem advanceRd_regs (r : RingId) (s : State) : (advanceRd r s).regs = s.regs := by
  cases r <;> rfl
@[simp] theorem advanceRd_fault (r : RingId) (s : State) : (advanceRd r s).fault = s.fault := by
  cases r <;> rfl
@[simp] theorem advanceRd_txLog (r : RingId) (s : State) : (advanceRd r s).txLog = s.txLog := by
  cases r <;> rfl
@[simp] theorem advanceRd_lineOut (r : RingId) (s : State) : (advanceRd r s).lineOut = s.lineOut := by
  cases r <;> rfl
@[simp] theorem advanceRd_rxLost (r : RingId) (s : State) : (advanceRd r s).rxLost = s.rxLost := by
  cases r <;> rfl
@[simp] theorem advanceRd_inited (r : RingId) (s : State) : (advanceRd r s).inited = s.inited := by
  cases r <;> rfl
@[simp] theorem advanceRd_prog (r : RingId) (s : State) : (advanceRd r s).prog = s.prog := by
  cases r <;> rfl
@[simp] theorem advanceRd_sched (r : RingId) (s : State) : (advanceRd r s).sched = s.sched := by
  cases r <;> rfl
@[simp] theorem advanceRd_draws (r : RingId) (s : State) : (advanceRd r s).draws = s.draws := by
  cases r <;> rfl
@[simp] theorem advanceRd_seed (r : RingId) (s : State) : (advanceRd r s).seed = s.seed := by
  cases r <;> rfl

/-! ### The changed fields, rings and spaces -/

@[simp] theorem dataWrite_regs (v : Byte) (s : State) :
    (dataWrite v s).regs = { s.regs with txHold := v, txReady := false } := by
  unfold dataWrite; split <;> rfl
@[simp] theorem dataWrite_txLog (v : Byte) (s : State) : (dataWrite v s).txLog = s.txLog ++ [v] := by
  unfold dataWrite; split <;> rfl
theorem dataWrite_fault (v : Byte) (s : State) :
    (dataWrite v s).fault = if s.regs.txReady then s.fault else s.fault ||| FaultBit.txovr.mask := by
  unfold dataWrite; split <;> rfl
@[simp] theorem dataRead_regs (s : State) : (dataRead s).2.regs = { s.regs with rxReady := false } := by
  unfold dataRead
  split
  · rfl
  · next h =>
    obtain ⟨r⟩ : ∃ r, r = s.regs := ⟨_, rfl⟩
    simp only [raise_regs]
    cases hr : s.regs
    simp_all
theorem dataRead_fault (s : State) :
    (dataRead s).2.fault = if s.regs.rxReady then s.fault else s.fault ||| FaultBit.rxund.mask := by
  unfold dataRead; split <;> rfl
theorem dataRead_ready (s : State) (h : s.regs.rxReady = true) : (dataRead s).1 = s.regs.rxHold := by
  unfold dataRead; simp [h]
@[simp] theorem putByte_rxm (s : State) (i : Nat) (v : Byte) :
    s.putByte .rxm i v = { s with rx := { s.rx with mem := Memory.setZ s.rx.mem i v } } := rfl
@[simp] theorem putByte_txm (s : State) (i : Nat) (v : Byte) :
    s.putByte .txm i v = { s with tx := { s.tx with mem := Memory.setZ s.tx.mem i v } } := rfl
@[simp] theorem putByte_fmt (s : State) (i : Nat) (v : Byte) :
    s.putByte .fmt i v = { s with fmtBuf := Memory.set s.fmtBuf i v } := rfl
@[simp] theorem advanceWr_rx (s : State) : advanceWr .rx s = { s with rx := s.rx.advanceWr s.N } := rfl
@[simp] theorem advanceWr_tx (s : State) : advanceWr .tx s = { s with tx := s.tx.advanceWr s.N } := rfl
@[simp] theorem advanceRd_rx (s : State) : advanceRd .rx s = { s with rx := s.rx.advanceRd s.N } := rfl
@[simp] theorem advanceRd_tx (s : State) : advanceRd .tx s = { s with tx := s.tx.advanceRd s.N } := rfl
@[simp] theorem ring_rx (s : State) : s.ring .rx = s.rx := rfl
@[simp] theorem ring_tx (s : State) : s.ring .tx = s.tx := rfl
@[simp] theorem ringSpace_rx : ringSpace .rx = .rxm := rfl
@[simp] theorem ringSpace_tx : ringSpace .tx = .txm := rfl
@[simp] theorem byteAt_rxm (s : State) (i : Nat) : s.byteAt .rxm i = Memory.getZ s.rx.mem i := rfl
@[simp] theorem byteAt_txm (s : State) (i : Nat) : s.byteAt .txm i = Memory.getZ s.tx.mem i := rfl
@[simp] theorem size_rxm (p : Params) : Space.rxm.size p = p.N := rfl
@[simp] theorem size_txm (p : Params) : Space.txm.size p = p.N := rfl
@[simp] theorem size_fmt (p : Params) : Space.fmt.size p = p.N := rfl
@[simp] theorem params_fmtMax (p : Params) : p.fmtMax = p.N := rfl
@[simp] theorem Ring.advanceWr_wr (n : Nat) (x : Ring) : (x.advanceWr n).wr = inc n x.wr := rfl
@[simp] theorem Ring.advanceWr_rd (n : Nat) (x : Ring) : (x.advanceWr n).rd = x.rd := rfl
@[simp] theorem Ring.advanceWr_wrGs (n : Nat) (x : Ring) : (x.advanceWr n).wrGs = gray (inc n x.wr) := rfl
@[simp] theorem Ring.advanceWr_rdGs (n : Nat) (x : Ring) : (x.advanceWr n).rdGs = x.rdGs := rfl
@[simp] theorem Ring.advanceWr_mem (n : Nat) (x : Ring) : (x.advanceWr n).mem = x.mem := rfl
@[simp] theorem Ring.advanceRd_wr (n : Nat) (x : Ring) : (x.advanceRd n).wr = x.wr := rfl
@[simp] theorem Ring.advanceRd_rd (n : Nat) (x : Ring) : (x.advanceRd n).rd = inc n x.rd := rfl
@[simp] theorem Ring.advanceRd_wrGs (n : Nat) (x : Ring) : (x.advanceRd n).wrGs = x.wrGs := rfl
@[simp] theorem Ring.advanceRd_rdGs (n : Nat) (x : Ring) : (x.advanceRd n).rdGs = gray (inc n x.rd) := rfl
@[simp] theorem Ring.advanceRd_mem (n : Nat) (x : Ring) : (x.advanceRd n).mem = x.mem := rfl

end Sys2Proof.Machine
end

