-- ==== Sys2Proof/Laws/Memory.lean ====
section
/-! SUPPORT. The byte arrays: read after write, every other index left alone, the canonical form kept, and what `memRead`
and `memWrite` can do. -/

namespace Sys2Proof.Machine

theorem Memory.get_set_same (l : List Host.Cell) (a : Nat) (b : Byte) : Memory.get (Memory.set l a b) a = some b := by
  induction l with
  | nil => simp [Memory.set, Memory.get]
  | cons h t ih =>
    obtain ⟨x, c⟩ := h
    simp only [Memory.set]
    split
    · simp [Memory.get]
    · split
      · simp [Memory.get]
      · next _ h => simp [Memory.get, Ne.symm h, ih]

theorem Memory.get_set_other (l : List Host.Cell) (a j : Nat) (b : Byte) (h : j ≠ a) :
    Memory.get (Memory.set l a b) j = Memory.get l j := by
  induction l with
  | nil => simp [Memory.set, Memory.get, Ne.symm h]
  | cons p t ih =>
    obtain ⟨x, c⟩ := p
    simp only [Memory.set]
    split
    · simp [Memory.get, Ne.symm h]
    · split
      · next _ hx => subst hx; simp [Memory.get, Ne.symm h]
      · simp [Memory.get, ih]

theorem Memory.get_del_same (l : List Host.Cell) (a : Nat) : Memory.get (Memory.del l a) a = none := by
  induction l with
  | nil => rfl
  | cons p t ih =>
    obtain ⟨x, c⟩ := p
    by_cases hx : x = a
    · subst hx; simpa [Memory.del] using ih
    · have : Memory.del ((x, c) :: t) a = (x, c) :: Memory.del t a := by simp [Memory.del, hx]
      rw [this]; simpa [Memory.get, hx] using ih

theorem Memory.get_del_other (l : List Host.Cell) (a j : Nat) (h : j ≠ a) :
    Memory.get (Memory.del l a) j = Memory.get l j := by
  induction l with
  | nil => rfl
  | cons p t ih =>
    obtain ⟨x, c⟩ := p
    by_cases hx : x = a
    · subst hx
      have : Memory.del ((x, c) :: t) x = Memory.del t x := by simp [Memory.del]
      rw [this, ih]; simp [Memory.get, Ne.symm h]
    · have : Memory.del ((x, c) :: t) a = (x, c) :: Memory.del t a := by simp [Memory.del, hx]
      rw [this]; simp [Memory.get, ih]

@[simp] theorem Memory.getZ_setZ_same (l : List Host.Cell) (a : Nat) (b : Byte) :
    Memory.getZ (Memory.setZ l a b) a = b := by
  unfold Memory.getZ Memory.setZ
  split
  · next h => rw [Memory.get_del_same, h]; rfl
  · rw [Memory.get_set_same]; rfl

theorem Memory.getZ_setZ_other (l : List Host.Cell) (a j : Nat) (b : Byte) (h : j ≠ a) :
    Memory.getZ (Memory.setZ l a b) j = Memory.getZ l j := by
  unfold Memory.getZ Memory.setZ
  split
  · rw [Memory.get_del_other _ _ _ h]
  · rw [Memory.get_set_other _ _ _ _ h]

@[simp] theorem Memory.getZ_nil (a : Nat) : Memory.getZ [] a = 0 := rfl

/-! ### The canonical form -/

theorem Memory.sorted_cons (n : Nat) (x : Host.Cell) (t : List Host.Cell) :
    Memory.sorted n (x :: t) = true ↔ x.1 < n ∧ (∀ y ∈ t, x.1 < y.1) ∧ Memory.sorted n t = true := by
  induction t generalizing x with
  | nil => simp [Memory.sorted]
  | cons y t ih =>
    simp only [Memory.sorted, Bool.and_eq_true, decide_eq_true_eq]
    constructor
    · rintro ⟨hxy, hs⟩
      obtain ⟨hy, hall, _⟩ := (ih y).1 hs
      refine ⟨by omega, ?_, hs⟩
      intro z hz
      rcases List.mem_cons.1 hz with rfl | hz
      · exact hxy
      · have := hall z hz; omega
    · rintro ⟨_, hall, hs⟩
      exact ⟨hall y (by simp), hs⟩

theorem Memory.mem_set (l : List Host.Cell) (a : Nat) (b : Byte) (y : Host.Cell) (h : y ∈ Memory.set l a b) :
    y = (a, b) ∨ y ∈ l := by
  induction l with
  | nil => simpa [Memory.set] using h
  | cons p t ih =>
    obtain ⟨x, c⟩ := p
    simp only [Memory.set] at h
    split at h
    · simpa using h
    · split at h
      · rcases List.mem_cons.1 h with h | h <;> simp [h]
      · rcases List.mem_cons.1 h with h | h
        · simp [h]
        · rcases ih h with h | h <;> simp [h]

theorem Memory.sorted_set (n : Nat) (l : List Host.Cell) (a : Nat) (b : Byte) (ha : a < n)
    (h : Memory.sorted n l = true) : Memory.sorted n (Memory.set l a b) = true := by
  induction l with
  | nil => simpa [Memory.set, Memory.sorted] using ha
  | cons p t ih =>
    obtain ⟨x, c⟩ := p
    obtain ⟨hx, hall, hs⟩ := (Memory.sorted_cons n _ t).1 h
    simp only [Memory.set]
    split
    · next hlt =>
      refine (Memory.sorted_cons n _ _).2 ⟨ha, ?_, h⟩
      intro y hy
      rcases List.mem_cons.1 hy with rfl | hy
      · exact hlt
      · have := hall y hy; simp only at *; omega
    · split
      · next _ he => subst he; exact (Memory.sorted_cons n _ _).2 ⟨ha, hall, hs⟩
      · next h1 h2 =>
        refine (Memory.sorted_cons n _ _).2 ⟨hx, ?_, ih hs⟩
        intro y hy
        rcases Memory.mem_set t a b y hy with rfl | hy
        · simp only; omega
        · exact hall y hy

theorem Memory.sorted_del (n : Nat) (l : List Host.Cell) (a : Nat) (h : Memory.sorted n l = true) :
    Memory.sorted n (Memory.del l a) = true := by
  induction l with
  | nil => rfl
  | cons p t ih =>
    obtain ⟨hx, hall, hs⟩ := (Memory.sorted_cons n _ t).1 h
    by_cases hp : p.1 = a
    · have : Memory.del (p :: t) a = Memory.del t a := by simp [Memory.del, hp]
      rw [this]; exact ih hs
    · have : Memory.del (p :: t) a = p :: Memory.del t a := by simp [Memory.del, hp]
      rw [this]
      refine (Memory.sorted_cons n _ _).2 ⟨hx, ?_, ih hs⟩
      intro y hy
      exact hall y (List.mem_of_mem_filter hy)

theorem Memory.wfZ_setZ (n : Nat) (l : List Host.Cell) (a : Nat) (b : Byte) (ha : a < n)
    (h : Memory.wfZ n l = true) : Memory.wfZ n (Memory.setZ l a b) = true := by
  unfold Memory.wfZ Memory.setZ at *
  simp only [Bool.and_eq_true, List.all_eq_true] at *
  obtain ⟨hs, hz⟩ := h
  split
  · exact ⟨Memory.sorted_del n l a hs, fun y hy => hz y (List.mem_of_mem_filter hy)⟩
  · next hb =>
    refine ⟨Memory.sorted_set n l a b ha hs, fun y hy => ?_⟩
    rcases Memory.mem_set l a b y hy with rfl | hy
    · simpa using hb
    · exact hz y hy

/-! ### What `memRead` and `memWrite` can do -/

theorem memRead_eq_some {sp : Space} {i : Nat} {s : State} {v : Byte} :
    memRead sp i s = some v ↔ i < sp.size s.params ∧ s.byteAt sp i = v := by
  unfold memRead; split <;> simp_all

theorem memRead_eq_none {sp : Space} {i : Nat} {s : State} :
    memRead sp i s = none ↔ ¬ i < sp.size s.params := by
  unfold memRead; split <;> simp_all

theorem memWrite_eq_some {sp : Space} {i : Nat} {v : Byte} {s t : State} :
    memWrite sp i v s = some t ↔ i < sp.size s.params ∧ s.putByte sp i v = t := by
  unfold memWrite; split <;> simp_all

theorem memWrite_eq_none {sp : Space} {i : Nat} {v : Byte} {s : State} :
    memWrite sp i v s = none ↔ ¬ i < sp.size s.params := by
  unfold memWrite; split <;> simp_all

/-- A write changes the addressed byte and no other, of the same array or another (spec R41). -/
theorem byteAt_putByte (s : State) (p q : Space) (i j : Nat) (v : Byte) :
    (s.putByte p i v).byteAt q j = if p = q ∧ i = j then v else s.byteAt q j := by
  cases p <;> cases q <;> simp [State.byteAt]
  · by_cases h : i = j
    · subst h; simp
    · simp [h, Memory.getZ_setZ_other _ _ _ _ (Ne.symm h)]
  · by_cases h : i = j
    · subst h; simp
    · simp [h, Memory.getZ_setZ_other _ _ _ _ (Ne.symm h)]
  · by_cases h : i = j
    · subst h; simp [Memory.get_set_same]
    · simp [h, Memory.get_set_other _ _ _ _ (Ne.symm h)]

end Sys2Proof.Machine
end

