-- ==== Sys2Proof/Laws/Ring.lean ====
section
/-! SUPPORT. Cursor arithmetic and the Gray code: the code is injective, so the flags through the Gray copies are the
document's comparisons; occupancy after each advance. -/

namespace Sys2Proof.Machine

theorem N_pos (p : Params) : 0 < p.N := Nat.pos_of_ne_zero (by simp [Params.N])

theorem inc_lt {n c : Nat} (h : 0 < n) : inc n c < n := Nat.mod_lt _ h

theorem inc_of_lt {n c : Nat} (h : c + 1 < n) : inc n c = c + 1 := Nat.mod_eq_of_lt h

theorem inc_top {n c : Nat} (h : c + 1 = n) : inc n c = 0 := by simp [inc, h]

theorem gray_xor (a b : Nat) : gray (a ^^^ b) = gray a ^^^ gray b := by
  unfold gray
  rw [Nat.shiftRight_xor_distrib]
  simp only [Nat.xor_assoc]
  congr 1
  rw [← Nat.xor_assoc b, Nat.xor_comm b, Nat.xor_assoc]

theorem gray_eq_zero {c : Nat} (h : gray c = 0) : c = 0 := by
  have h1 : c = c >>> 1 := by
    have := congrArg (· ^^^ (c >>> 1)) h
    simpa [gray, Nat.xor_assoc] using this
  have h2 : c >>> 1 = c / 2 := by simp [Nat.shiftRight_eq_div_pow]
  omega

theorem gray_injective {a b : Nat} (h : gray a = gray b) : a = b := by
  have : gray (a ^^^ b) = 0 := by rw [gray_xor, h, Nat.xor_self]
  exact Nat.xor_eq_zero_iff.1 (gray_eq_zero this)

@[simp] theorem gray_inj {a b : Nat} : gray a = gray b ↔ a = b := ⟨gray_injective, congrArg gray⟩

@[simp] theorem gray_zero : gray 0 = 0 := rfl

/-! ### Flags on coherent copies -/

theorem fullP_iff {n : Nat} {x : Ring} (h : x.rdGs = gray x.rd) : fullP n x = true ↔ inc n x.wr = x.rd := by
  simp [fullP, h]

theorem emptyC_iff {x : Ring} (h : x.wrGs = gray x.wr) : emptyC x = true ↔ x.wr = x.rd := by
  simp [emptyC, h]

/-! ### Occupancy -/

/-- Occupancy is the distance from the read to the write cursor around the ring. -/
theorem occ_spec {n : Nat} {x : Ring} (hw : x.wr < n) (hr : x.rd < n) :
    occ n x < n ∧ (occ n x + x.rd = x.wr ∨ occ n x + x.rd = x.wr + n) := by
  unfold occ
  rw [Nat.mod_eq_of_lt hw, Nat.mod_eq_of_lt hr]
  by_cases h : x.rd ≤ x.wr
  · rw [show x.wr + n - x.rd = (x.wr - x.rd) + n by omega, Nat.add_mod_right, Nat.mod_eq_of_lt (by omega)]
    omega
  · rw [Nat.mod_eq_of_lt (by omega)]
    omega

theorem occ_lt {n : Nat} (x : Ring) (h : 0 < n) : occ n x < n := Nat.mod_lt _ h

/-- A cursor advance is one step around the ring. -/
theorem inc_spec {n c : Nat} (h : c < n) : inc n c < n ∧ (inc n c = c + 1 ∨ inc n c + n = c + 1) := by
  by_cases h1 : c + 1 = n
  · rw [inc_top h1]; omega
  · rw [inc_of_lt (by omega)]; omega

theorem occ_zero_iff {n : Nat} {x : Ring} (hw : x.wr < n) (hr : x.rd < n) : occ n x = 0 ↔ x.wr = x.rd := by
  have := occ_spec hw hr; omega

theorem occ_full_iff {n : Nat} {x : Ring} (hw : x.wr < n) (hr : x.rd < n) :
    occ n x = n - 1 ↔ inc n x.wr = x.rd := by
  have := occ_spec hw hr; have := inc_spec hw; omega

theorem occ_advanceWr {n : Nat} {x : Ring} (hw : x.wr < n) (hr : x.rd < n) (h : inc n x.wr ≠ x.rd) :
    occ n (x.advanceWr n) = occ n x + 1 := by
  have hi := inc_spec hw
  have h1 := occ_spec hw hr
  have h2 := occ_spec (x := x.advanceWr n) hi.1 hr
  simp only [Ring.advanceWr_wr, Ring.advanceWr_rd] at h2
  omega

theorem occ_advanceRd {n : Nat} {x : Ring} (hw : x.wr < n) (hr : x.rd < n) (h : x.wr ≠ x.rd) :
    occ n (x.advanceRd n) + 1 = occ n x := by
  have hi := inc_spec hr
  have h1 := occ_spec hw hr
  have h2 := occ_spec (x := x.advanceRd n) hw hi.1
  simp only [Ring.advanceRd_wr, Ring.advanceRd_rd] at h2
  omega

end Sys2Proof.Machine
end

