-- ==== Sys2Proof/Laws/Step.lean ====
section
/-! SUPPORT. Everything one step of the machine can do, said once: `step_move`. Invariants are proved by cases on `Move`. -/

namespace Sys2Proof.Machine

/-! ### The shared operations -/

theorem callerReady_iff {s : State} : callerReady s = true ↔ s.ctx = .caller ∧ s.cpc = .idle := by
  unfold callerReady busy
  cases s.ctx <;> cases s.cpc <;> simp

theorem orFault_next {o : Option State} {t : State} : orFault o = .next t ↔ o = some t := by
  cases o <;> simp [orFault]

/-- What the issue of an operation other than `INIT` can do (spec R66). -/
theorem issue_next {eff : State → Option State} {s t : State} (h : issue eff s = .next t) :
    (callerReady s = false ∧ t = s) ∨ (callerReady s = true ∧ s.inited = false ∧ t = s.raise .preinit) ∨
      (callerReady s = true ∧ s.inited = true ∧ eff s = some t) := by
  unfold issue at h
  split at h
  · next hr =>
    split at h
    · next hi => exact .inr (.inr ⟨hr, hi, orFault_next.1 h⟩)
    · next hi => injection h with h; exact .inr (.inl ⟨hr, by simpa using hi, h.symm⟩)
  · next hr => injection h with h; exact .inl ⟨by simpa using hr, h.symm⟩

theorem issue_ready {eff : State → Option State} {s : State} (hr : callerReady s = true) (hi : s.inited = true) :
    issue eff s = orFault (eff s) := by simp [issue, hr, hi]

/-- What the issue of `INIT` can do (spec R66, R102). -/
theorem issueInit_next {eff : State → State} {s t : State} (h : issueInit eff s = .next t) :
    (callerReady s = false ∧ t = s) ∨ (callerReady s = true ∧ s.inited = true ∧ t = s.raise .preinit) ∨
      (callerReady s = true ∧ s.inited = false ∧ t = eff s) := by
  unfold issueInit at h
  split at h
  · next hr =>
    split at h <;> injection h with h
    · next hi => exact .inr (.inl ⟨hr, hi, h.symm⟩)
    · next hi => exact .inr (.inr ⟨hr, by simpa using hi, h.symm⟩)
  · next hr => injection h with h; exact .inl ⟨by simpa using hr, h.symm⟩

/-- What the invocation of a handler can do (spec R155, R181). -/
theorem invoke_next {q : HState} {s t : State} (h : invoke q s = .next t) :
    (s.ctx = .handler ∧ t = s) ∨ (s.ctx = .caller ∧ s.inited = false ∧ t = s.raise .preinit) ∨
      (s.ctx = .caller ∧ s.inited = true ∧ t = enterHandler q s) := by
  unfold invoke at h
  split at h
  · next hc => injection h with h; exact .inl ⟨hc, h.symm⟩
  · next hc =>
    split at h <;> injection h with h
    · next hi => exact .inr (.inr ⟨hc, hi, h.symm⟩)
    · next hi => exact .inr (.inl ⟨hc, by simpa using hi, h.symm⟩)

/-! ### The effect at issue of each caller-side operation -/

/-- The effect of an operation at issue, once its word is legal and INIT has completed (spec R66 steps 3 and 4). -/
def effectOf : Instr → State → Option State
  | .send b, s => some { takeImm b s with ret := .done, cpc := .s0 }
  | .recv, s => some { s with cpc := .r0 }
  | .sendf, s => some { s with fi := 0, crp := false, cpc := .f0 }
  | .senda b, s => some { takeImm b s with ret := .done, cpc := .a0 }
  | .recva, s => some { s with cpc := .b0 }
  | .sendfa, s => some { s with fi := 0, crp := false, cpc := .g0 }
  | .irqen, s => some (setLine true s)
  | .irqdis, s => some (setLine false s)
  | .putRx b, s => if s.regs.rxIe then some ((takeImm b s).raise .owner) else putOk .rx b (takeImm b s)
  | .putTx b, s => putOk .tx b (takeImm b s)
  | .getRx, s => getOk .rx s
  | .getTx, s => if s.regs.txIe then some (s.raise .owner) else getOk .tx s
  | .fmtclr, s => some { s with fmtLen := 0 }
  | .fmtch b, s =>
    if s.fmtLen = s.params.N then some ((takeImm b s).raise .fmtlen)
    else
      match memWrite .fmt s.fmtLen b (takeImm b s) with
      | none => none
      | some u => some { u with fmtLen := u.fmtLen + 1 }
  | .init, s => some s
  | .rxh, s => some s
  | .txh, s => some s

/-- The operations of the caller-side ports other than `INIT`. -/
def isPlain : Instr → Bool
  | .init => false
  | .rxh => false
  | .txh => false
  | .send _ | .recv | .sendf | .senda _ | .recva | .sendfa | .irqen | .irqdis
  | .putRx _ | .putTx _ | .getRx | .getTx | .fmtclr | .fmtch _ => true

theorem exec_plain {i : Instr} (h : isPlain i = true) (s : State) : exec i s = issue (effectOf i) s := by
  cases i <;> first | rfl | simp [isPlain] at h

theorem exec_init (s : State) : exec .init s = issueInit (fun t => { t with cpc := .i1 }) s := rfl

theorem exec_rxh (s : State) : exec .rxh s = invoke .h0 s := rfl

theorem exec_txh (s : State) : exec .txh s = invoke .w0 s := rfl

/-! ### Decoding on a port -/

theorem decodeOn_ok {p : Port} {w : Word} {i : Instr} (h : decodeOn p w = .ok i) : decode w = .ok i ∧ i.port = p := by
  unfold decodeOn at h
  split at h
  · cases h
  · next j hj =>
    split at h
    · next hw =>
      cases h
      exact ⟨hj, by simpa [Instr.wfOn] using hw⟩
    · cases h

/-! ### Moves -/

/-- What one step can do to the state `s` that remains of `o` when the event, and the word if one is presented, have been
taken from the queues. -/
inductive Move (o s : State) : State → Prop
  /-- a hold, an agent that is not enabled, or a caller with nothing to issue -/
  | wait : Move o s s
  /-- an illegal word is refused -/
  | illegal (hc : s.ctx = .caller) : Move o s (s.raise .illcmd)
  /-- use before `INIT`, or `INIT` again, is refused -/
  | preinit (hc : s.ctx = .caller) : Move o s (s.raise .preinit)
  /-- `INIT` is issued -/
  | initStart (hc : s.ctx = .caller) (hi : s.cpc = .idle) (hn : s.inited = false) : Move o s { s with cpc := .i1 }
  /-- another caller-side operation is issued -/
  | effect (i : Instr) (t : State) (hc : s.ctx = .caller) (hi : s.cpc = .idle) (hn : s.inited = true)
      (hp : isPlain i = true) (hr : ∃ r rs, o.prog = r :: rs ∧ decodeOn r.port.toPort r.word = .ok i)
      (h : effectOf i s = some t) : Move o s t
  /-- a handler is entered by dispatch -/
  | dispatched (q : HState) (hq : q = .h0 ∧ rxIrq s = true ∨ q = .w0 ∧ txIrq s = true) (hc : s.ctx = .caller)
      (hn : s.inited = true) (hl : s.regs.lineEn = true) : Move o s (enterHandler q s)
  /-- a handler is entered by direct call -/
  | called (q : HState) (hq : q = .h0 ∨ q = .w0) (hc : s.ctx = .caller) (hb : inBracket s.cpc = false)
      (hn : s.inited = true) (he : ∃ w, o.sched.head? = some (.call w)) : Move o s (enterHandler q s)
  /-- a µop of the command in progress -/
  | uop (t : State) (hc : s.ctx = .caller) (hi : s.cpc ≠ .idle) (h : callerUop s = some t) : Move o s t
  /-- a µop of the active handler -/
  | handler (t : State) (hc : s.ctx = .handler) (h : handlerUop s = some t) : Move o s t
  /-- `LineRx(b)` -/
  | lineRx (b : Byte) : Move o s (lineRxStep b s)
  /-- `LineTx` -/
  | lineTx : Move o s (lineTxStep s)
  /-- `Reset` -/
  | reset (he : o.sched.head? = some .reset) : Move o s (resetStep s)

/-- What the issue of a decoded caller-side operation can do. -/
theorem exec_caller_move {o s t : State} {i : Instr} (hp : i.port ≠ .dispatch) (hc : s.ctx = .caller)
    (hi : s.cpc = .idle) (hr : ∃ r rs, o.prog = r :: rs ∧ decodeOn r.port.toPort r.word = .ok i)
    (h : exec i s = .next t) : Move o s t := by
  have hready : callerReady s = true := callerReady_iff.2 ⟨hc, hi⟩
  by_cases hpl : isPlain i = true
  · rw [exec_plain hpl] at h
    rcases issue_next h with ⟨h1, _⟩ | ⟨_, _, rfl⟩ | ⟨_, hn, he⟩
    · simp [hready] at h1
    · exact .preinit hc
    · exact .effect i t hc hi hn hpl hr he
  · have : i = .init := by
      cases i <;> simp [isPlain, Instr.port] at *
    subst this
    rw [exec_init] at h
    rcases issueInit_next h with ⟨h1, _⟩ | ⟨_, _, rfl⟩ | ⟨_, hn, rfl⟩
    · simp [hready] at h1
    · exact .preinit hc
    · exact .initStart hc hi hn

theorem callerPort_ne_dispatch (p : CallerPort) : p.toPort ≠ .dispatch := by cases p <;> simp [CallerPort.toPort]

/-- What the turn of the thread's owner can do. -/
theorem threadStep_move {o s t : State} (ho : o.prog = s.prog) (h : threadStep s = .next t) :
    ∃ p, (p = s.prog ∨ ∃ r, s.prog = r :: p ∧ s.ctx = .caller ∧ s.cpc = .idle) ∧ Move o { s with prog := p } t := by
  unfold threadStep at h
  split at h
  · next hc =>
    unfold callerStep at h
    split at h
    · next hi =>
      split at h
      · next hpr => injection h with h; subst h; exact ⟨s.prog, .inl rfl, .wait⟩
      · next r rs hpr =>
        refine ⟨rs, .inr ⟨r, hpr, hc, hi⟩, ?_⟩
        unfold present at h
        split at h
        · injection h with h; subst h; exact .illegal hc
        · next i hd =>
          have hport := (decodeOn_ok hd).2
          exact exec_caller_move (hport ▸ callerPort_ne_dispatch r.port) hc hi ⟨r, rs, ho ▸ hpr, hd⟩ h
    · next hi => exact ⟨s.prog, .inl rfl, .uop t hc (by simpa using hi) (orFault_next.1 h)⟩
  · next hc => exact ⟨s.prog, .inl rfl, .handler t hc (orFault_next.1 h)⟩

theorem callable_iff {s : State} : callable s = true ↔ s.ctx = .caller ∧ inBracket s.cpc = false := by
  simp [callable]

/-- What the direct call of a handler word can do. -/
theorem callStep_move {o s t : State} {w : Word} (he : o.sched.head? = some (.call w)) (h : callStep w s = .next t) :
    Move o s t := by
  unfold callStep at h
  split at h
  · next hr =>
    obtain ⟨hc, hb⟩ := callable_iff.1 hr
    unfold present at h
    split at h
    · injection h with h; subst h; exact .illegal hc
    · next i hd =>
      have hport := (decodeOn_ok hd).2
      cases i <;> simp only [Instr.port, reduceCtorEq] at hport
      · rcases invoke_next h with ⟨h1, _⟩ | ⟨_, _, rfl⟩ | ⟨_, hn, rfl⟩
        · simp [hc] at h1
        · exact .preinit hc
        · exact .called .h0 (.inl rfl) hc hb hn ⟨w, he⟩
      · rcases invoke_next h with ⟨h1, _⟩ | ⟨_, _, rfl⟩ | ⟨_, hn, rfl⟩
        · simp [hc] at h1
        · exact .preinit hc
        · exact .called .w0 (.inr rfl) hc hb hn ⟨w, he⟩
  · injection h with h; subst h; exact .wait

theorem dispatchable_rxh {s : State} : dispatchable s .rxh = true ↔
    s.inited = true ∧ s.ctx = .caller ∧ s.regs.lineEn = true ∧ rxIrq s = true := by
  simp [dispatchable, and_assoc]

theorem dispatchable_txh {s : State} : dispatchable s .txh = true ↔
    s.inited = true ∧ s.ctx = .caller ∧ s.regs.lineEn = true ∧ txIrq s = true := by
  simp [dispatchable, and_assoc]

/-- The `Framework`'s turn with a legal handler word: the entry step exactly when its dispatch condition holds (spec R180). -/
theorem frameworkStep_ok {w : Word} {i : Instr} (hd : decodeOn .dispatch w = .ok i) (s : State) :
    frameworkStep w s = if dispatchable s i then exec i s else .next s := by
  unfold frameworkStep
  split
  · next hc =>
    have : dispatchable s i = false := by cases i <;> simp [dispatchable, hc]
    simp [this]
  · rw [hd]

/-- A masked line dispatches nothing (spec R180). -/
theorem dispatchable_masked {s : State} (h : s.regs.lineEn = false) (i : Instr) : dispatchable s i = false := by
  cases i <;> simp [dispatchable, h]

/-- What the `Framework` can do. -/
theorem frameworkStep_move {o s t : State} {w : Word} (h : frameworkStep w s = .next t) : Move o s t := by
  unfold frameworkStep at h
  split at h
  · injection h with h; subst h; exact .wait
  · next hc =>
    split at h
    · injection h with h; subst h; exact .illegal hc
    · next i hd =>
      split at h
      · next hdp =>
        have hport := (decodeOn_ok hd).2
        cases i <;> simp only [Instr.port, reduceCtorEq] at hport
        · obtain ⟨hn, _, hl, hq⟩ := dispatchable_rxh.1 hdp
          rcases invoke_next h with ⟨h1, _⟩ | ⟨_, h1, _⟩ | ⟨_, _, rfl⟩
          · simp [hc] at h1
          · simp [hn] at h1
          · exact .dispatched .h0 (.inl ⟨rfl, hq⟩) hc hn hl
        · obtain ⟨hn, _, hl, hq⟩ := dispatchable_txh.1 hdp
          rcases invoke_next h with ⟨h1, _⟩ | ⟨_, h1, _⟩ | ⟨_, _, rfl⟩
          · simp [hc] at h1
          · simp [hn] at h1
          · exact .dispatched .w0 (.inr ⟨rfl, hq⟩) hc hn hl
      · injection h with h; subst h; exact .wait

/-- Everything one agent's turn can do; `o` is the state before the event was taken. -/
theorem agentStep_move {o s t : State} {e : Event} (ho : o.prog = s.prog) (he : o.sched.head? = some e)
    (h : agentStep e s = .next t) :
    ∃ p, (p = s.prog ∨ ∃ r, s.prog = r :: p ∧ s.ctx = .caller ∧ s.cpc = .idle) ∧ Move o { s with prog := p } t := by
  cases e with
  | thread => exact threadStep_move ho h
  | lineRx b => injection h with h; subst h; exact ⟨s.prog, .inl rfl, .lineRx b⟩
  | lineTx => injection h with h; subst h; exact ⟨s.prog, .inl rfl, .lineTx⟩
  | dispatch w => exact ⟨s.prog, .inl rfl, frameworkStep_move h⟩
  | call w => exact ⟨s.prog, .inl rfl, callStep_move he h⟩
  | reset => injection h with h; subst h; exact ⟨s.prog, .inl rfl, .reset he⟩

/-- EVERYTHING ONE STEP CAN DO: it takes the event, it takes a word only to issue it, and it makes one move. -/
theorem step_move {s t : State} (h : step s = .next t) :
    ∃ p, (p = s.prog ∨ ∃ r, s.prog = r :: p ∧ s.ctx = .caller ∧ s.cpc = .idle) ∧ Move s { s with prog := p, sched := s.sched.tail } t := by
  unfold step at h
  split at h
  · next hs =>
    have h' : threadStep { s with sched := s.sched.tail } = .next t := by
      rw [← h, hs]; congr 1; cases s; simp_all
    exact threadStep_move (o := s) (s := { s with sched := s.sched.tail }) rfl h'
  · next e es hs =>
    have h' : agentStep e { s with sched := s.sched.tail } = .next t := by rw [← h, hs]; rfl
    exact agentStep_move (o := s) (s := { s with sched := s.sched.tail }) rfl (by simp [hs]) h'

/-- Package of an invariant: insensitive to the two queues, kept by every move, so kept by every step. -/
theorem step_keeps {P : State → Prop} (hq : ∀ s p e, P s → P { s with prog := p, sched := e })
    (hm : ∀ o s t, P s → Move o s t → P t) {s t : State} (hs : P s) (h : step s = .next t) : P t := by
  obtain ⟨p, _, hmove⟩ := step_move h
  exact hm _ _ _ (hq s p _ hs) hmove

theorem step_nil {s : State} (h : s.sched = []) : step s = threadStep s := by unfold step; simp [h]

theorem step_cons {s : State} {e : Event} {es : List Event} (h : s.sched = e :: es) :
    step s = agentStep e { s with sched := es } := by unfold step; simp [h]

/-- With an empty schedule and a command in progress, a step is the µop that `cpc` names (spec R68). -/
theorem step_uop {s : State} (hs : s.sched = []) (hc : s.ctx = .caller) (hi : s.cpc ≠ .idle) :
    step s = orFault (callerUop s) := by
  rw [step_nil hs]
  unfold threadStep
  split
  · unfold callerStep
    split
    · next h => exact absurd h hi
    · rfl
  · next h => rw [hc] at h; cases h

/-- With an empty schedule and a handler active, a step is the µop that `hpc` names (spec R68). -/
theorem step_handlerUop {s : State} (hs : s.sched = []) (hc : s.ctx = .handler) :
    step s = orFault (handlerUop s) := by
  rw [step_nil hs]
  unfold threadStep
  split
  · next h => rw [hc] at h; cases h
  · rfl

/-! ### Runs -/

@[simp] theorem steps_zero (s : State) : steps 0 s = .next s := rfl

theorem steps_succ (n : Nat) (s : State) : steps (n + 1) s =
    match step s with
    | .next t => steps n t
    | .fault r => .fault r
    | .refused r => .refused r := by
  simp only [steps, Host.Core.run]
  have : Sys2Proof.core.step s = step s := rfl
  rw [this]
  cases step s <;> rfl

theorem steps_succ_next {n : Nat} {s t : State} (h : step s = .next t) : steps (n + 1) s = steps n t := by
  rw [steps_succ, h]

/-- An invariant that every step keeps holds after any number of steps. -/
theorem steps_keep {P : State → Prop} (hp : ∀ s t, P s → step s = .next t → P t) :
    ∀ {n : Nat} {s t : State}, P s → steps n s = .next t → P t := by
  intro n
  induction n with
  | zero => intro s t hs h; cases h; exact hs
  | succ n ih =>
    intro s t hs h
    rw [steps_succ] at h
    split at h
    · next u hu => exact ih (hp _ _ hs hu) h
    · cases h
    · cases h

end Sys2Proof.Machine
end

