-- ==== Sys2Proof/Laws/Micro.lean ====
section
/-! SUPPORT. Each µop as one update of the state, and what the loop head, the ring primitives and the effects at issue can do:
later proofs cite these and do not unfold the sequencers. -/

namespace Sys2Proof.Machine

/-! ### The µops of INIT -/

theorem uopI1_eq (s : State) : uopI1 s = { s with regs := { s.regs with periphEn := true }, cpc := .i2 } := rfl

theorem uopI2_eq (s : State) : uopI2 s = { s with regs := { s.regs with txEn := false, rxEn := false }, cpc := .i3 } :=
  rfl

theorem uopI3_eq (s : State) : uopI3 s = { s with regs := { s.regs with rxIe := false, txIe := false }, cpc := .i4 } :=
  rfl

theorem uopI4_eq (s : State) : uopI4 s =
    { s with
      regs := { s.regs with dsize := 8, flowEn := false, div := s.params.baudDiv, fifoEn := false }, cpc := .i5 } := by
  simp only [uopI4, regWrite, Config.dataBits]

theorem uopI5_eq (s : State) : uopI5 s =
    { s with regs := { s.regs with pinFuncTx := .altUart, pinFuncRx := .altUart }, cpc := .i6 } := rfl

theorem uopI6_eq (s : State) : uopI6 s =
    { s with regs := { s.regs with pinPullTx := .none, pinPullRx := .none }, cpc := .i7 } := rfl

theorem uopI7_eq (s : State) : uopI7 s =
    { s with
      regs := { s.regs with txEn := true, rxEn := true, txReady := true, rxReady := false }
      inited := true, cpc := .idle } := rfl

/-! ### The data register -/

theorem dataWrite_of_ready {v : Byte} {s : State} (h : s.regs.txReady = true) :
    dataWrite v s = { s with regs := { s.regs with txHold := v, txReady := false }, txLog := s.txLog ++ [v] } := by
  simp [dataWrite, h]

theorem dataRead_of_ready {s : State} (h : s.regs.rxReady = true) :
    dataRead s = (s.regs.rxHold, { s with regs := { s.regs with rxReady := false } }) := by
  simp [dataRead, h]

/-! ### What the loop head, the stores and the ring primitives can do -/

/-- What a loop head can do (spec R125, R146). -/
theorem loopHead_next {back : Ret} {sub : CState} {s t : State} (h : loopHead back sub s = some t) :
    (s.fi = s.fmtLen ∧ t = { s with cnt := s.fmtLen, cpc := .idle }) ∨
    (s.fi ≠ s.fmtLen ∧ s.fi < s.params.fmtMax ∧ s.byteAt .fmt s.fi = chLF ∧ s.crp = false ∧
      t = { s with opb := chCR, crp := true, ret := back, cpc := sub }) ∨
    (s.fi ≠ s.fmtLen ∧ s.fi < s.params.fmtMax ∧ ¬ (s.byteAt .fmt s.fi = chLF ∧ s.crp = false) ∧
      t = { s with opb := s.byteAt .fmt s.fi, crp := false, fi := s.fi + 1, ret := back, cpc := sub }) := by
  unfold loopHead at h
  split at h
  · next h1 => injection h with h; exact .inl ⟨h1, h.symm⟩
  · next h1 =>
    split at h
    · cases h
    · next c hc =>
      obtain ⟨hlt, rfl⟩ := memRead_eq_some.1 hc
      split at h <;> injection h with h
      · next h2 => exact .inr (.inl ⟨h1, hlt, h2.1, h2.2, h.symm⟩)
      · next h2 => exact .inr (.inr ⟨h1, hlt, h2, h.symm⟩)

theorem uopA2_next {s t : State} (h : uopA2 s = some t) : s.tx.wr < s.N ∧
    t = { s with tx := { s.tx with mem := Memory.setZ s.tx.mem s.tx.wr s.opb }, cpc := .a3 } := by
  unfold uopA2 at h
  split at h
  · cases h
  · next u hu =>
    obtain ⟨hlt, rfl⟩ := memWrite_eq_some.1 hu
    injection h with h
    exact ⟨hlt, h.symm⟩

theorem uopB3_next {s t : State} (h : uopB3 s = some t) : s.rx.rd < s.N ∧
    t = { s with res := s.byteAt .rxm s.rx.rd, cpc := .b4 } := by
  unfold uopB3 at h
  split at h
  · cases h
  · next v hv =>
    obtain ⟨hlt, rfl⟩ := memRead_eq_some.1 hv
    injection h with h
    exact ⟨hlt, h.symm⟩

theorem uopH1_next {s t : State} (h : uopH1 s = some t) : s.rx.wr < s.N ∧
    t = { (dataRead s).2 with
      hb := (dataRead s).1
      rx := { s.rx with mem := Memory.setZ s.rx.mem s.rx.wr (dataRead s).1 }.advanceWr s.N
      hpc := .h2 } := by
  unfold uopH1 at h
  dsimp only at h
  split at h
  · cases h
  · next u hu =>
    obtain ⟨hlt, rfl⟩ := memWrite_eq_some.1 hu
    injection h with h
    simp at hlt
    refine ⟨hlt, ?_⟩
    rw [← h]
    simp

theorem uopW1_next {s t : State} (h : uopW1 s = some t) : s.tx.rd < s.N ∧
    t = { dataWrite (s.byteAt .txm s.tx.rd) s with tx := s.tx.advanceRd s.N, hpc := .w2 } := by
  unfold uopW1 at h
  split at h
  · cases h
  · next v hv =>
    obtain ⟨hlt, rfl⟩ := memRead_eq_some.1 hv
    injection h with h
    refine ⟨hlt, ?_⟩
    rw [← h]
    simp [State.N]

/-- What `ring_put` can do (spec R89). -/
theorem ringPut_next {r : RingId} {b : Byte} {s t : State} {k : Bool} (h : ringPut r b s = some (t, k)) :
    (fullP s.N (s.ring r) = true ∧ k = false ∧ t = s) ∨
    (fullP s.N (s.ring r) = false ∧ k = true ∧ (s.ring r).wr < s.N ∧
      t = s.setRing r ({ s.ring r with mem := Memory.setZ (s.ring r).mem (s.ring r).wr b }.advanceWr s.N)) := by
  unfold ringPut at h
  split at h
  · next hf => cases h; exact .inl ⟨hf, rfl, rfl⟩
  · next hf =>
    split at h
    · cases h
    · next u hu =>
      obtain ⟨hlt, rfl⟩ := memWrite_eq_some.1 hu
      cases h
      refine .inr ⟨by simpa using hf, rfl, ?_, ?_⟩
      · cases r <;> exact hlt
      · cases r <;> rfl

/-- What `ring_get` can do (spec R89). -/
theorem ringGet_next {r : RingId} {s t : State} {v : Option Byte} (h : ringGet r s = some (t, v)) :
    (emptyC (s.ring r) = true ∧ v = none ∧ t = s) ∨
    (emptyC (s.ring r) = false ∧ v = some (s.byteAt (ringSpace r) (s.ring r).rd) ∧ (s.ring r).rd < s.N ∧
      t = s.setRing r ((s.ring r).advanceRd s.N)) := by
  unfold ringGet at h
  split at h
  · next he => cases h; exact .inl ⟨he, rfl, rfl⟩
  · next he =>
    split at h
    · cases h
    · next u hu =>
      obtain ⟨hlt, rfl⟩ := memRead_eq_some.1 hu
      cases h
      refine .inr ⟨by simpa using he, rfl, ?_, rfl⟩
      cases r <;> exact hlt

theorem putOk_next {r : RingId} {b : Byte} {s t : State} (h : putOk r b s = some t) :
    (fullP s.N (s.ring r) = true ∧ t = { s with ok := false }) ∨
    (fullP s.N (s.ring r) = false ∧ (s.ring r).wr < s.N ∧
      t = { s.setRing r ({ s.ring r with mem := Memory.setZ (s.ring r).mem (s.ring r).wr b }.advanceWr s.N) with
        ok := true }) := by
  unfold putOk at h
  split at h
  · cases h
  · next u k hu =>
    injection h with h
    rcases ringPut_next hu with ⟨h1, rfl, rfl⟩ | ⟨h1, rfl, h3, rfl⟩
    · exact .inl ⟨h1, h.symm⟩
    · exact .inr ⟨h1, h3, h.symm⟩

theorem getOk_next {r : RingId} {s t : State} (h : getOk r s = some t) :
    (emptyC (s.ring r) = true ∧ t = { s with ok := false }) ∨
    (emptyC (s.ring r) = false ∧ (s.ring r).rd < s.N ∧
      t = { s.setRing r ((s.ring r).advanceRd s.N) with ok := true, res := s.byteAt (ringSpace r) (s.ring r).rd }) := by
  unfold getOk at h
  split at h
  · cases h
  · next u hu =>
    injection h with h
    rcases ringGet_next hu with ⟨h1, _, rfl⟩ | ⟨_, h2, _⟩
    · exact .inl ⟨h1, h.symm⟩
    · cases h2
  · next u v hu =>
    injection h with h
    rcases ringGet_next hu with ⟨_, h2, _⟩ | ⟨h1, h2, h3, rfl⟩
    · cases h2
    · injection h2 with h2
      exact .inr ⟨h1, h3, by rw [← h, h2]⟩

/-! ### Everything a µop can do, as one update -/

/-- What the µop that `cpc` names does to the state (spec R101, R121, R122, R125, R136 to R138, R141, R142, R146). -/
inductive CallerMove (s : State) : State → Prop
  | i1 (h : s.cpc = .i1) : CallerMove s { s with regs := { s.regs with periphEn := true }, cpc := .i2 }
  | i2 (h : s.cpc = .i2) : CallerMove s { s with regs := { s.regs with txEn := false, rxEn := false }, cpc := .i3 }
  | i3 (h : s.cpc = .i3) : CallerMove s { s with regs := { s.regs with rxIe := false, txIe := false }, cpc := .i4 }
  | i4 (h : s.cpc = .i4) : CallerMove s
      { s with
        regs := { s.regs with dsize := 8, flowEn := false, div := s.params.baudDiv, fifoEn := false }, cpc := .i5 }
  | i5 (h : s.cpc = .i5) : CallerMove s
      { s with regs := { s.regs with pinFuncTx := .altUart, pinFuncRx := .altUart }, cpc := .i6 }
  | i6 (h : s.cpc = .i6) : CallerMove s { s with regs := { s.regs with pinPullTx := .none, pinPullRx := .none }, cpc := .i7 }
  | i7 (h : s.cpc = .i7) : CallerMove s
      { s with
        regs := { s.regs with txEn := true, rxEn := true, txReady := true, rxReady := false }
        inited := true, cpc := .idle }
  | s0 (h : s.cpc = .s0) (hr : s.regs.txReady = true) : CallerMove s { s with cpc := .s1 }
  | s0spin (h : s.cpc = .s0) (hr : s.regs.txReady = false) : CallerMove s s
  | s1 (h : s.cpc = .s1) (hr : s.ret = .done) : CallerMove s { dataWrite s.opb s with cpc := .idle }
  | s1back (h : s.cpc = .s1) (hr : s.ret ≠ .done) : CallerMove s { dataWrite s.opb s with cpc := .f0 }
  | r0 (h : s.cpc = .r0) (hr : s.regs.rxReady = true) : CallerMove s { s with cpc := .r1 }
  | r0spin (h : s.cpc = .r0) (hr : s.regs.rxReady = false) : CallerMove s s
  | r1 (h : s.cpc = .r1) : CallerMove s { (dataRead s).2 with res := recvByte (dataRead s).1, cpc := .idle }
  | loopEnd (h : s.cpc = .f0 ∨ s.cpc = .g0) (he : s.fi = s.fmtLen) : CallerMove s { s with cnt := s.fmtLen, cpc := .idle }
  | loopCr (back : Ret) (sub : CState) (h : s.cpc = .f0 ∧ back = .f0 ∧ sub = .s0 ∨ s.cpc = .g0 ∧ back = .g0 ∧ sub = .a0)
      (he : s.fi ≠ s.fmtLen) (hlt : s.fi < s.params.fmtMax) (hb : s.byteAt .fmt s.fi = chLF) (hc : s.crp = false) :
      CallerMove s { s with opb := chCR, crp := true, ret := back, cpc := sub }
  | loopChar (back : Ret) (sub : CState) (h : s.cpc = .f0 ∧ back = .f0 ∧ sub = .s0 ∨ s.cpc = .g0 ∧ back = .g0 ∧ sub = .a0)
      (he : s.fi ≠ s.fmtLen) (hlt : s.fi < s.params.fmtMax) (hb : ¬ (s.byteAt .fmt s.fi = chLF ∧ s.crp = false)) :
      CallerMove s { s with opb := s.byteAt .fmt s.fi, crp := false, fi := s.fi + 1, ret := back, cpc := sub }
  | a0full (h : s.cpc = .a0) (hf : fullP s.N s.tx = true) : CallerMove s { s with cpc := .a0e }
  | a0room (h : s.cpc = .a0) (hf : fullP s.N s.tx = false) : CallerMove s { s with cpc := .a1 }
  | a0e (h : s.cpc = .a0e) : CallerMove s { s with regs := { s.regs with txIe := true }, cpc := .a0 }
  | a1 (h : s.cpc = .a1) : CallerMove s { s with regs := { s.regs with lineEn := false }, cpc := .a2 }
  | a2 (h : s.cpc = .a2) (hlt : s.tx.wr < s.N) : CallerMove s
      { s with tx := { s.tx with mem := Memory.setZ s.tx.mem s.tx.wr s.opb }, cpc := .a3 }
  | a3 (h : s.cpc = .a3) : CallerMove s { s with tx := s.tx.advanceWr s.N, cpc := .a4 }
  | a4 (h : s.cpc = .a4) : CallerMove s { s with regs := { s.regs with lineEn := true }, cpc := .a5 }
  | a5 (h : s.cpc = .a5) (hr : s.ret = .done) : CallerMove s { s with regs := { s.regs with txIe := true }, cpc := .idle }
  | a5back (h : s.cpc = .a5) (hr : s.ret ≠ .done) : CallerMove s { s with regs := { s.regs with txIe := true }, cpc := .g0 }
  | b0 (h : s.cpc = .b0 ∨ s.cpc = .b1e) : CallerMove s { s with regs := { s.regs with rxIe := true }, cpc := .b1 }
  | b1empty (h : s.cpc = .b1) (hf : emptyC s.rx = true) : CallerMove s { s with cpc := .b1e }
  | b1data (h : s.cpc = .b1) (hf : emptyC s.rx = false) : CallerMove s { s with cpc := .b2 }
  | b2 (h : s.cpc = .b2) : CallerMove s { s with regs := { s.regs with lineEn := false }, cpc := .b3 }
  | b3 (h : s.cpc = .b3) (hlt : s.rx.rd < s.N) : CallerMove s { s with res := s.byteAt .rxm s.rx.rd, cpc := .b4 }
  | b4 (h : s.cpc = .b4) : CallerMove s { s with rx := s.rx.advanceRd s.N, cpc := .b5 }
  | b5 (h : s.cpc = .b5) : CallerMove s { s with regs := { s.regs with lineEn := true }, cpc := .idle }

theorem callerUop_move {s t : State} (hi : s.cpc ≠ .idle) (h : callerUop s = some t) : CallerMove s t := by
  unfold callerUop at h
  split at h
  case h_1 hq => exact absurd hq hi
  case h_2 hq => injection h with h; rw [← h, uopI1_eq]; exact .i1 hq
  case h_3 hq => injection h with h; rw [← h, uopI2_eq]; exact .i2 hq
  case h_4 hq => injection h with h; rw [← h, uopI3_eq]; exact .i3 hq
  case h_5 hq => injection h with h; rw [← h, uopI4_eq]; exact .i4 hq
  case h_6 hq => injection h with h; rw [← h, uopI5_eq]; exact .i5 hq
  case h_7 hq => injection h with h; rw [← h, uopI6_eq]; exact .i6 hq
  case h_8 hq => injection h with h; rw [← h, uopI7_eq]; exact .i7 hq
  case h_9 hq =>
    injection h with h
    rw [← h, uopS0]
    split
    · next hr => exact .s0 hq hr
    · next hr => exact .s0spin hq (by simpa using hr)
  case h_10 hq =>
    injection h with h
    rw [← h, uopS1]
    split
    · next hr => exact .s1 hq hr
    · next hr => exact .s1back hq (by simp [hr])
    · next hr => exact .s1back hq (by simp [hr])
  case h_11 hq =>
    injection h with h
    rw [← h, uopR0]
    split
    · next hr => exact .r0 hq hr
    · next hr => exact .r0spin hq (by simpa using hr)
  case h_12 hq => injection h with h; rw [← h]; exact .r1 hq
  case h_13 hq =>
    rcases loopHead_next h with ⟨h1, rfl⟩ | ⟨h1, h2, h3, h4, rfl⟩ | ⟨h1, h2, h3, rfl⟩
    · exact .loopEnd (.inl hq) h1
    · exact .loopCr .f0 .s0 (.inl ⟨hq, rfl, rfl⟩) h1 h2 h3 h4
    · exact .loopChar .f0 .s0 (.inl ⟨hq, rfl, rfl⟩) h1 h2 h3
  case h_14 hq =>
    injection h with h
    rw [← h, uopA0]
    split
    · next hf => exact .a0full hq hf
    · next hf => exact .a0room hq (by simpa using hf)
  case h_15 hq => injection h with h; rw [← h]; exact .a0e hq
  case h_16 hq => injection h with h; rw [← h]; exact .a1 hq
  case h_17 hq => obtain ⟨h1, rfl⟩ := uopA2_next h; exact .a2 hq h1
  case h_18 hq => injection h with h; rw [← h]; exact .a3 hq
  case h_19 hq => injection h with h; rw [← h]; exact .a4 hq
  case h_20 hq =>
    injection h with h
    rw [← h, uopA5]
    split
    · next hr => exact .a5 hq hr
    · next hr => exact .a5back hq (by simp [hr])
    · next hr => exact .a5back hq (by simp [hr])
  case h_21 hq => injection h with h; rw [← h]; exact .b0 (.inl hq)
  case h_22 hq =>
    injection h with h
    rw [← h, uopB1]
    split
    · next hf => exact .b1empty hq hf
    · next hf => exact .b1data hq (by simpa using hf)
  case h_23 hq => injection h with h; rw [← h]; exact .b0 (.inr hq)
  case h_24 hq => injection h with h; rw [← h]; exact .b2 hq
  case h_25 hq => obtain ⟨h1, rfl⟩ := uopB3_next h; exact .b3 hq h1
  case h_26 hq => injection h with h; rw [← h]; exact .b4 hq
  case h_27 hq => injection h with h; rw [← h]; exact .b5 hq
  case h_28 hq =>
    rcases loopHead_next h with ⟨h1, rfl⟩ | ⟨h1, h2, h3, h4, rfl⟩ | ⟨h1, h2, h3, rfl⟩
    · exact .loopEnd (.inr hq) h1
    · exact .loopCr .g0 .a0 (.inr ⟨hq, rfl, rfl⟩) h1 h2 h3 h4
    · exact .loopChar .g0 .a0 (.inr ⟨hq, rfl, rfl⟩) h1 h2 h3

/-- What the µop that `hpc` names does to the state (spec R157 to R159, R161 to R163). -/
inductive HandlerMove (s : State) : State → Prop
  | none (h : s.hpc = .none) : HandlerMove s s
  | h0full (h : s.hpc = .h0) (hf : fullP s.N s.rx = true) : HandlerMove s
      { s with regs := { s.regs with rxIe := false }, hpc := .none, ctx := .caller }
  | h0room (h : s.hpc = .h0) (hf : fullP s.N s.rx = false) : HandlerMove s { s with hpc := .h1 }
  | h1 (h : s.hpc = .h1) (hlt : s.rx.wr < s.N) : HandlerMove s
      { (dataRead s).2 with
        hb := (dataRead s).1
        rx := { s.rx with mem := Memory.setZ s.rx.mem s.rx.wr (dataRead s).1 }.advanceWr s.N
        hpc := .h2 }
  | h2 (h : s.hpc = .h2) (hr : s.regs.txReady = true) : HandlerMove s { s with hpc := .h3 }
  | h2spin (h : s.hpc = .h2) (hr : s.regs.txReady = false) : HandlerMove s s
  | h3 (h : s.hpc = .h3) : HandlerMove s { dataWrite s.hb s with hpc := .h4 }
  | h4 (h : s.hpc = .h4) : HandlerMove s
      { s with regs := { s.regs with rxIe := true }, hpc := .none, ctx := .caller }
  | w0empty (h : s.hpc = .w0) (hf : emptyC s.tx = true) : HandlerMove s
      { s with regs := { s.regs with txIe := false }, hpc := .none, ctx := .caller }
  | w0data (h : s.hpc = .w0) (hf : emptyC s.tx = false) : HandlerMove s { s with hpc := .w1 }
  | w1 (h : s.hpc = .w1) (hlt : s.tx.rd < s.N) : HandlerMove s
      { dataWrite (s.byteAt .txm s.tx.rd) s with tx := s.tx.advanceRd s.N, hpc := .w2 }
  | w2 (h : s.hpc = .w2) : HandlerMove s
      { s with regs := { s.regs with txIe := true }, hpc := .none, ctx := .caller }

theorem handlerUop_move {s t : State} (h : handlerUop s = some t) : HandlerMove s t := by
  unfold handlerUop at h
  split at h
  case h_1 hq => injection h with h; rw [← h]; exact .none hq
  case h_2 hq =>
    injection h with h
    rw [← h, uopH0]
    split
    · next hf => exact .h0full hq hf
    · next hf => exact .h0room hq (by simpa using hf)
  case h_3 hq => obtain ⟨h1, rfl⟩ := uopH1_next h; exact .h1 hq h1
  case h_4 hq =>
    injection h with h
    rw [← h, uopH2]
    split
    · next hr => exact .h2 hq hr
    · next hr => exact .h2spin hq (by simpa using hr)
  case h_5 hq => injection h with h; rw [← h]; exact .h3 hq
  case h_6 hq => injection h with h; rw [← h]; exact .h4 hq
  case h_7 hq =>
    injection h with h
    rw [← h, uopW0]
    split
    · next hf => exact .w0empty hq hf
    · next hf => exact .w0data hq (by simpa using hf)
  case h_8 hq => obtain ⟨h1, rfl⟩ := uopW1_next h; exact .w1 hq h1
  case h_9 hq => injection h with h; rw [← h]; exact .w2 hq

/-- What the effect at issue of an operation other than `INIT` does to the state (spec R91 to R94, R120, R122, R124, R128,
R129, R135, R140, R145, R148, R149). -/
inductive EffectMove (s : State) : Instr → State → Prop
  | send (b : Byte) : EffectMove s (.send b) { s with opb := b, ret := .done, cpc := .s0 }
  | recv : EffectMove s .recv { s with cpc := .r0 }
  | sendf : EffectMove s .sendf { s with fi := 0, crp := false, cpc := .f0 }
  | senda (b : Byte) : EffectMove s (.senda b) { s with opb := b, ret := .done, cpc := .a0 }
  | recva : EffectMove s .recva { s with cpc := .b0 }
  | sendfa : EffectMove s .sendfa { s with fi := 0, crp := false, cpc := .g0 }
  | irqen : EffectMove s .irqen { s with regs := { s.regs with lineEn := true } }
  | irqdis : EffectMove s .irqdis { s with regs := { s.regs with lineEn := false } }
  | putRxOwner (b : Byte) (ho : s.regs.rxIe = true) :
      EffectMove s (.putRx b) { s with opb := b, fault := s.fault ||| FaultBit.owner.mask }
  | putRxFull (b : Byte) (ho : s.regs.rxIe = false) (hf : fullP s.N s.rx = true) :
      EffectMove s (.putRx b) { s with opb := b, ok := false }
  | putRx (b : Byte) (ho : s.regs.rxIe = false) (hf : fullP s.N s.rx = false) (hlt : s.rx.wr < s.N) :
      EffectMove s (.putRx b)
        { s with opb := b, ok := true, rx := { s.rx with mem := Memory.setZ s.rx.mem s.rx.wr b }.advanceWr s.N }
  | putTxFull (b : Byte) (hf : fullP s.N s.tx = true) : EffectMove s (.putTx b) { s with opb := b, ok := false }
  | putTx (b : Byte) (hf : fullP s.N s.tx = false) (hlt : s.tx.wr < s.N) :
      EffectMove s (.putTx b)
        { s with opb := b, ok := true, tx := { s.tx with mem := Memory.setZ s.tx.mem s.tx.wr b }.advanceWr s.N }
  | getRxEmpty (hf : emptyC s.rx = true) : EffectMove s .getRx { s with ok := false }
  | getRx (hf : emptyC s.rx = false) (hlt : s.rx.rd < s.N) :
      EffectMove s .getRx { s with ok := true, res := s.byteAt .rxm s.rx.rd, rx := s.rx.advanceRd s.N }
  | getTxOwner (ho : s.regs.txIe = true) : EffectMove s .getTx { s with fault := s.fault ||| FaultBit.owner.mask }
  | getTxEmpty (ho : s.regs.txIe = false) (hf : emptyC s.tx = true) : EffectMove s .getTx { s with ok := false }
  | getTx (ho : s.regs.txIe = false) (hf : emptyC s.tx = false) (hlt : s.tx.rd < s.N) :
      EffectMove s .getTx { s with ok := true, res := s.byteAt .txm s.tx.rd, tx := s.tx.advanceRd s.N }
  | fmtclr : EffectMove s .fmtclr { s with fmtLen := 0 }
  | fmtchFull (b : Byte) (hf : s.fmtLen = s.params.fmtMax) :
      EffectMove s (.fmtch b) { s with opb := b, fault := s.fault ||| FaultBit.fmtlen.mask }
  | fmtch (b : Byte) (hf : s.fmtLen ≠ s.params.fmtMax) (hlt : s.fmtLen < s.params.fmtMax) :
      EffectMove s (.fmtch b) { s with opb := b, fmtLen := s.fmtLen + 1, fmtBuf := Memory.set s.fmtBuf s.fmtLen b }

theorem effectOf_move {i : Instr} {s t : State} (hp : isPlain i = true) (h : effectOf i s = some t) :
    EffectMove s i t := by
  cases i <;> simp only [isPlain, Bool.false_eq_true] at hp <;> simp only [effectOf] at h
  case send b => injection h with h; rw [← h]; exact .send b
  case recv => injection h with h; rw [← h]; exact .recv
  case sendf => injection h with h; rw [← h]; exact .sendf
  case senda b => injection h with h; rw [← h]; exact .senda b
  case recva => injection h with h; rw [← h]; exact .recva
  case sendfa => injection h with h; rw [← h]; exact .sendfa
  case irqen => injection h with h; rw [← h]; exact .irqen
  case irqdis => injection h with h; rw [← h]; exact .irqdis
  case putRx b =>
    split at h
    · next ho => injection h with h; rw [← h]; exact .putRxOwner b ho
    · next ho =>
      rcases putOk_next h with ⟨hf, rfl⟩ | ⟨hf, hlt, rfl⟩
      · exact .putRxFull b (by simpa using ho) hf
      · exact .putRx b (by simpa using ho) hf hlt
  case putTx b =>
    rcases putOk_next h with ⟨hf, rfl⟩ | ⟨hf, hlt, rfl⟩
    · exact .putTxFull b hf
    · exact .putTx b hf hlt
  case getRx =>
    rcases getOk_next h with ⟨hf, rfl⟩ | ⟨hf, hlt, rfl⟩
    · exact .getRxEmpty hf
    · exact .getRx hf hlt
  case getTx =>
    split at h
    · next ho => injection h with h; rw [← h]; exact .getTxOwner ho
    · next ho =>
      rcases getOk_next h with ⟨hf, rfl⟩ | ⟨hf, hlt, rfl⟩
      · exact .getTxEmpty (by simpa using ho) hf
      · exact .getTx (by simpa using ho) hf hlt
  case fmtclr => injection h with h; rw [← h]; exact .fmtclr
  case fmtch b =>
    split at h
    · next hf => injection h with h; rw [← h]; exact .fmtchFull b hf
    · next hf =>
      split at h
      · cases h
      · next u hu =>
        obtain ⟨hlt, rfl⟩ := memWrite_eq_some.1 hu
        injection h with h
        rw [← h]
        exact .fmtch b hf hlt

/-- What `LineRx(b)` does to the state (spec R112). -/
theorem lineRxStep_cases (b : Byte) (s : State) :
    lineRxStep b s = s ∨
    (s.inited = true ∧ s.regs.rxEn = true ∧ s.regs.rxReady = true ∧ lineRxStep b s = { s with rxLost := s.rxLost + 1 }) ∨
    (s.inited = true ∧ s.regs.rxEn = true ∧ s.regs.rxReady = false ∧
      lineRxStep b s = { s with regs := { s.regs with rxHold := b, rxReady := true } }) := by
  unfold lineRxStep lineRxEnabled
  cases h1 : s.inited <;> cases h2 : s.regs.rxEn <;> cases h3 : s.regs.rxReady <;> simp

/-- What `LineTx` does to the state (spec R113). -/
theorem lineTxStep_cases (s : State) :
    lineTxStep s = s ∨
    (s.inited = true ∧ s.regs.txEn = true ∧ s.regs.txReady = false ∧
      lineTxStep s = { s with lineOut := s.lineOut ++ [s.regs.txHold], regs := { s.regs with txReady := true } }) := by
  unfold lineTxStep lineTxEnabled
  cases h1 : s.inited <;> cases h2 : s.regs.txEn <;> cases h3 : s.regs.txReady <;> simp

/-- Only a reset step changes the seed of the scratch buffer's free contents, and it takes a new one (spec R36, log 5). -/
theorem step_seed {s t : State} (h : step s = .next t) :
    t.seed = s.seed ∨ s.sched.head? = some .reset ∧ t.seed = s.seed + 1 := by
  obtain ⟨p, _, hm⟩ := step_move h
  cases hm with
  | effect i _ _ _ _ hp _ he => left; cases effectOf_move hp he <;> simp
  | uop _ _ hi hu => left; cases callerUop_move hi hu <;> simp
  | handler _ _ hu => left; cases handlerUop_move hu <;> simp
  | lineRx b =>
    left
    rcases lineRxStep_cases b { s with prog := p, sched := s.sched.tail } with h | ⟨_, _, _, h⟩ | ⟨_, _, _, h⟩ <;> rw [h]
  | lineTx =>
    left
    rcases lineTxStep_cases { s with prog := p, sched := s.sched.tail } with h | ⟨_, _, _, h⟩ <;> rw [h]
  | reset he => exact .inr ⟨he, rfl⟩
  | wait => exact .inl rfl
  | illegal _ => exact .inl rfl
  | preinit _ => exact .inl rfl
  | initStart _ _ _ => exact .inl rfl
  | dispatched _ _ _ _ _ => exact .inl rfl
  | called _ _ _ _ _ _ => exact .inl rfl

end Sys2Proof.Machine
end

