-- ==== Sys2Proof/Laws/Fifo.lean ====
section
/-! SUPPORT. What the ring primitives do to the unread bytes of a ring: a put appends, a get takes the first. -/

namespace Sys2Proof.Machine

theorem unread_length (n : Nat) (x : Ring) : (unread n x).length = occ n x := by simp [unread]

theorem unread_congr {n : Nat} {x y : Ring} (hw : x.wr = y.wr) (hr : x.rd = y.rd) (hm : x.mem = y.mem) :
    unread n x = unread n y := by
  simp [unread, occ, hw, hr, hm]

/-- The index of the k-th unread byte is not the write cursor. -/
theorem unread_index_ne {n k : Nat} {x : Ring} (hw : x.wr < n) (hr : x.rd < n) (hk : k < occ n x) :
    (x.rd + k) % n ≠ x.wr := by
  have h1 := occ_spec hw hr
  by_cases h : x.rd + k < n
  · rw [Nat.mod_eq_of_lt h]; omega
  · rw [Nat.mod_eq_sub_mod (by omega), Nat.mod_eq_of_lt (by omega)]; omega

/-- The index after the last unread byte is the write cursor. -/
theorem unread_index_end {n : Nat} {x : Ring} (hw : x.wr < n) (hr : x.rd < n) : (x.rd + occ n x) % n = x.wr := by
  have h1 := occ_spec hw hr
  by_cases h : x.rd + occ n x < n
  · rw [Nat.mod_eq_of_lt h]; omega
  · rw [Nat.mod_eq_sub_mod (by omega), Nat.mod_eq_of_lt (by omega)]; omega

/-- Storing a byte at the write cursor changes no unread byte (spec R137: the slot is free until it is published). -/
theorem unread_store {n : Nat} {x : Ring} (b : Byte) (hw : x.wr < n) (hr : x.rd < n) :
    unread n { x with mem := Memory.setZ x.mem x.wr b } = unread n x := by
  unfold unread
  refine List.map_congr_left fun k hk => ?_
  exact Memory.getZ_setZ_other _ _ _ _ (unread_index_ne hw hr (by simpa [occ] using hk))

/-- Advancing the write cursor of a ring that is not full publishes the byte stored there, as the newest. -/
theorem unread_advanceWr {n : Nat} {x : Ring} (hw : x.wr < n) (hr : x.rd < n) (h : inc n x.wr ≠ x.rd) :
    unread n (x.advanceWr n) = unread n x ++ [Memory.getZ x.mem x.wr] := by
  unfold unread
  rw [occ_advanceWr hw hr h, List.range_succ, List.map_append]
  simp [unread_index_end hw hr]

/-- Advancing the read cursor of a ring that is not empty drops the oldest unread byte. -/
theorem unread_advanceRd {n : Nat} {x : Ring} (hw : x.wr < n) (hr : x.rd < n) (h : x.wr ≠ x.rd) :
    unread n x = Memory.getZ x.mem x.rd :: unread n (x.advanceRd n) := by
  unfold unread
  rw [← occ_advanceRd hw hr h, List.range_succ_eq_map, List.map_cons, List.map_map]
  refine congrArg₂ _ (by simp [Nat.mod_eq_of_lt hr]) (List.map_congr_left fun k _ => ?_)
  simp only [Function.comp, Ring.advanceRd_mem, Ring.advanceRd_rd, inc]
  congr 1
  rw [Nat.mod_add_mod]
  congr 1
  omega

/-- A put on a ring with room appends the byte. -/
theorem unread_put {n : Nat} {x : Ring} (b : Byte) (hw : x.wr < n) (hr : x.rd < n) (h : inc n x.wr ≠ x.rd) :
    unread n ({ x with mem := Memory.setZ x.mem x.wr b }.advanceWr n) = unread n x ++ [b] := by
  rw [unread_advanceWr (x := { x with mem := Memory.setZ x.mem x.wr b }) hw hr h, unread_store b hw hr]
  simp

/-- The state invariant does not speak of the two queues. -/
theorem Inv.queues {s : State} (h : Inv s) (p : List Request) (e : List Event) : Inv { s with prog := p, sched := e } :=
  ⟨⟨h.range.rxWr, h.range.rxRd, h.range.txWr, h.range.txRd, h.range.fmtLen, h.range.cnt, h.range.fi⟩, h.loop, h.memory,
    h.coherent, h.context, h.bracket, ⟨h.guards.queue, h.guards.consume, h.guards.rxh, h.guards.txh⟩,
    ⟨h.boot.caller, h.boot.seq, h.boot.rings, h.boot.sources, h.boot.logs, h.boot.once⟩, h.lineLog⟩

theorem unread_eq_nil {n : Nat} {x : Ring} (hw : x.wr < n) (hr : x.rd < n) : unread n x = [] ↔ x.wr = x.rd := by
  rw [← List.length_eq_zero_iff, unread_length, occ_zero_iff hw hr]

end Sys2Proof.Machine
end

