-- ==== Sys2Proof/Laws/PerInstr.lean ====
section
/-! SUPPORT. Statements for all instructions, one lemma per constructor of `Instr`. -/

namespace Sys2Proof.Laws.TableRow

open Sys2Proof

/-- The word of the operation matches the row of the opcode table that has its mnemonic, its opcode and its port (spec R61,
R63). -/
def Statement (i : Instr) : Prop :=
  ∃ r ∈ opTable, r.mnemonic = i.mnemonic ∧ r.opcode = i.opcode ∧ r.port = i.port ∧ r.hits (encode i) = true

/-- A row with the operation's opcode matches its word when the row takes an operand or the operation has none. -/
theorem hits_encode {r : OpRow} {i : Instr} (h : r.opcode = i.opcode) (h2 : r.format = .B ∨ i.imm = 0) :
    r.hits (encode i) = true := by
  rw [OpRow.hits_iff]
  unfold encode
  rw [opField_join, immField_join]
  refine ⟨h.symm, fun hz => ?_⟩
  rcases h2 with h2 | h2
  · rw [hz] at h2; cases h2
  · exact h2

/-- The statement from a row of the table. -/
theorem of_row (r : OpRow) {i : Instr} (hm : r ∈ opTable)
    (h : r.mnemonic = i.mnemonic ∧ r.opcode = i.opcode ∧ r.port = i.port) (h2 : r.format = .B ∨ i.imm = 0) :
    Statement i := ⟨r, hm, h.1, h.2.1, h.2.2, hits_encode h.2.1 h2⟩

theorem init : Statement .init :=
  of_row ⟨"INIT", .Z, 0x01, .command⟩ (by decide) ⟨rfl, rfl, rfl⟩ (.inr rfl)
theorem send (b : Byte) : Statement (.send b) :=
  of_row ⟨"SEND", .B, 0x02, .command⟩ (by decide) ⟨rfl, rfl, rfl⟩ (.inl rfl)
theorem recv : Statement .recv :=
  of_row ⟨"RECV", .Z, 0x03, .command⟩ (by decide) ⟨rfl, rfl, rfl⟩ (.inr rfl)
theorem sendf : Statement .sendf :=
  of_row ⟨"SENDF", .Z, 0x04, .command⟩ (by decide) ⟨rfl, rfl, rfl⟩ (.inr rfl)
theorem senda (b : Byte) : Statement (.senda b) :=
  of_row ⟨"SENDA", .B, 0x05, .command⟩ (by decide) ⟨rfl, rfl, rfl⟩ (.inl rfl)
theorem recva : Statement .recva :=
  of_row ⟨"RECVA", .Z, 0x06, .command⟩ (by decide) ⟨rfl, rfl, rfl⟩ (.inr rfl)
theorem sendfa : Statement .sendfa :=
  of_row ⟨"SENDFA", .Z, 0x07, .command⟩ (by decide) ⟨rfl, rfl, rfl⟩ (.inr rfl)
theorem irqen : Statement .irqen :=
  of_row ⟨"IRQEN", .Z, 0x08, .command⟩ (by decide) ⟨rfl, rfl, rfl⟩ (.inr rfl)
theorem irqdis : Statement .irqdis :=
  of_row ⟨"IRQDIS", .Z, 0x09, .command⟩ (by decide) ⟨rfl, rfl, rfl⟩ (.inr rfl)
theorem rxh : Statement .rxh :=
  of_row ⟨"RXH", .Z, 0x10, .dispatch⟩ (by decide) ⟨rfl, rfl, rfl⟩ (.inr rfl)
theorem txh : Statement .txh :=
  of_row ⟨"TXH", .Z, 0x11, .dispatch⟩ (by decide) ⟨rfl, rfl, rfl⟩ (.inr rfl)
theorem putRx (b : Byte) : Statement (.putRx b) :=
  of_row ⟨"PUT.RX", .B, 0x20, .ring⟩ (by decide) ⟨rfl, rfl, rfl⟩ (.inl rfl)
theorem putTx (b : Byte) : Statement (.putTx b) :=
  of_row ⟨"PUT.TX", .B, 0x21, .ring⟩ (by decide) ⟨rfl, rfl, rfl⟩ (.inl rfl)
theorem getRx : Statement .getRx :=
  of_row ⟨"GET.RX", .Z, 0x22, .ring⟩ (by decide) ⟨rfl, rfl, rfl⟩ (.inr rfl)
theorem getTx : Statement .getTx :=
  of_row ⟨"GET.TX", .Z, 0x23, .ring⟩ (by decide) ⟨rfl, rfl, rfl⟩ (.inr rfl)
theorem fmtclr : Statement .fmtclr :=
  of_row ⟨"FMTCLR", .Z, 0x30, .renderer⟩ (by decide) ⟨rfl, rfl, rfl⟩ (.inr rfl)
theorem fmtch (b : Byte) : Statement (.fmtch b) :=
  of_row ⟨"FMTCH", .B, 0x31, .renderer⟩ (by decide) ⟨rfl, rfl, rfl⟩ (.inl rfl)

end Sys2Proof.Laws.TableRow
end

