-- ==== Sys2Proof/Tests/Slice0.lean ====
section
/-! SUPPORT. Tests: ill-formed terms refused, one word of every operation written out from the spec's encoding, one step of
each operation with a result the spec's rules or vectors give, and a witness for the hypotheses of every obligation. -/

namespace Sys2Proof.Tests

open Sys2Proof Sys2Proof.Machine

/-! ### Helpers -/

/-- The outcome is a next state with a property. -/
def ck (o : StepOut) (p : State → Bool) : Bool :=
  match o with
  | .next s => p s
  | .fault _ => false
  | .refused _ => false

theorem ck_next {o : StepOut} {p : State → Bool} (h : ck o p = true) : ∃ t, o = .next t ∧ p t = true := by
  unfold ck at h
  split at h
  · exact ⟨_, rfl, h⟩
  · cases h
  · cases h

/-- BOOT(4) of 95_test_vectors.md: after `INIT` and `IRQEN`. -/
def boot : State :=
  { State.reset with
    inited := true
    regs :=
      { State.reset.regs with
        periphEn := true, txEn := true, rxEn := true, dsize := 8, txReady := true, lineEn := true, pinFuncTx := .altUart,
        pinFuncRx := .altUart, pinPullTx := .none, pinPullRx := .none } }

/-- BOOT(4) at a caller µ-state. -/
def atC (q : CState) : State := { boot with cpc := q }

/-- BOOT(4) at a handler µ-state. -/
def atH (q : HState) : State := { boot with ctx := .handler, hpc := q }

/-- A ring with these cursors, exact Gray copies and these bytes. -/
def ringOf (wr rd : Nat) (mem : List Host.Cell) : Ring := ⟨wr, rd, gray wr, gray rd, mem⟩

/-- A request on the port that accepts the word. -/
def req (w : Word) : Request := ⟨callerPortOf w, w⟩

/-! ### Well-formedness -/

theorem test_params_ok : Config.params.wf = true := by decide
/-- `K >= 1` (R4). -/
theorem test_params_K_zero : Params.wf { Config.params with K := 0 } = false := by decide
/-- `REG_MAP` is injective (R46). -/
theorem test_params_regMap_repeats : Params.wf { Config.params with regMap := List.replicate 12 7 } = false := by decide
/-- `REG_MAP` has one address for each of `REG0` to `REG11` (R20). -/
theorem test_params_regMap_short : Params.wf { Config.params with regMap := List.range 11 } = false := by decide
/-- A ring-port operation on the command port is ill formed (R60). -/
theorem test_port_wrong : Instr.wfOn .command (.putRx 0x11) = false := by decide
/-- A handler operation in a program of the `Caller` is ill formed (R64). -/
theorem test_program_handler : Instr.wfProgram [(.command, .init), (.command, .rxh)] = false := by decide
theorem test_program_ok : Instr.wfProgram [(.command, .init), (.ring, .getTx), (.renderer, .fmtclr)] = true := by decide

/-! ### Decoding: each word bit by bit, `op` then `imm` (R60, R61, R63, V12) -/

theorem test_word_init : decode 0b00000001_00000000#16 = .ok .init := by decide
theorem test_word_send : decode 0b00000010_01000001#16 = .ok (.send 0x41) := by decide
theorem test_word_recv : decode 0b00000011_00000000#16 = .ok .recv := by decide
theorem test_word_sendf : decode 0b00000100_00000000#16 = .ok .sendf := by decide
theorem test_word_senda : decode 0b00000101_00001010#16 = .ok (.senda 0x0A) := by decide
theorem test_word_recva : decode 0b00000110_00000000#16 = .ok .recva := by decide
theorem test_word_sendfa : decode 0b00000111_00000000#16 = .ok .sendfa := by decide
theorem test_word_irqen : decode 0b00001000_00000000#16 = .ok .irqen := by decide
theorem test_word_irqdis : decode 0b00001001_00000000#16 = .ok .irqdis := by decide
theorem test_word_rxh : decode 0b00010000_00000000#16 = .ok .rxh := by decide
theorem test_word_txh : decode 0b00010001_00000000#16 = .ok .txh := by decide
theorem test_word_putRx : decode 0b00100000_01011010#16 = .ok (.putRx 0x5A) := by decide
theorem test_word_putTx : decode 0b00100001_11111111#16 = .ok (.putTx 0xFF) := by decide
theorem test_word_getRx : decode 0b00100010_00000000#16 = .ok .getRx := by decide
theorem test_word_getTx : decode 0b00100011_00000000#16 = .ok .getTx := by decide
theorem test_word_fmtclr : decode 0b00110000_00000000#16 = .ok .fmtclr := by decide
theorem test_word_fmtch : decode 0b00110001_10000000#16 = .ok (.fmtch 0x80) := by decide
/-- V13. -/
theorem test_word_getRx_imm : decode 0x2201 = .error .nonzeroImm := by decide
/-- V13: a handler word on a caller-side port. -/
theorem test_word_rxh_command : decodeOn .command 0x1000 = .error .wrongPort := by decide
/-- The table's numbering: the word is one value, with no byte order (R42). -/
theorem test_tableWord : decodeTableWord 16 0x0241 = some (.send 0x41) := by decide

/-! ### One step of each operation -/

/-- The very next step issues an offered word: `INIT` from reset (R66, R101). -/
theorem test_fetch_init : ck (step (State.reset.withFetchWord 16 0x0100)) (fun t => t.cpc == .i1 && t.fault == 0) = true := by
  decide
/-- V15: `SEND` before `INIT` raises `F_PREINIT`; `opb` is not written. -/
theorem test_fetch_preinit :
    ck (step (State.reset.withFetchWord 16 0x0241)) (fun t => t.fault == 0b000010 && t.opb == 0 && t.cpc == .idle) = true := by
  decide
/-- V15: a direct call before `INIT`. -/
theorem test_fetch_call_preinit :
    ck (step (State.reset.withFetchWord 16 0x1000)) (fun t => t.fault == 0b000010 && t.ctx == .caller) = true := by decide
/-- V15: a second `INIT`. -/
theorem test_init_twice : ck (exec .init boot) (fun t => t.fault == 0b000010 && t.cpc == .idle) = true := by decide
/-- V13: an illegal word sets bit 0 of `FAULT`. -/
theorem test_illegal_word :
    ck (step { boot with prog := [⟨.command, 0x0301⟩] }) (fun t => t.fault == 0b000001 && t.cpc == .idle) = true := by decide
/-- V14, `I4`. -/
theorem test_init_i4 :
    ck (step (atC .i4)) (fun t => t.regs.dsize == 8 && !t.regs.flowEn && !t.regs.fifoEn && t.cpc == .i5) = true := by decide
/-- V14, `I7`. -/
theorem test_init_i7 :
    ck (step { State.reset with cpc := .i7 }) (fun t => t.inited && t.regs.txReady && !t.regs.rxReady && t.regs.txEn) = true := by
  decide
/-- R120. -/
theorem test_send_issue : ck (exec (.send 0x0D) boot) (fun t => t.opb == 0x0D && t.cpc == .s0 && t.ret == .done) = true := by
  decide
/-- V34: `S1` writes regardless of the transmitter, and the overrun is recorded in bit 2. -/
theorem test_send_overrun :
    ck (step { atC .s1 with opb := 0x58, txLog := [0x71], regs := { boot.regs with txReady := false, txHold := 0x71 } })
      (fun t => t.fault == 0b000100 && t.txLog == [0x71, 0x58] && t.regs.txHold == 0x58) = true := by decide
/-- V20: 0x0D becomes 0x0A. -/
theorem test_recv_translates :
    ck (step { atC .r1 with regs := { boot.regs with rxReady := true, rxHold := 0x0D } })
      (fun t => t.res == 0x0A && !t.regs.rxReady && t.cpc == .idle) = true := by decide
/-- V35: a read of an empty receiver sets bit 3 and draws a free value. -/
theorem test_recv_underrun : ck (step (atC .r1)) (fun t => t.fault == 0b001000 && t.draws == 1) = true := by decide
/-- V21: a newline is preceded by a carriage return, without advancing the index. -/
theorem test_sendf_newline :
    ck (step { atC .f0 with fi := 1, fmtLen := 3, fmtBuf := [(0, 0x41), (1, 0x0A), (2, 0x42)] })
      (fun t => t.opb == 0x0D && t.crp && t.fi == 1 && t.cpc == .s0 && t.ret == .f0) = true := by decide
/-- V21: then the newline itself. -/
theorem test_sendf_newline_itself :
    ck (step { atC .f0 with fi := 1, crp := true, fmtLen := 3, fmtBuf := [(0, 0x41), (1, 0x0A), (2, 0x42)] })
      (fun t => t.opb == 0x0A && !t.crp && t.fi == 2) = true := by decide
/-- V24: `SENDA` on a full ring waits by way of `A0E`. -/
theorem test_senda_full : ck (step { atC .a0 with tx := ringOf 3 0 [] }) (fun t => t.cpc == .a0e) = true := by decide
/-- P1: the write cursor wraps from 3 to 0, its Gray copy to 00. -/
theorem test_senda_wrap : ck (step { atC .a3 with tx := ringOf 3 1 [] }) (fun t => t.tx.wr == 0 && t.tx.wrGs == 0) = true := by
  decide
/-- The example of R140: no translation. -/
theorem test_recva_load :
    ck (step { atC .b3 with rx := ringOf 2 1 [(1, 0x0D)] }) (fun t => t.res == 0x0D && t.rx.rd == 1) = true := by decide
/-- The end of the loop of R146 returns the number of characters. -/
theorem test_sendfa_end : ck (step { atC .g0 with fi := 3, fmtLen := 3 }) (fun t => t.cnt == 3 && t.cpc == .idle) = true := by
  decide
/-- The example of R148. -/
theorem test_irqen :
    ck (exec .irqen { boot with regs := { boot.regs with lineEn := false } }) (fun t => t.regs.lineEn && !t.regs.rxIe) = true := by
  decide
/-- The example of R149. -/
theorem test_irqdis : ck (exec .irqdis boot) (fun t => !t.regs.lineEn) = true := by decide
/-- V17, `H1`: the byte is stored at the boundary index and the cursor wraps. -/
theorem test_rxh_wrap :
    ck (step { atH .h1 with
      rx := ringOf 3 1 [(1, 0x11), (2, 0x22)], regs := { boot.regs with rxReady := true, rxHold := 0x62 } })
      (fun t => t.rx == ringOf 0 1 [(1, 0x11), (2, 0x22), (3, 0x62)] && t.hb == 0x62 && !t.regs.rxReady) = true := by decide
/-- V30, `H0` on a full ring: the source is disabled, the byte is not read. -/
theorem test_rxh_full :
    ck (step { atH .h0 with
      rx := ringOf 0 1 [], regs := { boot.regs with rxIe := true, rxReady := true, rxHold := 0x63 } })
      (fun t => !t.regs.rxIe && t.ctx == .caller && t.hpc == .none && t.regs.rxReady && t.regs.rxHold == 0x63) = true := by decide
/-- V31, `W0` on an empty ring. -/
theorem test_txh_empty :
    ck (step { atH .w0 with tx := ringOf 2 2 [], regs := { boot.regs with txIe := true } })
      (fun t => !t.regs.txIe && t.tx == ringOf 2 2 [] && t.txLog == [] && t.ctx == .caller) = true := by decide
/-- V32, `W1`: the read cursor wraps from 3 to 0. -/
theorem test_txh_wrap :
    ck (step { atH .w1 with tx := ringOf 1 3 [(0, 0x64), (3, 0x63)] })
      (fun t => t.txLog == [0x63] && t.tx.rd == 0 && t.tx.rdGs == 0 && t.hpc == .w2) = true := by decide
/-- The example of R91. -/
theorem test_putRx :
    ck (exec (.putRx 0x5A) { boot with rx := ringOf 3 1 [] })
      (fun t => t.rx == ringOf 0 1 [(3, 0x5A)] && t.ok && occ t.N t.rx == 3) = true := by decide
/-- V10 (a): `F_OWNER` is bit 5; the operand is taken, `ok` keeps its value. -/
theorem test_putRx_owner :
    ck (exec (.putRx 0x55) { boot with ok := true, regs := { boot.regs with rxIe := true } })
      (fun t => t.fault == 0b100000 && t.ok && t.opb == 0x55 && t.rx == Ring.zero) = true := by decide
/-- The example of R92: a put on a full ring. -/
theorem test_putTx_full :
    ck (exec (.putTx 0x01) { boot with tx := ringOf 0 1 [] }) (fun t => !t.ok && t.tx == ringOf 0 1 [] && t.fault == 0) = true := by
  decide
/-- V6. -/
theorem test_putTx : ck (exec (.putTx 0x11) boot) (fun t => t.ok && t.tx == ringOf 1 0 [(0, 0x11)]) = true := by decide
/-- The example of R93. -/
theorem test_getRx :
    ck (exec .getRx { boot with rx := ringOf 0 3 [(3, 0x5A)] })
      (fun t => t.res == 0x5A && t.rx == ringOf 0 0 [(3, 0x5A)] && t.ok) = true := by decide
/-- The example of R94. -/
theorem test_getTx :
    ck (exec .getTx { boot with tx := ringOf 2 0 [(0, 0x61)] })
      (fun t => t.res == 0x61 && t.tx.rd == 1 && t.tx.rdGs == 1 && t.ok && t.txLog == []) = true := by decide
/-- V9: a get on an empty ring. -/
theorem test_getTx_empty : ck (exec .getTx { boot with res := 0x44 }) (fun t => t.res == 0x44 && !t.ok && t.fault == 0) = true := by
  decide
/-- R128. -/
theorem test_fmtclr : ck (exec .fmtclr { boot with fmtLen := 3 }) (fun t => t.fmtLen == 0) = true := by decide
/-- V22: the character beyond `FMT_MAX` is dropped, with bit 4. -/
theorem test_fmtch_full :
    ck (exec (.fmtch 0x65) { boot with fmtLen := 4 }) (fun t => t.fault == 0b010000 && t.fmtLen == 4 && t.opb == 0x65) = true := by
  decide
theorem test_fmtch : ck (exec (.fmtch 0x61) boot) (fun t => t.fmtLen == 1 && t.byteAt .fmt 0 == 0x61) = true := by decide

/-! ### The agents, the Gray code, the flags -/

/-- V16: the arriving byte is lost when the receiver is occupied. -/
theorem test_lineRx_lost :
    ck (step { boot with sched := [.lineRx 0x64], regs := { boot.regs with rxReady := true, rxHold := 0x63 } })
      (fun t => t.rxLost == 1 && t.regs.rxHold == 0x63) = true := by decide
/-- V16: `LineTx` is not enabled while the transmitter is ready. -/
theorem test_lineTx_ready : ck (step { boot with sched := [.lineTx] }) (fun t => t.lineOut == [] && t.sched == []) = true := by
  decide
/-- V37: dispatch of `RXH`. -/
theorem test_dispatch :
    ck (step { boot with sched := [.dispatch 0x1000], regs := { boot.regs with rxIe := true, rxReady := true } })
      (fun t => t.ctx == .handler && t.hpc == .h0) = true := by decide
/-- V37: `LINE_EN=0` removes the step. -/
theorem test_dispatch_masked :
    ck (step { boot with
      sched := [.dispatch 0x1000], regs := { boot.regs with rxIe := true, rxReady := true, lineEn := false } })
      (fun t => t.ctx == .caller) = true := by decide
/-- R200: reset abandons a handler and clears the rings and the fault register. -/
theorem test_reset :
    ck (step { atH .h2 with sched := [.reset], rx := ringOf 3 1 [(2, 0x22)], fault := 0b111111 })
      (fun t => t.rx == Ring.zero && t.fault == 0 && t.ctx == .caller && t.hpc == .none && !t.inited && t.txLog == []) = true := by
  decide
/-- V2: the Gray table for `K = 3`. -/
theorem test_gray : (List.range 8).map gray = [0b000, 0b001, 0b011, 0b010, 0b110, 0b111, 0b101, 0b100] := by decide
theorem test_ungray : (List.range 8).map (fun c => ungray 3 (gray c)) = List.range 8 := by decide
/-- V5: occupancy for every pair of cursors, `N = 4`, rows `wr`, columns `rd`. -/
theorem test_occ :
    (List.range 4).map (fun w => (List.range 4).map fun r => occ 4 (ringOf w r [])) =
      [[0, 3, 2, 1], [1, 0, 3, 2], [2, 1, 0, 3], [3, 2, 1, 0]] := by decide
/-- V5: full exactly on the cells marked F. -/
theorem test_full :
    (List.range 4).map (fun w => (List.range 4).map fun r => fullP 4 (ringOf w r [])) =
      [[false, true, false, false], [false, false, true, false], [false, false, false, true],
        [true, false, false, false]] := by decide

/-! ### Witnesses for the hypotheses of the obligations -/

/-- The state invariant as one decidable proposition. -/
theorem inv_of {s : State}
    (h : (s.rx.wr < s.N ∧ s.rx.rd < s.N ∧ s.tx.wr < s.N ∧ s.tx.rd < s.N ∧ s.fmtLen ≤ s.params.fmtMax ∧
        s.cnt < 2 ^ (s.params.K + 1) ∧ s.fi < 2 ^ (s.params.K + 1)) ∧
      (inLoop s = true → s.fi ≤ s.fmtLen ∧ (s.crp = true → s.fi < s.fmtLen)) ∧
      Memory.wf s = true ∧
      (s.rx.wrGs = gray s.rx.wr ∧ s.rx.rdGs = gray s.rx.rd ∧ s.tx.wrGs = gray s.tx.wr ∧ s.tx.rdGs = gray s.tx.rd) ∧
      (s.hpc = .none ↔ s.ctx = .caller) ∧
      (inBracket s.cpc = true → s.regs.lineEn = false ∧ s.ctx = .caller) ∧
      ((s.cpc = .a1 ∨ s.cpc = .a2 ∨ s.cpc = .a3 → fullP s.N s.tx = false) ∧
        (s.cpc = .b2 ∨ s.cpc = .b3 ∨ s.cpc = .b4 → emptyC s.rx = false) ∧
        (s.hpc = .h1 → fullP s.N s.rx = false) ∧ (s.hpc = .w1 → emptyC s.tx = false)) ∧
      (s.inited = true ∧ inInit s.cpc = false) ∧
      (s.inited = true → s.faulted .txovr = false →
        s.txLog = s.lineOut ++ (if s.regs.txReady then [] else [s.regs.txHold]))) : Inv s := by
  obtain ⟨⟨h1, h2, h3, h4, h5, h6, h7⟩, hl, hm, hc, hx, hb, ⟨g1, g2, g3, g4⟩, ⟨hi, ho⟩, hg⟩ := h
  have hn : s.inited ≠ false := by simp [hi]
  exact ⟨⟨h1, h2, h3, h4, h5, h6, h7⟩, hl, hm, hc, hx, hb, ⟨g1, g2, g3, g4⟩,
    ⟨fun h => absurd h hn, fun h => absurd h hn, fun h => absurd h hn, fun h => absurd h hn, fun h => absurd h hn,
      fun _ => ho⟩, hg⟩

/-- BOOT(4) keeps the state invariant. -/
theorem inv_boot : Inv boot := inv_of (by decide)

/-- Every legal word decodes; used by `DecodedWordIsItsEncoding` and `DecoderAgreesWithOpcodeTable`. -/
theorem witness_decoded : decode 0x3180 = .ok (.fmtch 0x80) := by decide

theorem witness_StepRuns_program :
    let s := { boot with prog := [req 0x2300] }
    callerReady s = true ∧ s.prog = req 0x2300 :: [] ∧
      decodeOn (req 0x2300).port.toPort (req 0x2300).word = .ok .getTx ∧ s.sched = [] := by decide
theorem witness_StepRuns_thread :
    let s := { boot with prog := [req 0x3000], sched := [.thread] }
    callerReady s = true ∧ s.prog = req 0x3000 :: [] ∧
      decodeOn (req 0x3000).port.toPort (req 0x3000).word = .ok .fmtclr ∧ s.sched = .thread :: [] := by decide
theorem witness_StepRuns_dispatch :
    let s := { boot with sched := [.dispatch 0x1100], regs := { boot.regs with txIe := true } }
    decodeOn .dispatch 0x1100 = .ok .txh ∧ s.sched = .dispatch 0x1100 :: [] ∧ dispatchable s .txh = true := by decide
theorem witness_StepRuns_call :
    let s := { boot with sched := [.call 0x1000] }
    decodeOn .dispatch 0x1000 = .ok .rxh ∧ s.sched = .call 0x1000 :: [] ∧ callable s = true := by decide
theorem witness_Illegal_caller :
    let s := { boot with prog := [⟨.ring, 0x2201⟩] }
    callerReady s = true ∧ s.prog = ⟨.ring, 0x2201⟩ :: [] ∧
      decodeOn CallerPort.ring.toPort 0x2201 = .error .nonzeroImm ∧ s.sched = [] ∧
      { s with sched := [.thread] }.sched = .thread :: [] := by decide
theorem witness_Illegal_call :
    let s := { boot with sched := [.call 0x1101] }
    callable s = true ∧ decodeOn .dispatch 0x1101 = .error .nonzeroImm ∧ s.sched = .call 0x1101 :: [] := by decide
theorem witness_Illegal_dispatch :
    let s := { boot with sched := [.dispatch 0x0000] }
    s.ctx = .caller ∧ decodeOn .dispatch 0x0000 = .error .noSuchOpcode ∧ s.sched = .dispatch 0x0000 :: [] := by decide
theorem witness_Busy_hold : Instr.port .recv ≠ .dispatch ∧ busy (atC .s0) = true ∧ busy (atH .h2) = true := by decide
theorem witness_Busy_step :
    (atC .s0).sched = [] ∧ busy (atC .s0) = true ∧ ∃ t, step (atC .s0) = .next t :=
  ⟨by decide, by decide, ⟨_, rfl⟩⟩
theorem witness_Misuse :
    (callerReady boot = true ∧ boot.inited = true) ∧
    (callerReady State.reset = true ∧ State.reset.inited = false ∧ Instr.recv ≠ .init) ∧
    (State.reset.ctx = .caller ∧ State.reset.inited = false) := by decide
/-- Every clause of the µop statements over `cpc`. -/
theorem witness_uops :
    ∀ q ∈ [CState.i1, .i2, .i3, .i4, .i5, .i6, .i7, .s0, .r0, .r1, .a0, .a0e, .a1, .a3, .a4, .b0, .b1, .b1e, .b2, .b4, .b5],
      (atC q).ctx = .caller ∧ (atC q).sched = [] ∧ (atC q).cpc = q := by decide
theorem witness_ByteSend_return :
    (∀ r ∈ [Ret.done, .f0], { atC .s1 with ret := r }.ctx = .caller ∧ { atC .s1 with ret := r }.sched = [] ∧
      { atC .s1 with ret := r }.cpc = .s1 ∧ { atC .s1 with ret := r }.ret = r) := by decide
/-- `A2` and `A5`; the store at the last slot. -/
theorem witness_ByteQueue :
    ({ atC .a2 with tx := ringOf 3 1 [] }.cpc = .a2 ∧ { atC .a2 with tx := ringOf 3 1 [] }.tx.wr < boot.N) ∧
    (∀ r ∈ [Ret.done, .g0], { atC .a5 with ret := r }.cpc = .a5 ∧ { atC .a5 with ret := r }.ret = r) := by decide
/-- `B3`; the load at the last slot. -/
theorem witness_Consume :
    { atC .b3 with rx := ringOf 0 3 [] }.cpc = .b3 ∧ { atC .b3 with rx := ringOf 0 3 [] }.rx.rd < boot.N := by decide
theorem witness_InitCompletes :
    callerReady State.reset = true ∧ State.reset.inited = false ∧ State.reset.sched = [] := by decide
theorem witness_DataRegister :
    { boot with regs := { boot.regs with rxReady := true } }.regs.rxReady = true ∧ boot.regs.rxReady = false := by decide
theorem witness_LineRx :
    let s := { boot with sched := [.lineRx 0x41] }
    s.sched = .lineRx 0x41 :: [] ∧ s.inited = true ∧ s.regs.rxEn = true ∧ s.regs.rxReady = false := by decide
theorem witness_LineRx_occupied :
    let s := { boot with sched := [.lineRx 0x41], regs := { boot.regs with rxReady := true } }
    s.sched = .lineRx 0x41 :: [] ∧ s.inited = true ∧ s.regs.rxEn = true ∧ s.regs.rxReady = true := by decide
theorem witness_LineRx_disabled :
    let s := { State.reset with sched := [.lineRx 0x41] }
    s.sched = .lineRx 0x41 :: [] ∧ ¬ (s.inited = true ∧ s.regs.rxEn = true) := by decide
theorem witness_LineTx :
    let s := { boot with sched := [.lineTx], regs := { boot.regs with txReady := false } }
    s.sched = .lineTx :: [] ∧ s.inited = true ∧ s.regs.txEn = true ∧ s.regs.txReady = false := by decide
theorem witness_LineTx_disabled :
    let s := { boot with sched := [.lineTx] }
    s.sched = .lineTx :: [] ∧ ¬ (s.inited = true ∧ s.regs.txEn = true ∧ s.regs.txReady = false) := by decide
/-- `SEND`, `IRQEN`, `IRQDIS`, `FMTCLR` and the wait-free part of the other operations. -/
theorem witness_Issue :
    callerReady boot = true ∧ boot.inited = true ∧ boot.sched = [] ∧ boot.regs.txReady = true ∧ boot.regs.txEn = true ∧
      boot.fmtLen ≤ boot.params.fmtMax := by decide
theorem witness_Recv :
    let s := { boot with regs := { boot.regs with rxReady := true, rxHold := 0x0D } }
    callerReady s = true ∧ s.inited = true ∧ s.sched = [] ∧ s.regs.rxReady = true := by decide
/-- The loop head: the end, a newline in the last place of a full buffer, the newline after its carriage return, another
character. -/
theorem witness_LoopHead :
    let s := { atC .f0 with fi := 3, fmtLen := 4, fmtBuf := [(0, 0x41), (3, 0x0A)] }
    ({ s with fi := 4 }.fi = s.fmtLen) ∧
    (s.fi < s.fmtLen ∧ s.fmtLen ≤ s.params.fmtMax ∧ s.byteAt .fmt s.fi = 0x0A ∧ s.crp = false) ∧
    ¬ ({ s with crp := true }.byteAt .fmt s.fi = 0x0A ∧ { s with crp := true }.crp = false) ∧
    ¬ ({ s with fi := 0 }.byteAt .fmt 0 = 0x0A ∧ s.crp = false) := by decide
theorem witness_LoopHead_async : (atC .g0).ctx = .caller ∧ (atC .g0).sched = [] ∧ (atC .g0).cpc = .g0 := by decide
/-- A formatted send of one character runs to its end in four steps. -/
theorem witness_SendfImage :
    let s := { atC .f0 with fmtLen := 1, fmtBuf := [(0, 0x41)], sched := [.thread, .thread, .thread, .thread] }
    s.cpc = .f0 ∧ s.ctx = .caller ∧ s.fi = 0 ∧ s.crp = false ∧ s.prog = [] ∧ s.fmtLen ≤ s.params.fmtMax ∧
    (∀ e ∈ s.sched, e = .thread ∨ e = .lineTx ∨ ∃ b, e = .lineRx b) ∧ ∃ t, steps 4 s = .next t ∧ t.cpc = .idle := by
  refine ⟨by decide, by decide, by decide, by decide, by decide, by decide, ?_, _, rfl, by decide⟩
  intro e he
  have : e = .thread := by simpa using he
  exact .inl this
theorem witness_Renderer :
    ({ boot with fmtLen := 4 }.fmtLen = boot.params.fmtMax ∧ callerReady { boot with fmtLen := 4 } = true) ∧
    ({ boot with fmtLen := 3 }.fmtLen < boot.params.fmtMax ∧ callerReady { boot with fmtLen := 3 } = true) := by decide
theorem witness_Senda :
    let s := { boot with tx := ringOf 3 1 [(1, 0x11), (2, 0x22)] }
    callerReady s = true ∧ s.inited = true ∧ s.sched = [] ∧ s.tx.wr < s.N ∧ fullP s.N s.tx = false := by decide
theorem witness_Recva :
    let s := { boot with rx := ringOf 0 3 [(3, 0x5A)] }
    callerReady s = true ∧ s.inited = true ∧ s.sched = [] ∧ s.rx.rd < s.N ∧ emptyC s.rx = false := by decide
theorem witness_Sendfa :
    let s := { boot with fmtLen := 4, fmtBuf := [(0, 0x41), (1, 0x0A), (2, 0x42), (3, 0x43)] }
    callerReady s = true ∧ s.inited = true ∧ s.hpc = .none ∧ s.regs.txEn = true ∧ s.regs.lineEn = true ∧ 1 ≤ s.params.K ∧
      InRange s ∧ Coherent s :=
  ⟨by decide, by decide, by decide, by decide, by decide, by decide,
    ⟨by decide, by decide, by decide, by decide, by decide, by decide, by decide⟩, by decide, by decide, by decide, by decide⟩
theorem witness_PutRx :
    let s := { boot with rx := ringOf 3 1 [] }
    (callerReady s = true ∧ s.inited = true ∧ s.rx.wr < s.N ∧ s.regs.rxIe = false ∧ fullP s.N s.rx = false) ∧
    ({ boot with rx := ringOf 3 0 [] }.regs.rxIe = false ∧ fullP boot.N (ringOf 3 0 []) = true) ∧
    { boot with regs := { boot.regs with rxIe := true } }.regs.rxIe = true := by decide
theorem witness_PutTx :
    fullP boot.N (ringOf 3 0 []) = true ∧ fullP boot.N (ringOf 3 1 []) = false ∧ (ringOf 3 1 []).wr < boot.N := by decide
theorem witness_Get :
    emptyC (ringOf 3 3 []) = true ∧ emptyC (ringOf 0 3 []) = false ∧ (ringOf 0 3 []).rd < boot.N ∧
      boot.regs.txIe = false ∧ { boot with regs := { boot.regs with txIe := true } }.regs.txIe = true := by decide
theorem witness_Store : ∃ t, exec (.putTx 0x11) boot = .next t := ⟨_, rfl⟩
/-- Every clause of the µop statements over `hpc`. -/
theorem witness_handlerUops :
    ∀ q ∈ [HState.h0, .h1, .h2, .h3, .h4, .w0, .w1, .w2],
      (atH q).ctx = .handler ∧ (atH q).sched = [] ∧ (atH q).hpc = q ∧ (atH q).rx.wr < boot.N ∧ (atH q).tx.rd < boot.N := by
  decide
theorem witness_Rxh :
    let s := { boot with rx := ringOf 3 1 [(1, 0x11)], regs := { boot.regs with rxReady := true, rxHold := 0x62 } }
    s.ctx = .caller ∧ s.hpc = .none ∧ s.inited = true ∧ s.sched = [] ∧ s.rx.wr < s.N ∧ fullP s.N s.rx = false ∧
      s.regs.rxReady = true ∧ s.regs.txReady = true := by decide
theorem witness_Txh :
    let s := { boot with tx := ringOf 1 3 [(0, 0x64), (3, 0x63)] }
    s.ctx = .caller ∧ s.hpc = .none ∧ s.inited = true ∧ s.sched = [] ∧ s.tx.rd < s.N ∧ emptyC s.tx = false ∧
      s.regs.txReady = true := by decide
/-- V38: both requests up. -/
theorem witness_Dispatch :
    let s := { boot with regs := { boot.regs with rxIe := true, rxReady := true, txIe := true } }
    s.inited = true ∧ s.ctx = .caller ∧ s.regs.lineEn = true ∧ rxIrq s = true ∧ txIrq s = true := by decide
theorem witness_NoNesting :
    ((atH .h2).ctx = .handler ∧ { atH .h2 with sched := [.dispatch 0x1100] }.sched = .dispatch 0x1100 :: []) ∧
    (inBracket (atC .a2).cpc = true ∧ { atC .a2 with sched := [.call 0x1100] }.sched = .call 0x1100 :: []) ∧
    ((atC .a5).ctx = .caller ∧ inBracket (atC .a5).cpc = false ∧ (atC .a5).inited = true ∧
      { atC .a5 with sched := [.call 0x1000] }.sched = .call 0x1000 :: [] ∧
      { atC .a5 with sched := [.call 0x1100] }.sched = .call 0x1100 :: []) := by decide
theorem witness_HandlerStep :
    (atH .h1).ctx = .handler ∧ (atH .h1).sched.head? ≠ some .reset ∧ ∃ t, step (atH .h1) = .next t :=
  ⟨by decide, by decide, ⟨_, rfl⟩⟩
theorem witness_CallerStep :
    (atC .a3).ctx = .caller ∧ (atC .a3).cpc ≠ .idle ∧ (atC .a3).sched.head? ≠ some .reset ∧ ∃ t, step (atC .a3) = .next t :=
  ⟨by decide, by decide, by decide, ⟨_, rfl⟩⟩
theorem witness_RingsIndependent :
    (∃ t, exec (.putRx 0x11) boot = .next t) ∧ (∃ t, exec .getRx boot = .next t) ∧
    (∃ t, exec (.putTx 0x11) boot = .next t) ∧ (∃ t, exec .getTx boot = .next t) ∧
    (∃ t, exec .recva boot = .next t) ∧ (∃ t, exec .rxh boot = .next t) ∧ (∃ t, exec (.senda 0x11) boot = .next t) ∧
    (∃ t, exec .sendfa boot = .next t) ∧ (∃ t, exec .txh boot = .next t) ∧
    (∃ t, callerUop (atC .b4) = some t) ∧ (∃ t, callerUop (atC .a2) = some t) ∧
    (∃ t, handlerUop (atH .h1) = some t) ∧ (∃ t, handlerUop (atH .w1) = some t) :=
  ⟨⟨_, rfl⟩, ⟨_, rfl⟩, ⟨_, rfl⟩, ⟨_, rfl⟩, ⟨_, rfl⟩, ⟨_, rfl⟩, ⟨_, rfl⟩, ⟨_, rfl⟩, ⟨_, rfl⟩, ⟨_, rfl⟩, ⟨_, rfl⟩, ⟨_, rfl⟩,
    ⟨_, rfl⟩⟩
/-- Steps that move an enable bit, `res`, `cnt` and `ok`. -/
theorem witness_Moves :
    ck (step (atC .b0)) (fun t => t.regs.rxIe != boot.regs.rxIe) = true ∧
    ck (step (atC .a5)) (fun t => t.regs.txIe != boot.regs.txIe) = true ∧
    ck (step { atC .b3 with rx := ringOf 1 0 [(0, 0x5A)] }) (fun t => t.res != boot.res) = true ∧
    ck (step { atC .f0 with fi := 1, fmtLen := 1 }) (fun t => t.cnt != boot.cnt) = true ∧
    ck (step { boot with prog := [req 0x2111] }) (fun t => t.ok != boot.ok) = true := by decide
theorem witness_Gray : 7 < 2 ^ 3 ∧ 2 < 3 ∧ 1 ≤ 1 ∧ 1 < 2 ^ 1 := by decide
theorem witness_Rings : InRange boot ∧ Coherent boot ∧ 1 ≤ boot.params.K ∧ emptyC (boot.ring .tx) = true :=
  ⟨inv_boot.range, inv_boot.coherent, by decide, by decide⟩
theorem witness_OccupancyAndWrap :
    (boot.ring .tx).wr = 0 ∧ (boot.ring .tx).rd = 0 ∧
      ∃ t, useRing .tx [.put 0x11, .get, .get] boot = some (t, [0x11], [0x11]) :=
  ⟨by decide, by decide, ⟨_, rfl⟩⟩
/-- Two resets leave the scratch buffer with contents of different names (R36, U7: drawn afresh). -/
theorem test_reset_draws_afresh :
    ck (step { State.reset with sched := [.reset] }) (fun t => t.seed != State.reset.seed && t.draws != State.reset.draws) = true := by
  decide
theorem witness_Reset : { atH .h2 with sched := [.reset] }.sched = .reset :: [] := by decide
theorem witness_Inv_step : Inv boot ∧ HandshakeOk boot ∧ LoopOk boot ∧ ∃ t, step boot = .next t :=
  ⟨inv_boot, fun h => absurd (by decide) h, inv_boot.loop, ⟨_, rfl⟩⟩
theorem witness_Handshake :
    let s := { boot with prog := [req 0x0561], tx := ringOf 1 0 [(0, 0x60)], regs := { boot.regs with txIe := true } }
    Inv s ∧ HandshakeOk s ∧ occ s.N s.tx ≠ 0 ∧ s.prog.head? = some (req 0x0561) ∧
      decode (req 0x0561).word = .ok (.senda 0x61) ∧ ∃ t, step s = .next t :=
  ⟨inv_of (by decide), fun _ _ _ => rfl, by decide, rfl, by decide, ⟨_, rfl⟩⟩
/-- Inside a bracket, with a dispatch offered. -/
theorem witness_Bracket :
    let s := { atC .a2 with
      sched := [.dispatch 0x1000], regs := { boot.regs with lineEn := false, rxIe := true, rxReady := true } }
    Inv s ∧ inBracket s.cpc = true ∧ s.sched.head? ≠ some .reset ∧ s.sched.head? = some (.dispatch 0x1000) ∧
      ∃ t, step s = .next t :=
  ⟨inv_of (by decide), by decide, by decide, by decide, ⟨_, rfl⟩⟩
/-- The bracket left by either unmask. -/
theorem witness_Bracket_left :
    ∀ q ∈ [CState.a4, .b5],
      let s := { atC q with regs := { boot.regs with lineEn := false } }
      Inv s ∧ inBracket s.cpc = true ∧ s.sched.head? ≠ some .reset ∧ ∃ t, step s = .next t ∧ inBracket t.cpc = false := by
  intro q hq
  rcases List.mem_pair.1 hq with rfl | rfl <;> exact ⟨inv_of (by decide), by decide, by decide, _, rfl, by decide⟩
theorem witness_LineOutput :
    let s := { boot with sched := [.lineTx], txLog := [0x41], regs := { boot.regs with txReady := false, txHold := 0x41 } }
    Inv s ∧ ∃ t, steps 1 s = .next t ∧ t.faulted .txovr = false ∧ t.regs.txReady = true :=
  ⟨inv_of (by decide), _, rfl, by decide, by decide⟩
theorem witness_WriteHandler :
    let s := { atH .w1 with tx := ringOf 1 3 [(0, 0x64), (3, 0x63)] }
    Inv s ∧ emptyC s.tx = false ∧ s.ctx = .handler ∧ s.hpc = .w1 ∧ s.sched = [] ∧ ∃ t, step s = .next t :=
  ⟨inv_of (by decide), by decide, by decide, by decide, by decide, ⟨_, rfl⟩⟩
/-- One `SENDA` runs to its end in seven steps. -/
theorem witness_SendaEndToEnd :
    let s := { boot with prog := [0x61#8].map (fun b => ⟨.command, encode (.senda b)⟩) }
    Inv s ∧ callerReady s = true ∧ s.inited = true ∧
    (∀ e ∈ s.sched, e = .thread ∨ e = .lineTx ∨ (∃ b, e = .lineRx b) ∨ e = .dispatch (encode .txh)) ∧
    ∃ t, steps 7 s = .next t ∧ callerReady t = true ∧ t.prog = [] := by
  refine ⟨inv_of (by decide), by decide, by decide, ?_, _, rfl, by decide, by decide⟩
  intro e he
  exact absurd he (List.not_mem_nil)
theorem witness_Masked :
    let s := { atC .a0 with tx := ringOf 3 0 [], regs := { boot.regs with lineEn := false }, sched := [.dispatch 0x1100] }
    s.ctx = .caller ∧ s.cpc = .a0 ∧ s.regs.lineEn = false ∧ fullP s.N s.tx = true ∧
    (∀ e ∈ s.sched, e ≠ .reset ∧ ∀ w, e ≠ .call w ∧ (e = .dispatch w → ∃ i, decodeOn .dispatch w = .ok i)) ∧
    ∃ t, steps 2 s = .next t := by
  refine ⟨by decide, by decide, by decide, by decide, ?_, _, rfl⟩
  intro e he
  have : e = .dispatch 0x1100 := by simpa using he
  subst this
  refine ⟨by decide, fun w => ⟨by simp, fun hw => ⟨.txh, ?_⟩⟩⟩
  injection hw with hw
  subst hw
  decide

/-! A fair run: the µops of `SEND`, `LineTx`, then the idle caller for ever. -/

/-- The start: `SEND 'A'` just issued, both sources disabled, the line masked or not. -/
def fairStart (m : Bool) : State :=
  { atC .s0 with opb := 0x41, regs := { boot.regs with lineEn := m, rxIe := false, txIe := false } }

def fairS1 (m : Bool) : State := { fairStart m with cpc := .s1 }

def fairWritten (m : Bool) : State :=
  { fairStart m with cpc := .idle, regs := { (fairStart m).regs with txHold := 0x41, txReady := false }, txLog := [0x41] }

def fairEnd (m : Bool) : State :=
  { fairWritten m with regs := { (fairWritten m).regs with txReady := true }, lineOut := [0x41] }

def fairRun (m : Bool) : Nat → State
  | 0 => fairStart m
  | 1 => fairS1 m
  | 2 => fairWritten m
  | _ + 3 => fairEnd m

def fairEvents : Nat → Event
  | 0 => .thread
  | 1 => .thread
  | 2 => .lineTx
  | _ + 3 => .thread

/-- With both sources disabled nothing is dispatched (R180). -/
theorem fair_not_dispatchable (m : Bool) (n : Nat) (i : Instr) : dispatchable (fairRun m n) i = false := by
  have hq : rxIrq (fairRun m n) = false ∧ txIrq (fairRun m n) = false := by
    match n with
    | 0 => exact ⟨rfl, rfl⟩
    | 1 => exact ⟨rfl, rfl⟩
    | 2 => exact ⟨rfl, rfl⟩
    | _ + 3 => exact ⟨rfl, rfl⟩
  cases i <;> simp [dispatchable, hq]

theorem witness_Fair (m : Bool) :
    IsRun (fairRun m) fairEvents ∧ Fair (fairRun m) fairEvents ∧
      (∀ n, fairEvents n ≠ .reset ∧ ∀ w, fairEvents n ≠ .call w) ∧ (fairRun m 0).ctx = .caller ∧
      (fairRun m 0).cpc = .s0 ∧ (fairRun m 0).ret = .done ∧ (fairRun m 0).inited = true ∧ (fairRun m 0).regs.txEn = true ∧
      (fairRun m 0).regs.rxIe = false ∧ (fairRun m 0).regs.txIe = false ∧ (fairRun m 0).regs.lineEn = m := by
  refine ⟨?_, ⟨?_, ?_, ?_, ?_⟩, ?_, rfl, rfl, rfl, rfl, rfl, rfl, rfl, rfl⟩
  · intro n
    match n with
    | 0 => rfl
    | 1 => rfl
    | 2 => rfl
    | _ + 3 => rfl
  · intro n h
    exact absurd (h (n + 3) (by omega)) (by show lineTxEnabled (fairEnd m) ≠ true; cases m <;> decide)
  · intro n h
    have := h n (Nat.le_refl n)
    rw [fair_not_dispatchable] at this
    cases this
  · intro n h
    have := h n (Nat.le_refl n)
    rw [fair_not_dispatchable] at this
    cases this
  · intro n
    exact ⟨n + 3, by omega, rfl⟩
  · intro n
    match n with
    | 0 => simp [fairEvents]
    | 1 => simp [fairEvents]
    | 2 => simp [fairEvents]
    | _ + 3 => simp [fairEvents]

end Sys2Proof.Tests
end

/-! PROOFS. Everything one step can do to the state, each agent's turn written as an update: `step_change`. `Move` says which
agent acted and why; here its effect, its µop and its line step are opened once, for all the statements about steps. -/

namespace Sys2Proof.Machine

/-- What one step can do to the state `s` that remains of `o` when the queues have been read, as an update of `s`. -/
inductive Change (o s : State) : State → Prop
  /-- a hold, an agent that is not enabled, or a caller with nothing to issue -/
  | wait : Change o s s
  /-- a word is refused -/
  | refused (f : FaultBit) (hc : s.ctx = .caller) : Change o s (s.raise f)
  /-- `INIT` is issued -/
  | initStart (hc : s.ctx = .caller) (hi : s.cpc = .idle) (hn : s.inited = false) : Change o s { s with cpc := .i1 }
  /-- another caller-side operation is issued -/
  | effect (i : Instr) (t : State) (hc : s.ctx = .caller) (hi : s.cpc = .idle) (hn : s.inited = true)
      (hr : ∃ r rs, o.prog = r :: rs ∧ decodeOn r.port.toPort r.word = .ok i) (h : EffectMove s i t) : Change o s t
  /-- a handler is entered: by dispatch with the line unmasked, or by a call outside a bracket -/
  | entered (q : HState) (hq : q = .h0 ∨ q = .w0) (hc : s.ctx = .caller) (hn : s.inited = true)
      (hb : s.regs.lineEn = true ∨ inBracket s.cpc = false) : Change o s (enterHandler q s)
  /-- a µop of the command in progress -/
  | uop (t : State) (hc : s.ctx = .caller) (h : CallerMove s t) : Change o s t
  /-- a µop of the active handler -/
  | handler (t : State) (hc : s.ctx = .handler) (h : HandlerMove s t) : Change o s t
  /-- the line loses an arriving byte -/
  | lost (hn : s.inited = true) : Change o s { s with rxLost := s.rxLost + 1 }
  /-- the receiver takes an arriving byte -/
  | received (b : Byte) (hn : s.inited = true) : Change o s { s with regs := { s.regs with rxHold := b, rxReady := true } }
  /-- the transmitter finishes the held byte -/
  | sent (hn : s.inited = true) (hr : s.regs.txReady = false) :
      Change o s { s with lineOut := s.lineOut ++ [s.regs.txHold], regs := { s.regs with txReady := true } }
  /-- `Reset` -/
  | reset (he : o.sched.head? = some .reset) : Change o s (resetStep s)

theorem Move.change {o s t : State} (h : Move o s t) : Change o s t := by
  cases h with
  | wait => exact .wait
  | illegal hc => exact .refused .illcmd hc
  | preinit hc => exact .refused .preinit hc
  | initStart hc hi hn => exact .initStart hc hi hn
  | effect i _ hc hi hn hp hr he => exact .effect i t hc hi hn hr (effectOf_move hp he)
  | dispatched q hq hc hn hl => exact .entered q (hq.imp And.left And.left) hc hn (.inl hl)
  | called q hq hc hb hn _ => exact .entered q hq hc hn (.inr hb)
  | uop _ hc hi hu => exact .uop t hc (callerUop_move hi hu)
  | handler _ hc hu => exact .handler t hc (handlerUop_move hu)
  | lineRx b =>
    rcases lineRxStep_cases b s with h | ⟨hn, _, _, h⟩ | ⟨hn, _, _, h⟩ <;> rw [h]
    · exact .wait
    · exact .lost hn
    · exact .received b hn
  | lineTx =>
    rcases lineTxStep_cases s with h | ⟨hn, _, hr, h⟩ <;> rw [h]
    · exact .wait
    · exact .sent hn hr
  | reset he => exact .reset he

/-- EVERYTHING ONE STEP CAN DO TO THE STATE. The queues apart, it is one `Change`. -/
theorem step_change {s t : State} (h : step s = .next t) :
    ∃ p, (p = s.prog ∨ s.ctx = .caller) ∧ Change s { s with prog := p, sched := s.sched.tail } t := by
  obtain ⟨p, hp, hm⟩ := step_move h
  exact ⟨p, hp.imp_right fun ⟨_, _, hc, _⟩ => hc, hm.change⟩

/-- What the issue or entry of an operation can do (spec R64, R66, R102, R181). -/
theorem exec_change {i : Instr} {s t : State} (h : exec i s = .next t) :
    t = s ∨ t = s.raise .preinit ∨ t = { s with cpc := .i1 } ∨ (∃ q, t = enterHandler q s) ∨ EffectMove s i t := by
  have entry : ∀ q, invoke q s = .next t → t = s ∨ t = s.raise .preinit ∨ ∃ q, t = enterHandler q s := fun q hq => by
    rcases invoke_next hq with ⟨_, e⟩ | ⟨_, _, e⟩ | ⟨_, _, e⟩
    · exact .inl e
    · exact .inr (.inl e)
    · exact .inr (.inr ⟨q, e⟩)
  by_cases hp : isPlain i = true
  · rw [exec_plain hp] at h
    rcases issue_next h with ⟨_, e⟩ | ⟨_, _, e⟩ | ⟨_, _, he⟩
    · exact .inl e
    · exact .inr (.inl e)
    · exact .inr (.inr (.inr (.inr (effectOf_move hp he))))
  · cases i <;> simp only [isPlain, not_true_eq_false] at hp
    case init =>
      rw [exec_init] at h
      rcases issueInit_next h with ⟨_, e⟩ | ⟨_, _, e⟩ | ⟨_, _, e⟩
      · exact .inl e
      · exact .inr (.inl e)
      · exact .inr (.inr (.inl e))
    case rxh => exact (entry .h0 h).imp_right (.imp_right fun e => .inr (.inl e))
    case txh => exact (entry .w0 h).imp_right (.imp_right fun e => .inr (.inl e))

/-! ### What the µops of each sequencer leave alone -/

/-- The registers that belong to the interrupted caller are the same in both states. -/
structure SameCaller (s t : State) : Prop where
  cpc : t.cpc = s.cpc
  ret : t.ret = s.ret
  opb : t.opb = s.opb
  res : t.res = s.res
  cnt : t.cnt = s.cnt
  fi : t.fi = s.fi
  crp : t.crp = s.crp
  ok : t.ok = s.ok
  fmtLen : t.fmtLen = s.fmtLen
  fmtBuf : t.fmtBuf = s.fmtBuf
  prog : t.prog = s.prog
  lineEn : t.regs.lineEn = s.regs.lineEn

/-- No µop of a handler touches the interrupted caller (spec R171, R184). -/
theorem HandlerMove.sameCaller {s t : State} (h : HandlerMove s t) : SameCaller s t := by
  cases h <;> constructor <;> simp

theorem HandlerMove.inited {s t : State} (h : HandlerMove s t) : t.inited = s.inited := by cases h <;> simp

theorem EffectMove.inited {s t : State} {i : Instr} (h : EffectMove s i t) : t.inited = s.inited := by cases h <;> rfl

theorem HandlerMove.params {s t : State} (h : HandlerMove s t) : t.params = s.params := by cases h <;> simp

theorem CallerMove.params {s t : State} (h : CallerMove s t) : t.params = s.params := by cases h <;> simp

theorem EffectMove.params {s t : State} {i : Instr} (h : EffectMove s i t) : t.params = s.params := by cases h <;> rfl

/-- The contexts are switched by entry and return alone (spec R181, R184): a µop of a command does not. -/
theorem CallerMove.context {s t : State} (h : CallerMove s t) : t.hpc = s.hpc ∧ t.ctx = s.ctx := by cases h <;> simp

theorem EffectMove.context {s t : State} {i : Instr} (h : EffectMove s i t) : t.hpc = s.hpc ∧ t.ctx = s.ctx := by
  cases h <;> simp

/-- No step writes the parameters (spec R4). -/
theorem Change.params {o s t : State} (h : Change o s t) : t.params = s.params := by
  cases h with
  | effect _ _ _ _ _ _ h => exact h.params
  | uop _ _ h => exact h.params
  | handler _ _ h => exact h.params
  | _ => rfl

theorem Change.N {o s t : State} (h : Change o s t) : t.N = s.N := congrArg Params.N h.params

end Sys2Proof.Machine

/-! PROOFS. What one step can do to a ring, and what of a ring it therefore keeps: the cursors' range, exact Gray copies and
the canonical storage. -/

namespace Sys2Proof.Machine

/-- What one step can do to a ring of `n` slots (spec R89, R137, R142, R158, R162, R200). -/
inductive RingChange (n : Nat) (x : Ring) : Ring → Prop
  | keep : RingChange n x x
  | store (b : Byte) (hlt : x.wr < n) : RingChange n x { x with mem := Memory.setZ x.mem x.wr b }
  | publish : RingChange n x (x.advanceWr n)
  | put (b : Byte) (hlt : x.wr < n) : RingChange n x ({ x with mem := Memory.setZ x.mem x.wr b }.advanceWr n)
  | free : RingChange n x (x.advanceRd n)
  | zero : RingChange n x Ring.zero

theorem RingChange.of_eq {n : Nat} {x y : Ring} (h : y = x) : RingChange n x y := h ▸ .keep

theorem EffectMove.rings {s t : State} {i : Instr} (h : EffectMove s i t) :
    RingChange s.N s.rx t.rx ∧ RingChange s.N s.tx t.tx := by
  cases h with
  | putRx b _ _ hlt => exact ⟨.put b hlt, .keep⟩
  | putTx b _ hlt => exact ⟨.keep, .put b hlt⟩
  | getRx _ _ => exact ⟨.free, .keep⟩
  | getTx _ _ _ => exact ⟨.keep, .free⟩
  | _ => exact ⟨.keep, .keep⟩

theorem CallerMove.rings {s t : State} (h : CallerMove s t) : RingChange s.N s.rx t.rx ∧ RingChange s.N s.tx t.tx := by
  cases h with
  | a2 _ hlt => exact ⟨.keep, .store _ hlt⟩
  | a3 _ => exact ⟨.keep, .publish⟩
  | b4 _ => exact ⟨.free, .keep⟩
  | _ => exact ⟨.of_eq (by simp), .of_eq (by simp)⟩

theorem HandlerMove.rings {s t : State} (h : HandlerMove s t) :
    RingChange s.N s.rx t.rx ∧ RingChange s.N s.tx t.tx := by
  cases h with
  | h1 _ hlt => exact ⟨.put _ hlt, .of_eq (by simp)⟩
  | w1 _ _ => exact ⟨.of_eq (by simp), .free⟩
  | _ => exact ⟨.of_eq (by simp), .of_eq (by simp)⟩

theorem Change.rings {o s t : State} (h : Change o s t) : RingChange s.N s.rx t.rx ∧ RingChange s.N s.tx t.tx := by
  cases h with
  | effect _ _ _ _ _ _ h => exact h.rings
  | uop _ _ h => exact h.rings
  | handler _ _ h => exact h.rings
  | reset _ => exact ⟨.zero, .zero⟩
  | _ => exact ⟨.keep, .keep⟩

/-- A cursor and its Gray copy move together (spec R52). -/
theorem RingChange.exact {n : Nat} {x y : Ring} (h : RingChange n x y)
    (hx : x.wrGs = gray x.wr ∧ x.rdGs = gray x.rd) : y.wrGs = gray y.wr ∧ y.rdGs = gray y.rd := by
  obtain ⟨hw, hr⟩ := hx
  cases h with
  | keep | store => exact ⟨hw, hr⟩
  | publish | put => exact ⟨rfl, hr⟩
  | free => exact ⟨hw, rfl⟩
  | zero => exact ⟨rfl, rfl⟩

/-- A cursor advances within its ring (spec R81). -/
theorem RingChange.inRange {n : Nat} {x y : Ring} (h : RingChange n x y) (hn : 0 < n) (hx : x.wr < n ∧ x.rd < n) :
    y.wr < n ∧ y.rd < n := by
  obtain ⟨hw, hr⟩ := hx
  cases h with
  | keep | store => exact ⟨hw, hr⟩
  | publish | put => exact ⟨inc_lt hn, hr⟩
  | free => exact ⟨hw, inc_lt hn⟩
  | zero => exact ⟨hn, hn⟩

theorem RingChange.wfZ {n : Nat} {x y : Ring} (h : RingChange n x y) (hx : Memory.wfZ n x.mem = true) :
    Memory.wfZ n y.mem = true := by
  cases h with
  | keep | publish | free => exact hx
  | store b hlt | put b hlt => exact Memory.wfZ_setZ n x.mem x.wr b hlt hx
  | zero => rfl

theorem Change.coherent {o s t : State} (h : Change o s t) (hs : Coherent s) : Coherent t := by
  obtain ⟨hrw, hrr, htw, htr⟩ := hs
  obtain ⟨hrx, htx⟩ := h.rings
  obtain ⟨hrw', hrr'⟩ := hrx.exact ⟨hrw, hrr⟩
  exact ⟨hrw', hrr', htx.exact ⟨htw, htr⟩⟩

/-- Settles O50: every change of a ring writes a cursor and its copy together. -/
theorem stepKeepsCoherence : Obligations.StepKeepsCoherence := fun _ _ hs h =>
  step_keeps (P := Coherent) (fun _ _ _ hs => hs) (fun _ _ _ hs hm => hm.change.coherent hs) hs h

/-! ### The ring tests after an advance of the other cursor -/

theorem inc_inj {n a b : Nat} (ha : a < n) (hb : b < n) (h : inc n a = inc n b) : a = b := by
  have := inc_spec ha
  have := inc_spec hb
  omega

/-- A ring that has just given a byte is not full (spec R85). -/
theorem fullP_advanceRd {n : Nat} {x : Ring} (hw : x.wr < n) (hr : x.rd < n) (hg : x.wrGs = gray x.wr)
    (he : emptyC x = false) : fullP n (x.advanceRd n) = false := by
  have hne : x.wr ≠ x.rd := fun h => by simp [(emptyC_iff hg).2 h] at he
  rw [Bool.eq_false_iff, Ne, fullP_iff rfl]
  exact fun h => hne (inc_inj hw hr h)

/-- A ring that has just taken a byte is not empty (spec R86). -/
theorem emptyC_advanceWr {n : Nat} {x : Ring} (hg : x.rdGs = gray x.rd) (hf : fullP n x = false) :
    emptyC (x.advanceWr n) = false := by
  rw [Bool.eq_false_iff, Ne, emptyC_iff rfl]
  exact fun h => by simp [(fullP_iff hg).2 h] at hf

end Sys2Proof.Machine

/-! PROOFS. Which steps write which elements of the state: the three byte arrays, the interrupted caller, the result port,
the fault register; and what reset leaves. -/

namespace Sys2Proof.Machine

/-! ### The byte arrays -/

/-- The bytes an effect at issue leaves: those it found, or those of one store at the operation's own write index. -/
theorem EffectMove.bytes {s t : State} {i : Instr} (h : EffectMove s i t) :
    t.byteAt = s.byteAt ∨ ∃ b,
      i = .putRx b ∧ t.byteAt = (s.putByte .rxm s.rx.wr b).byteAt ∨
      i = .putTx b ∧ t.byteAt = (s.putByte .txm s.tx.wr b).byteAt ∨
      i = .fmtch b ∧ t.byteAt = (s.putByte .fmt s.fmtLen b).byteAt := by
  cases h with
  | putRx b => exact .inr ⟨b, .inl ⟨rfl, by funext q j; cases q <;> rfl⟩⟩
  | putTx b => exact .inr ⟨b, .inr (.inl ⟨rfl, by funext q j; cases q <;> rfl⟩)⟩
  | fmtch b => exact .inr ⟨b, .inr (.inr ⟨rfl, by funext q j; cases q <;> rfl⟩)⟩
  | _ => exact .inl (by funext q j; cases q <;> rfl)

/-- Where a store was made, the byte stored is read, and everywhere else the byte that was there (spec R41). -/
theorem byteAt_putByte_cases (s : State) (p q : Space) (a j : Nat) (b : Byte) :
    (s.putByte p a b).byteAt q j = s.byteAt q j ∨ q = p ∧ j = a ∧ (s.putByte p a b).byteAt q j = b := by
  by_cases h : p = q ∧ a = j
  · exact .inr ⟨h.1.symm, h.2.symm, by rw [byteAt_putByte, if_pos h]⟩
  · exact .inl (by rw [byteAt_putByte, if_neg h])

/-- Settles O31: of what an operation can do at issue, only the three stores reach a byte array. -/
theorem operationsStoreAtMostOneByte : Obligations.OperationsStoreAtMostOneByte := by
  intro i s t h q j
  have same : t.byteAt = s.byteAt → t.byteAt q j = s.byteAt q j := fun e => by rw [e]
  rcases exec_change h with rfl | rfl | rfl | ⟨_, rfl⟩ | he
  · exact .inl rfl
  · exact .inl (same (by funext q j; cases q <;> rfl))
  · exact .inl (same (by funext q j; cases q <;> rfl))
  · exact .inl (same (by funext q j; cases q <;> rfl))
  · rcases he.bytes with e | ⟨b, ⟨rfl, e⟩ | ⟨rfl, e⟩ | ⟨rfl, e⟩⟩ <;> rw [e]
    · exact .inl rfl
    · exact (byteAt_putByte_cases s .rxm q _ j b).imp_right fun h => .inl ⟨b, rfl, h⟩
    · exact (byteAt_putByte_cases s .txm q _ j b).imp_right fun h => .inr (.inl ⟨b, rfl, h⟩)
    · exact (byteAt_putByte_cases s .fmt q _ j b).imp_right fun h => .inr (.inr ⟨b, rfl, h⟩)

/-! ### The interrupted caller -/

/-- In handler context no agent but reset touches the caller's registers. -/
theorem Change.sameCaller {o s t : State} (h : Change o s t) (hc : s.ctx = .handler)
    (hr : o.sched.head? ≠ some .reset) : SameCaller s t := by
  have hne : s.ctx ≠ .caller := by simp [hc]
  cases h with
  | handler _ _ h => exact h.sameCaller
  | wait | lost | received | sent => constructor <;> rfl
  | refused _ hc | initStart hc | effect _ _ hc | entered _ _ hc | uop _ hc => exact absurd hc hne
  | reset he => exact absurd he hr

/-- Settles O38: a step in handler context takes no pending word and makes a change that leaves the caller alone. -/
theorem handlerPreservesCaller : Obligations.HandlerPreservesCaller := by
  intro s t hc hr h
  obtain ⟨p, hp, hch⟩ := step_change h
  obtain rfl : p = s.prog := hp.resolve_right (by simp [hc])
  obtain ⟨h1, h2, h3, h4, h5, h6, h7, h8, h9, h10, h11, h12⟩ := hch.sameCaller hc hr
  exact ⟨h1, h2, h3, h4, h5, h6, h7, h8, h9, h10, h11, h12⟩

/-! ### The result port -/

/-- Which operations write `res`, `cnt` and `ok` at issue (spec R67). -/
theorem EffectMove.results {s t : State} {i : Instr} (h : EffectMove s i t) :
    (t.res ≠ s.res → i = .getRx ∨ i = .getTx) ∧ t.cnt = s.cnt ∧ (t.ok ≠ s.ok → i.port = .ring) := by
  cases h <;> simp [Instr.port]

/-- Which µops write `res` and `cnt`; none writes `ok` (spec R67). -/
theorem CallerMove.results {s t : State} (h : CallerMove s t) :
    (t.res ≠ s.res → s.cpc = .r1 ∨ s.cpc = .b3) ∧
    (t.cnt ≠ s.cnt → (s.cpc = .f0 ∨ s.cpc = .g0) ∧ s.fi = s.fmtLen) ∧ t.ok = s.ok := by
  cases h with
  | r1 h | b3 h => simp [h]
  | loopEnd h he => simp [h, he]
  | _ => simp

/-- Which changes but reset write `res`, `cnt` and `ok`; `o` holds the word that was issued (spec R67). -/
theorem Change.results {o s t : State} (h : Change o s t) (hr : o.sched.head? ≠ some .reset) :
    (t.res ≠ s.res → s.ctx = .caller ∧ (s.cpc = .r1 ∨ s.cpc = .b3 ∨ s.cpc = .idle ∧
      ∃ r, o.prog.head? = some r ∧ (decode r.word = .ok .getRx ∨ decode r.word = .ok .getTx))) ∧
    (t.cnt ≠ s.cnt → s.ctx = .caller ∧ (s.cpc = .f0 ∨ s.cpc = .g0) ∧ s.fi = s.fmtLen) ∧
    (t.ok ≠ s.ok → s.ctx = .caller ∧ s.cpc = .idle ∧
      ∃ r i, o.prog.head? = some r ∧ decode r.word = .ok i ∧ i.port = .ring) := by
  cases h with
  | effect i _ hc hi _ hw h =>
    obtain ⟨r, rs, hprog, hd⟩ := hw
    obtain ⟨hres, hcnt, hok⟩ := h.results
    have hhead : o.prog.head? = some r := by rw [hprog]; rfl
    have hdec := (decodeOn_ok hd).1
    refine ⟨fun hne => ⟨hc, .inr (.inr ⟨hi, r, hhead, ?_⟩)⟩, fun hne => absurd hcnt hne,
      fun hne => ⟨hc, hi, r, i, hhead, hdec, hok hne⟩⟩
    rcases hres hne with rfl | rfl
    · exact .inl hdec
    · exact .inr hdec
  | uop _ hc h =>
    obtain ⟨hres, hcnt, hok⟩ := h.results
    exact ⟨fun hne => ⟨hc, (hres hne).imp_right .inl⟩, fun hne => ⟨hc, hcnt hne⟩, fun hne => absurd hok hne⟩
  | handler _ _ h =>
    have hs := h.sameCaller
    exact ⟨(absurd hs.res ·), (absurd hs.cnt ·), (absurd hs.ok ·)⟩
  | reset he => exact absurd he hr
  | _ => exact ⟨(absurd rfl ·), (absurd rfl ·), (absurd rfl ·)⟩

/-- Settles O42: by cases on what the step does, each result is written only where the statement names it. -/
theorem resultsStayValid : Obligations.ResultsStayValid := by
  intro s t hr h
  obtain ⟨p, _, hch⟩ := step_change h
  exact hch.results hr

/-! ### The fault register -/

/-- The fault register `b` is `a`, or `a` with one flag set. -/
def AtMostOneFlag (a b : BitVec 6) : Prop := b = a ∨ ∃ f : FaultBit, b = a ||| f.mask

theorem dataWrite_fault_flag (v : Byte) (s : State) : AtMostOneFlag s.fault (dataWrite v s).fault := by
  rw [dataWrite_fault]
  split
  · exact .inl rfl
  · exact .inr ⟨_, rfl⟩

theorem dataRead_fault_flag (s : State) : AtMostOneFlag s.fault (dataRead s).2.fault := by
  rw [dataRead_fault]
  split
  · exact .inl rfl
  · exact .inr ⟨_, rfl⟩

theorem EffectMove.fault {s t : State} {i : Instr} (h : EffectMove s i t) : AtMostOneFlag s.fault t.fault := by
  cases h with
  | putRxOwner | getTxOwner | fmtchFull => exact .inr ⟨_, rfl⟩
  | _ => exact .inl rfl

theorem CallerMove.fault {s t : State} (h : CallerMove s t) : AtMostOneFlag s.fault t.fault := by
  cases h with
  | s1 | s1back => exact dataWrite_fault_flag s.opb s
  | r1 => exact dataRead_fault_flag s
  | _ => exact .inl rfl

theorem HandlerMove.fault {s t : State} (h : HandlerMove s t) : AtMostOneFlag s.fault t.fault := by
  cases h with
  | h1 => exact dataRead_fault_flag s
  | h3 => exact dataWrite_fault_flag s.hb s
  | w1 => exact dataWrite_fault_flag (s.byteAt .txm s.tx.rd) s
  | _ => exact .inl rfl

/-- Every change but reset keeps the flags and sets at most one (spec R176). -/
theorem Change.fault {o s t : State} (h : Change o s t) (hr : o.sched.head? ≠ some .reset) :
    AtMostOneFlag s.fault t.fault := by
  cases h with
  | refused f _ => exact .inr ⟨f, rfl⟩
  | effect _ _ _ _ _ _ h => exact h.fault
  | uop _ _ h => exact h.fault
  | handler _ _ h => exact h.fault
  | reset he => exact absurd he hr
  | _ => exact .inl rfl

/-- Settles O43: by cases on what the step does; a step reads or writes the data register at most once. -/
theorem faultsAreStickyAndSingle : Obligations.FaultsAreStickyAndSingle := by
  intro s t hr h
  obtain ⟨p, _, hch⟩ := step_change h
  exact hch.fault hr

/-- A flag once set stays set, so a flag that is clear after was clear before. -/
theorem faulted_of_flag {s t : State} {f : FaultBit} (h : AtMostOneFlag s.fault t.fault) (ht : t.faulted f = false) :
    s.faulted f = false := by
  unfold State.faulted at *
  rcases h with e | ⟨g, e⟩ <;> rw [e] at ht
  · exact ht
  · rw [BitVec.getLsbD_or, Bool.or_eq_false_iff] at ht
    exact ht.1

/-! ### Reset -/

/-- Settles O49: field by field; a counter of `K+1` bits is its own remainder. -/
theorem resetLeavesTheTable : Obligations.ResetLeavesTheTable := by
  refine ⟨fun p u seed draws prog sched => ?_, fun s es h => ?_, Unspec.zero, rfl⟩
  · exact ⟨rfl, rfl, fun _ => ⟨rfl, rfl, rfl⟩, rfl, rfl, rfl, rfl, rfl, rfl, rfl, rfl, rfl, rfl, rfl, rfl, rfl,
      rfl, rfl, rfl, rfl, rfl, Nat.mod_eq_of_lt, Nat.mod_eq_of_lt⟩
  · exact ⟨Unspec.free s.draws, s.seed + 1, s.draws + 1, Nat.lt_succ_self _, Nat.lt_succ_self _, step_cons h⟩

end Sys2Proof.Machine

/-! PROOFS. The state invariant at reset and after every step: each part is kept by every `Change`, from the parts of the
invariant it needs. -/

namespace Sys2Proof.Machine

/-! ### Reset -/

/-- The invariant at a reset, whatever the reset leaves unspecified. -/
theorem inv_resetWith (p : Params) (u : Unspec) (seed draws : Nat) (prog : List Request) (sched : List Event) :
    Inv (State.resetWith p u seed draws prog sched) where
  range := ⟨N_pos p, N_pos p, N_pos p, N_pos p, Nat.zero_le _, Nat.mod_lt _ (by positivity), Nat.mod_lt _ (by positivity)⟩
  loop := fun h => by cases h
  memory := rfl
  coherent := ⟨gray_zero.symm, gray_zero.symm, gray_zero.symm, gray_zero.symm⟩
  context := ⟨fun _ => rfl, fun _ => rfl⟩
  bracket := fun h => by cases h
  guards := ⟨by simp [State.resetWith], by simp [State.resetWith], by simp [State.resetWith], by simp [State.resetWith]⟩
  boot := ⟨fun _ => rfl, fun _ => .inl rfl, fun _ => ⟨rfl, rfl⟩, fun _ => ⟨rfl, rfl⟩, fun _ => ⟨rfl, rfl, rfl, rfl⟩,
    fun h => by cases h⟩
  lineLog := fun h => by cases h

/-- Settles O52: `State.reset` is one of the resets. -/
theorem invariantAtReset : Obligations.InvariantAtReset :=
  ⟨inv_resetWith, inv_resetWith Config.params Unspec.zero 0 0 [] []⟩

theorem inv_resetStep (s : State) : Inv (resetStep s) := inv_resetWith _ _ _ _ _ _

/-! ### Ranges and canonical memory -/

/-- What one step can do to the scratch buffer and its length (spec R27, R128, R129, R200). -/
inductive RendererChange (s t : State) : Prop
  | keep (hl : t.fmtLen = s.fmtLen) (hb : t.fmtBuf = s.fmtBuf)
  | clear (hl : t.fmtLen = 0) (hb : t.fmtBuf = s.fmtBuf)
  | append (b : Byte) (hlt : s.fmtLen < s.params.fmtMax) (hl : t.fmtLen = s.fmtLen + 1)
      (hb : t.fmtBuf = Memory.set s.fmtBuf s.fmtLen b)
  | reset (hl : t.fmtLen = 0) (hb : t.fmtBuf = [])

theorem EffectMove.renderer {s t : State} {i : Instr} (h : EffectMove s i t) : RendererChange s t := by
  cases h with
  | fmtclr => exact .clear rfl rfl
  | fmtch b _ hlt => exact .append b hlt rfl rfl
  | _ => exact .keep rfl rfl

theorem CallerMove.renderer {s t : State} (h : CallerMove s t) : t.fmtLen = s.fmtLen ∧ t.fmtBuf = s.fmtBuf := by
  cases h <;> simp

theorem Change.renderer {o s t : State} (h : Change o s t) : RendererChange s t := by
  cases h with
  | effect _ _ _ _ _ _ h => exact h.renderer
  | uop _ _ h => exact .keep h.renderer.1 h.renderer.2
  | handler _ _ h => exact .keep h.sameCaller.fmtLen h.sameCaller.fmtBuf
  | reset _ => exact .reset rfl rfl
  | _ => exact .keep rfl rfl

/-- A loop head ends a formatted send with the string's length in `cnt`, or moves its index over one character of the
buffer, or leaves both as they are (spec R125, R146). -/
theorem CallerMove.counters {s t : State} (h : CallerMove s t) :
    (t.cnt = s.cnt ∨ t.cnt = s.fmtLen) ∧ (t.fi = s.fi ∨ s.fi < s.params.fmtMax ∧ t.fi = s.fi + 1) := by
  cases h with
  | loopEnd => exact ⟨.inr rfl, .inl rfl⟩
  | loopChar _ _ _ _ hlt => exact ⟨.inl rfl, .inr ⟨hlt, rfl⟩⟩
  | _ => simp

theorem EffectMove.counters {s t : State} {i : Instr} (h : EffectMove s i t) :
    t.cnt = s.cnt ∧ (t.fi = s.fi ∨ t.fi = 0) := by
  cases h <;> simp

/-- A counter of `K+1` bits holds the size of the buffer. -/
theorem fmtMax_lt (p : Params) : p.fmtMax < 2 ^ (p.K + 1) := Nat.pow_lt_pow_right (by omega) (Nat.lt_succ_self p.K)

theorem Change.countersInRange {o s t : State} (h : Change o s t) (hs : InRange s) :
    t.cnt < 2 ^ (s.params.K + 1) ∧ t.fi < 2 ^ (s.params.K + 1) := by
  have hmax := fmtMax_lt s.params
  have hlen := hs.fmtLen
  have hcnt := hs.cnt
  have hfi := hs.fi
  cases h with
  | effect _ _ _ _ _ _ h =>
    obtain ⟨h1, h2⟩ := h.counters
    omega
  | uop _ _ h =>
    obtain ⟨h1, h2⟩ := h.counters
    omega
  | handler _ _ h => exact h.sameCaller.cnt ▸ h.sameCaller.fi ▸ ⟨hcnt, hfi⟩
  | reset _ => exact ⟨(inv_resetStep s).range.cnt, (inv_resetStep s).range.fi⟩
  | _ => exact ⟨hcnt, hfi⟩

theorem Change.inRange {o s t : State} (h : Change o s t) (hs : InRange s) : InRange t := by
  obtain ⟨hrx, htx⟩ := h.rings
  obtain ⟨hrw, hrr⟩ := hrx.inRange (N_pos _) ⟨hs.rxWr, hs.rxRd⟩
  obtain ⟨htw, htr⟩ := htx.inRange (N_pos _) ⟨hs.txWr, hs.txRd⟩
  obtain ⟨hcnt, hfi⟩ := h.countersInRange hs
  have hlen : t.fmtLen ≤ s.params.fmtMax := by
    have := hs.fmtLen
    cases h.renderer <;> omega
  constructor <;> simpa only [State.N, h.params]

theorem memory_wf_iff {s : State} : Memory.wf s = true ↔
    Memory.wfZ s.N s.rx.mem = true ∧ Memory.wfZ s.N s.tx.mem = true ∧ Memory.sorted s.params.fmtMax s.fmtBuf = true := by
  simp [Memory.wf, and_assoc]

theorem Change.memory {o s t : State} (h : Change o s t) (hs : Memory.wf s = true) : Memory.wf t = true := by
  obtain ⟨hrx, htx, hf⟩ := memory_wf_iff.1 hs
  rw [memory_wf_iff, h.N, h.params]
  refine ⟨h.rings.1.wfZ hrx, h.rings.2.wfZ htx, ?_⟩
  cases h.renderer with
  | keep _ hb | clear _ hb => exact hb ▸ hf
  | append b hlt _ hb => exact hb ▸ Memory.sorted_set _ _ _ b hlt hf
  | reset _ hb => rw [hb]; rfl

/-! ### Contexts and brackets -/

theorem Change.contextOk {o s t : State} (h : Change o s t) (hs : ContextOk s) : ContextOk t := by
  cases h with
  | entered q hq => rcases hq with rfl | rfl <;> simp [ContextOk]
  | effect _ _ _ _ _ _ h => simpa [ContextOk, h.context] using hs
  | uop _ _ h => simpa [ContextOk, h.context] using hs
  | handler _ hc h => cases h <;> simp_all [ContextOk]
  | reset _ => exact (inv_resetStep s).context
  | _ => exact hs

/-- An issue enters no bracket and no µop of `INIT` (spec R66). -/
theorem EffectMove.cpc {s t : State} {i : Instr} (h : EffectMove s i t) (hi : s.cpc = .idle) :
    inBracket t.cpc = false ∧ inInit t.cpc = false := by
  cases h <;> simp [hi, inBracket, inInit]

/-- A bracket is entered by its mask µop and left by its unmask (spec R50, R137, R142). -/
theorem CallerMove.bracket {s t : State} (h : CallerMove s t)
    (hs : inBracket s.cpc = true → s.regs.lineEn = false) : inBracket t.cpc = true → t.regs.lineEn = false := by
  cases h with
  | a1 | b2 => exact fun _ => rfl
  | a2 h | a3 h | b3 h | b4 h => exact fun _ => hs (by rw [h]; rfl)
  | s0spin | r0spin => exact hs
  | loopCr _ _ h | loopChar _ _ h => rcases h with ⟨_, _, rfl⟩ | ⟨_, _, rfl⟩ <;> simp [inBracket]
  | _ => simp [inBracket]

theorem Change.bracketOk {o s t : State} (h : Change o s t) (hs : BracketOk s) : BracketOk t := by
  intro hb
  cases h with
  | effect _ _ _ hi _ _ h => simp [(h.cpc hi).1] at hb
  | entered q _ _ _ hout =>
    have hm := (hs hb).1
    rcases hout with hl | hl
    · simp [hl] at hm
    · simp [hl] at hb
  | uop _ hc h => exact ⟨h.bracket (fun hb => (hs hb).1) hb, h.context.2.trans hc⟩
  | handler _ hc h =>
    have := (hs (h.sameCaller.cpc ▸ hb)).2
    simp [hc] at this
  | initStart | reset => simp [inBracket] at hb
  | _ => exact hs hb

/-! ### The loop index -/

theorem inLoop_of_head {s : State} (h : s.cpc = .f0 ∨ s.cpc = .g0) : inLoop s = true := by
  rcases h with h | h <;> simp [inLoop, h]

/-- A loop head moves the index only while it is short of the string's end, and puts a carriage return only there; any other
µop that is in a formatted send after it was in one before (spec R125, R146). -/
theorem CallerMove.loopOk {s t : State} (h : CallerMove s t) (hs : LoopOk s) : LoopOk t := by
  cases h with
  | s0spin | r0spin => exact hs
  | loopCr _ _ h he =>
    have hle := (hs (inLoop_of_head (h.imp And.left And.left))).1
    exact fun _ => ⟨hle, fun _ => Nat.lt_of_le_of_ne hle he⟩
  | loopChar _ _ h he =>
    have hle := (hs (inLoop_of_head (h.imp And.left And.left))).1
    exact fun _ => ⟨Nat.lt_of_le_of_ne hle he, by simp⟩
  | _ =>
    intro hl
    have hbefore : inLoop s = true := by simp_all [inLoop, inSub]
    simpa using hs hbefore

/-- A formatted send starts at index 0, and while an operation is issued none is in progress (spec R124, R145). -/
theorem EffectMove.loopOk {s t : State} {i : Instr} (h : EffectMove s i t) (hi : s.cpc = .idle) : LoopOk t := by
  cases h with
  | sendf | sendfa => simp [LoopOk]
  | _ => simp [LoopOk, inLoop, inSub, hi]

theorem Change.loopOk {o s t : State} (h : Change o s t) (hs : LoopOk s) : LoopOk t := by
  cases h with
  | effect _ _ _ hi _ _ h => exact h.loopOk hi
  | uop _ _ h => exact h.loopOk hs
  | handler _ _ h =>
    have e := h.sameCaller
    simpa only [LoopOk, inLoop, e.cpc, e.ret, e.fi, e.fmtLen, e.crp] using hs
  | initStart => simp [LoopOk, inLoop, inSub]
  | reset _ => exact (inv_resetStep s).loop
  | _ => exact hs

/-! ### The ring tests -/

/-- A µop of a queueing command acts on the full test that let it through (spec R136, R137). -/
theorem CallerMove.queueGuard {s t : State} (h : CallerMove s t)
    (hs : s.cpc = .a1 ∨ s.cpc = .a2 ∨ s.cpc = .a3 → fullP s.N s.tx = false) :
    t.cpc = .a1 ∨ t.cpc = .a2 ∨ t.cpc = .a3 → fullP t.N t.tx = false := by
  cases h with
  | a0room _ hf => exact fun _ => hf
  | a1 h => exact fun _ => hs (.inl h)
  | a2 h => exact fun _ => hs (.inr (.inl h))
  | s0spin | r0spin => exact hs
  | loopCr _ _ h | loopChar _ _ h => rcases h with ⟨_, _, rfl⟩ | ⟨_, _, rfl⟩ <;> simp
  | _ => simp

/-- A µop of a consuming command acts on the empty test that let it through (spec R141, R142). -/
theorem CallerMove.consumeGuard {s t : State} (h : CallerMove s t)
    (hs : s.cpc = .b2 ∨ s.cpc = .b3 ∨ s.cpc = .b4 → emptyC s.rx = false) :
    t.cpc = .b2 ∨ t.cpc = .b3 ∨ t.cpc = .b4 → emptyC t.rx = false := by
  cases h with
  | b1data _ hf => exact fun _ => hf
  | b2 h => exact fun _ => hs (.inl h)
  | b3 h => exact fun _ => hs (.inr (.inl h))
  | s0spin | r0spin => exact hs
  | loopCr _ _ h | loopChar _ _ h => rcases h with ⟨_, _, rfl⟩ | ⟨_, _, rfl⟩ <;> simp
  | _ => simp

/-- An issue reaches no µop that acts on a ring test: a command makes its test first (spec R136, R141). -/
theorem EffectMove.untested {s t : State} {i : Instr} (h : EffectMove s i t) (hi : s.cpc = .idle) :
    ¬ (t.cpc = .a1 ∨ t.cpc = .a2 ∨ t.cpc = .a3) ∧ ¬ (t.cpc = .b2 ∨ t.cpc = .b3 ∨ t.cpc = .b4) := by
  cases h <;> simp [hi]

/-- In caller context no handler µop is named, so only the command's tests are left to hold. -/
theorem GuardOk.of_caller {s : State} (hq : s.cpc = .a1 ∨ s.cpc = .a2 ∨ s.cpc = .a3 → fullP s.N s.tx = false)
    (hc : s.cpc = .b2 ∨ s.cpc = .b3 ∨ s.cpc = .b4 → emptyC s.rx = false) (hn : s.hpc = .none) : GuardOk s :=
  ⟨hq, hc, by simp [hn], by simp [hn]⟩

/-- What a handler takes out of ring `TX` or puts into ring `RX` only helps the test of the command it interrupted, and its
own test is made in the step before (spec R157, R158, R161, R162). -/
theorem HandlerMove.guardOk {s t : State} (h : HandlerMove s t) (hr : InRange s) (hg : Coherent s) (hs : GuardOk s) :
    GuardOk t := by
  obtain ⟨hq, hc, hrx, htx⟩ := hs
  obtain ⟨_, hrxRd, htxWr, _⟩ := hg
  cases h with
  | none | h2spin => exact ⟨hq, hc, hrx, htx⟩
  | h0room _ hf => exact ⟨hq, hc, fun _ => hf, by simp⟩
  | w0data _ hf => exact ⟨hq, hc, by simp, fun _ => hf⟩
  | h1 h => exact ⟨by simpa using hq, fun _ => emptyC_advanceWr hrxRd (hrx h), by simp, by simp⟩
  | w1 h =>
    have hroom : fullP s.N (s.tx.advanceRd s.N) = false := fullP_advanceRd hr.txWr hr.txRd htxWr (htx h)
    exact ⟨fun _ => by simpa using hroom, by simpa using hc, by simp, by simp⟩
  | _ => exact ⟨by simpa using hq, by simpa using hc, by simp, by simp⟩

theorem Change.guardOk {o s t : State} (h : Change o s t) (hs : Inv s) : GuardOk t := by
  have hn : s.ctx = .caller → s.hpc = .none := hs.context.2
  obtain ⟨hq, hc, hrx, htx⟩ := hs.guards
  cases h with
  | effect _ _ hcx hi _ _ h =>
    obtain ⟨hnq, hnc⟩ := h.untested hi
    exact .of_caller (absurd · hnq) (absurd · hnc) (h.context.1.trans (hn hcx))
  | uop _ hcx h => exact .of_caller (h.queueGuard hq) (h.consumeGuard hc) (h.context.1.trans (hn hcx))
  | handler _ _ h => exact h.guardOk hs.range hs.coherent hs.guards
  | entered q hq' => rcases hq' with rfl | rfl <;> exact ⟨hq, hc, by simp, by simp⟩
  | initStart hcx => exact .of_caller (by simp) (by simp) (hn hcx)
  | reset => exact (inv_resetStep s).guards
  | _ => exact ⟨hq, hc, hrx, htx⟩

/-! ### Before and after INIT -/

theorem BootOk.of_inited {s : State} (hn : s.inited = true) (ho : inInit s.cpc = false) : BootOk s := by
  have hne : s.inited ≠ false := by simp [hn]
  exact ⟨(absurd · hne), (absurd · hne), (absurd · hne), (absurd · hne), (absurd · hne), fun _ => ho⟩

/-- A command other than `INIT` runs only after `INIT` (spec R102). -/
theorem BootOk.inited {s : State} (hs : BootOk s) (hi : s.cpc ≠ .idle) (ho : inInit s.cpc = false) : s.inited = true := by
  by_contra hn
  rcases hs.seq (by simpa using hn) with h | h
  · exact hi h
  · simp [ho] at h

/-- `INIT` is in progress only before it has completed (spec R102). -/
theorem BootOk.not_inited {s : State} (hs : BootOk s) (hi : inInit s.cpc = true) : s.inited = false := by
  by_contra hn
  simp [hs.once (by simpa using hn)] at hi

/-- The µops of the other commands neither lead into `INIT` nor take `inited` back. -/
theorem CallerMove.outsideInit {s t : State} (h : CallerMove s t) (ho : inInit s.cpc = false) :
    s.cpc ≠ .idle ∧ inInit t.cpc = false ∧ t.inited = s.inited := by
  cases h with
  | loopEnd h | b0 h => rcases h with h | h <;> simp [h, inInit]
  | loopCr _ _ h | loopChar _ _ h => rcases h with ⟨h, _, rfl⟩ | ⟨h, _, rfl⟩ <;> simp [h, inInit]
  | _ => simp_all [inInit]

/-- Before `INIT` is completed only its own µops run, and they touch neither rings nor logs and enable no source
(spec R101, R102). -/
theorem CallerMove.bootOk {s t : State} (h : CallerMove s t) (hs : BootOk s) : BootOk t := by
  by_cases ho : inInit s.cpc = false
  · obtain ⟨hne, hout, hin⟩ := h.outsideInit ho
    exact .of_inited (hin.trans (hs.inited hne ho)) hout
  · have hn : s.inited ≠ true := by simp [hs.not_inited (by simpa using ho)]
    cases h with
    | i1 | i2 | i4 | i5 | i6 => exact { hs with seq := fun _ => .inr rfl, once := (absurd · hn) }
    | i3 => exact { hs with seq := fun _ => .inr rfl, sources := fun _ => ⟨rfl, rfl⟩, once := (absurd · hn) }
    | i7 => exact .of_inited rfl rfl
    | loopEnd h | b0 h => rcases h with h | h <;> simp [h, inInit] at ho
    | loopCr _ _ h | loopChar _ _ h => rcases h with ⟨h, _⟩ | ⟨h, _⟩ <;> simp [h, inInit] at ho
    | _ => simp_all [inInit]

theorem Change.bootOk {o s t : State} (h : Change o s t) (hs : BootOk s) : BootOk t := by
  cases h with
  | effect _ _ _ hi hn _ h => exact .of_inited (h.inited.trans hn) (h.cpc hi).2
  | uop _ _ h => exact h.bootOk hs
  | handler _ hc h =>
    have hn : s.inited = true := by
      by_contra hn
      simp [hs.caller (by simpa using hn)] at hc
    exact .of_inited (h.inited.trans hn) (h.sameCaller.cpc ▸ hs.once hn)
  | initStart _ _ hn => exact { hs with seq := fun _ => .inr rfl, once := fun h => by simp [hn] at h }
  | entered _ _ _ hn | lost hn | received _ hn | sent hn => exact .of_inited hn (hs.once hn)
  | reset => exact (inv_resetStep s).boot
  | wait | refused => exact { hs with }

/-! ### The line's log -/

theorem FaultBit.mask_bit (f : FaultBit) : f.mask.getLsbD f.bit = true := by cases f <;> decide

/-- The log relation reads the transmitter, the two logs, `inited` and one flag, and a flag set only weakens it. -/
theorem LineLogOk.of_same {s t : State} (hs : LineLogOk s) (hf : AtMostOneFlag s.fault t.fault)
    (hi : t.inited = s.inited) (hl : t.txLog = s.txLog) (ho : t.lineOut = s.lineOut)
    (hr : t.regs.txReady = s.regs.txReady) (hh : t.regs.txHold = s.regs.txHold) : LineLogOk t := by
  intro hn hc
  rw [hl, ho, hr, hh]
  exact hs (hi ▸ hn) (faulted_of_flag hf hc)

/-- A write to a ready transmitter logs the byte it then holds; a write to a busy one is an overrun (spec R108). -/
theorem LineLogOk.dataWrite {s : State} (hs : LineLogOk s) (v : Byte) : LineLogOk (dataWrite v s) := by
  intro hn hc
  rw [dataWrite_inited] at hn
  cases hr : s.regs.txReady with
  | true =>
    have hlog := hs hn (faulted_of_flag (dataWrite_fault_flag v s) hc)
    simpa [hr] using hlog
  | false => simp [State.faulted, dataWrite_fault, hr, FaultBit.mask_bit] at hc

theorem LineLogOk.dataRead {s : State} (hs : LineLogOk s) : LineLogOk (dataRead s).2 :=
  hs.of_same (dataRead_fault_flag s) (by simp) (by simp) (by simp) (by simp) (by simp)

/-- `INIT` completes with a ready transmitter and empty logs; after it only `S1` writes the data register (spec R103). -/
theorem CallerMove.lineLogOk {s t : State} (h : CallerMove s t) (hb : BootOk s) (hs : LineLogOk s) : LineLogOk t := by
  cases h with
  | i7 h =>
    have hi : inInit s.cpc = true := by rw [h]; rfl
    obtain ⟨hlog, hout, _⟩ := hb.logs (hb.not_inited hi)
    simp [LineLogOk, hlog, hout]
  | s1 | s1back => exact hs.dataWrite s.opb
  | r1 => exact hs.dataRead
  | _ => exact hs

theorem HandlerMove.lineLogOk {s t : State} (h : HandlerMove s t) (hs : LineLogOk s) : LineLogOk t := by
  cases h with
  | h1 => exact hs.dataRead
  | h3 => exact hs.dataWrite s.hb
  | w1 => exact hs.dataWrite (s.byteAt .txm s.tx.rd)
  | _ => exact hs

theorem EffectMove.lineLogOk {s t : State} {i : Instr} (h : EffectMove s i t) (hs : LineLogOk s) : LineLogOk t :=
  hs.of_same h.fault h.inited (by cases h <;> rfl) (by cases h <;> rfl) (by cases h <;> rfl) (by cases h <;> rfl)

theorem Change.lineLogOk {o s t : State} (h : Change o s t) (hb : BootOk s) (hs : LineLogOk s) : LineLogOk t := by
  cases h with
  | refused f => exact hs.of_same (.inr ⟨f, rfl⟩) rfl rfl rfl rfl rfl
  | effect _ _ _ _ _ _ h => exact h.lineLogOk hs
  | uop _ _ h => exact h.lineLogOk hb hs
  | handler _ _ h => exact h.lineLogOk hs
  | sent hn hr =>
    intro hn hc
    have hlog := hs hn hc
    simpa [hr] using hlog
  | reset => exact (inv_resetStep s).lineLog
  | _ => exact hs

/-! ### The whole invariant -/

theorem Change.inv {o s t : State} (h : Change o s t) (hs : Inv s) : Inv t where
  range := h.inRange hs.range
  loop := h.loopOk hs.loop
  memory := h.memory hs.memory
  coherent := h.coherent hs.coherent
  context := h.contextOk hs.context
  bracket := h.bracketOk hs.bracket
  guards := h.guardOk hs
  boot := h.bootOk hs.boot
  lineLog := h.lineLogOk hs.boot hs.lineLog

/-- Settles O51: each part of the invariant is kept by every change, the ring tests with the help of range, exact copies and
context, the line's log with that of what holds before `INIT`. -/
theorem stepKeepsInvariant : Obligations.StepKeepsInvariant := fun _ _ hs h =>
  step_keeps (P := Inv) (fun _ p e hs => hs.queues p e) (fun _ _ _ hs hm => hm.change.inv hs) hs h

end Sys2Proof.Machine

/-! PROOFS. The two rings shared by caller and handlers: each cursor moves on its own side only, no handler runs inside a
bracket, and no index leaves its array. -/

namespace Sys2Proof.Machine

/-! ### The owners of the cursors -/

/-- A command moves neither cursor that belongs to a handler, and its own ones at `A3` and `B4` alone (spec R49, R137, R142). -/
theorem CallerMove.cursors {s t : State} (h : CallerMove s t) : t.rx.wr = s.rx.wr ∧ t.tx.rd = s.tx.rd ∧
    (s.cpc ≠ .a3 → t.tx.wr = s.tx.wr) ∧ (s.cpc ≠ .b4 → t.rx.rd = s.rx.rd) := by
  cases h with
  | a3 h => exact ⟨rfl, rfl, absurd h, fun _ => rfl⟩
  | b4 h => exact ⟨rfl, rfl, fun _ => rfl, absurd h⟩
  | _ => simp

/-- A handler moves neither cursor that belongs to a command, and its own ones at `H1` and `W1` alone (spec R49, R158, R162). -/
theorem HandlerMove.cursors {s t : State} (h : HandlerMove s t) : t.tx.wr = s.tx.wr ∧ t.rx.rd = s.rx.rd ∧
    (s.hpc ≠ .h1 → t.rx.wr = s.rx.wr) ∧ (s.hpc ≠ .w1 → t.tx.rd = s.tx.rd) := by
  cases h with
  | h1 h => exact ⟨by simp, rfl, absurd h, fun _ => by simp⟩
  | w1 h => exact ⟨rfl, by simp, fun _ => by simp, absurd h⟩
  | _ => simp

/-- Settles O39: of the changes a step can make in either situation, only the µops of the thread's owner move a cursor. -/
theorem cursorsMovedOnlyByTheirOwner : Obligations.CursorsMovedOnlyByTheirOwner := by
  intro s t hr h
  obtain ⟨p, _, hch⟩ := step_change h
  refine ⟨fun hc => ?_, fun hc hi => ?_⟩
  · have hne : s.ctx ≠ .caller := by simp [hc]
    cases hch with
    | handler _ _ h => exact h.cursors
    | effect _ _ hc => exact absurd hc hne
    | uop _ hc => exact absurd hc hne
    | reset he => exact absurd he hr
    | _ => exact ⟨rfl, rfl, fun _ => rfl, fun _ => rfl⟩
  · cases hch with
    | uop _ _ h => exact h.cursors
    | effect _ _ _ hidle => exact absurd hidle hi
    | handler _ hc' => exact absurd (hc.symm.trans hc') (by decide)
    | reset he => exact absurd he hr
    | _ => exact ⟨rfl, rfl, fun _ => rfl, fun _ => rfl⟩

/-! ### Brackets exclude handlers -/

/-- Inside a bracket every µop stays inside, but `A4` and `B5`, which unmask the line (spec R50, R137, R142). -/
theorem CallerMove.bracket_cases {s t : State} (h : CallerMove s t) (hb : inBracket s.cpc = true) :
    inBracket t.cpc = true ∨ (s.cpc = .a4 ∨ s.cpc = .b5) ∧ t.regs.lineEn = true := by
  cases h with
  | a2 | a3 | b3 | b4 => exact .inl rfl
  | a4 h => exact .inr ⟨.inl h, rfl⟩
  | b5 h => exact .inr ⟨.inr h, rfl⟩
  | loopEnd h | b0 h => rcases h with h | h <;> simp [h, inBracket] at hb
  | loopCr _ _ h | loopChar _ _ h => rcases h with ⟨h, _⟩ | ⟨h, _⟩ <;> simp [h, inBracket] at hb
  | _ => simp_all [inBracket]

/-- From inside a bracket a change but reset leaves the caller's context, and the bracket only by its unmask. -/
theorem Change.bracket_cases {o s t : State} (h : Change o s t) (hs : BracketOk s) (hb : inBracket s.cpc = true)
    (hr : o.sched.head? ≠ some .reset) :
    t.ctx = .caller ∧ (inBracket t.cpc = true ∨ (s.cpc = .a4 ∨ s.cpc = .b5) ∧ t.regs.lineEn = true) := by
  obtain ⟨hmask, hc⟩ := hs hb
  cases h with
  | uop _ _ h => exact ⟨h.context.2.trans hc, h.bracket_cases hb⟩
  | initStart _ hi | effect _ _ _ hi => simp [hi, inBracket] at hb
  | entered _ _ _ _ hout => simp [hmask, hb] at hout
  | handler _ hh => simp [hc] at hh
  | reset he => exact absurd he hr
  | _ => exact ⟨hc, .inl hb⟩

/-- With the line masked the turn of a legal handler word passes (spec R180, log 8). -/
theorem step_dispatch_masked {s : State} {w : Word} {i : Instr} (hd : decodeOn .dispatch w = .ok i)
    (hl : s.regs.lineEn = false) (he : s.sched.head? = some (.dispatch w)) :
    step s = .next { s with sched := s.sched.tail } := by
  obtain ⟨es, hes⟩ : ∃ es, s.sched = .dispatch w :: es := ⟨_, List.eq_cons_of_mem_head? he⟩
  rw [step_cons hes, hes]
  exact (frameworkStep_ok hd _).trans (if_neg (Bool.eq_false_iff.1 (dispatchable_masked hl i)))

/-- Settles O54: the mask shuts dispatches out, the bracket itself direct calls, and only an unmask µop leaves it. -/
theorem bracketExcludesHandlers : Obligations.BracketExcludesHandlers := by
  intro s t hs hb hr h
  obtain ⟨p, _, hch⟩ := step_change h
  obtain ⟨hc, hout⟩ := hch.bracket_cases hs.bracket hb hr
  refine ⟨hc, (stepKeepsInvariant s t hs h).context.2 hc, fun hd => ?_, hout⟩
  have hl := (hs.bracket hb).1
  have hpass : step s = .next { s with sched := s.sched.tail } :=
    hd.elim (step_dispatch_masked (i := .rxh) rfl hl) (step_dispatch_masked (i := .txh) rfl hl)
  rw [hpass] at h
  injection h with h
  exact h.symm

/-! ### The turn of the thread's owner -/

/-- With a command in progress the thread's turn is the µop that `cpc` names (spec R68). -/
theorem threadStep_uop {s : State} (hc : s.ctx = .caller) (hi : s.cpc ≠ .idle) : threadStep s = orFault (callerUop s) := by
  unfold threadStep
  rw [hc]
  dsimp only
  unfold callerStep
  split
  · next h => exact absurd h hi
  · rfl

/-- With a handler active the thread's turn is the µop that `hpc` names (spec R68). -/
theorem threadStep_handlerUop {s : State} (hc : s.ctx = .handler) : threadStep s = orFault (handlerUop s) := by
  unfold threadStep
  rw [hc]

/-- An idle caller presents the next word of its program (spec R66, R70). -/
theorem threadStep_present {s : State} {r : Request} {rs : List Request} (hc : s.ctx = .caller) (hi : s.cpc = .idle)
    (hp : s.prog = r :: rs) : threadStep s = present r.port.toPort r.word { s with prog := rs } := by
  unfold threadStep callerStep
  rw [hc, hi, hp]

/-- An idle caller with no word to issue waits (log 21). -/
theorem threadStep_wait {s : State} (hc : s.ctx = .caller) (hi : s.cpc = .idle) (hp : s.prog = []) :
    threadStep s = .next s := by
  unfold threadStep callerStep
  rw [hc, hi, hp]

/-! ### No index leaves its array -/

/-- A ring takes a byte, or refuses it, when its write cursor is in range (spec R89). -/
theorem ringPut_total (r : RingId) (b : Byte) {s : State} (h : (s.ring r).wr < s.N) : ∃ u, ringPut r b s = some u := by
  unfold ringPut
  split
  · exact ⟨_, rfl⟩
  · have hlt : (s.ring r).wr < (ringSpace r).size s.params := by cases r <;> exact h
    rw [memWrite_eq_some.2 ⟨hlt, rfl⟩]
    exact ⟨_, rfl⟩

/-- A ring gives a byte, or none, when its read cursor is in range (spec R89). -/
theorem ringGet_total (r : RingId) {s : State} (h : (s.ring r).rd < s.N) : ∃ u, ringGet r s = some u := by
  unfold ringGet
  split
  · exact ⟨_, rfl⟩
  · have hlt : (s.ring r).rd < (ringSpace r).size s.params := by cases r <;> exact h
    rw [memRead_eq_some.2 ⟨hlt, rfl⟩]
    exact ⟨_, rfl⟩

theorem putOk_total (r : RingId) (b : Byte) {s : State} (h : (s.ring r).wr < s.N) : ∃ t, putOk r b s = some t := by
  obtain ⟨_, hu⟩ := ringPut_total r b h
  exact ⟨_, by rw [putOk, hu]⟩

theorem getOk_total (r : RingId) {s : State} (h : (s.ring r).rd < s.N) : ∃ t, getOk r s = some t := by
  obtain ⟨⟨_, v⟩, hu⟩ := ringGet_total r h
  unfold getOk
  rw [hu]
  cases v <;> exact ⟨_, rfl⟩

/-- A loop head ends the send or reads a character of the rendered string (spec R125, R146). -/
theorem loopHead_total (back : Ret) (sub : CState) {s : State} (hs : InRange s) (h : s.fi ≤ s.fmtLen) :
    ∃ t, loopHead back sub s = some t := by
  unfold loopHead
  split
  · exact ⟨_, rfl⟩
  · next hne =>
    have hlt : s.fi < s.params.fmtMax := (Nat.lt_of_le_of_ne h hne).trans_le hs.fmtLen
    rw [memRead_eq_some.2 ⟨hlt, rfl⟩]
    dsimp only
    split <;> exact ⟨_, rfl⟩

/-- A µop of a command answers a next state (spec R41). -/
theorem callerUop_total {s : State} (hs : InRange s) (hl : LoopOk s) : ∃ t, callerUop s = some t := by
  unfold callerUop
  split
  case h_13 h => exact loopHead_total _ _ hs (hl (inLoop_of_head (.inl h))).1
  case h_17 => exact ⟨_, by rw [uopA2, memWrite_eq_some.2 ⟨hs.txWr, rfl⟩]⟩
  case h_25 => exact ⟨_, by rw [uopB3, memRead_eq_some.2 ⟨hs.rxRd, rfl⟩]⟩
  case h_28 h => exact loopHead_total _ _ hs (hl (inLoop_of_head (.inr h))).1
  all_goals exact ⟨_, rfl⟩

/-- A µop of a handler answers a next state (spec R41). -/
theorem handlerUop_total {s : State} (hs : InRange s) : ∃ t, handlerUop s = some t := by
  unfold handlerUop
  split
  case h_3 =>
    have hlt : (dataRead s).2.rx.wr < (dataRead s).2.N := by simpa [State.N] using hs.rxWr
    exact ⟨_, by simp only [uopH1]; rw [memWrite_eq_some.2 ⟨hlt, rfl⟩]⟩
  case h_8 => exact ⟨_, by rw [uopW1, memRead_eq_some.2 ⟨hs.txRd, rfl⟩]⟩
  all_goals exact ⟨_, rfl⟩

/-- The effect of an operation at issue answers a next state (spec R41). -/
theorem effectOf_total (i : Instr) {s : State} (hs : InRange s) : ∃ t, effectOf i s = some t := by
  cases i with
  | putRx b =>
    simp only [effectOf]
    split
    · exact ⟨_, rfl⟩
    · exact putOk_total .rx b hs.rxWr
  | putTx b => exact putOk_total .tx b hs.txWr
  | getRx => exact getOk_total .rx hs.rxRd
  | getTx =>
    simp only [effectOf]
    split
    · exact ⟨_, rfl⟩
    · exact getOk_total .tx hs.txRd
  | fmtch b =>
    simp only [effectOf]
    split
    · exact ⟨_, rfl⟩
    · next hne =>
      have hlt : s.fmtLen < s.params.fmtMax := Nat.lt_of_le_of_ne hs.fmtLen hne
      rw [memWrite_eq_some.2 ⟨hlt, rfl⟩]
      exact ⟨_, rfl⟩
  | _ => exact ⟨_, rfl⟩

theorem issue_total {eff : State → Option State} {s : State} (h : ∃ t, eff s = some t) : ∃ t, issue eff s = .next t := by
  obtain ⟨t, ht⟩ := h
  unfold issue
  split
  · split
    · exact ⟨t, by rw [ht]; rfl⟩
    · exact ⟨_, rfl⟩
  · exact ⟨_, rfl⟩

theorem issueInit_total (eff : State → State) (s : State) : ∃ t, issueInit eff s = .next t := by
  unfold issueInit
  split
  · split <;> exact ⟨_, rfl⟩
  · exact ⟨_, rfl⟩

theorem invoke_total (q : HState) (s : State) : ∃ t, invoke q s = .next t := by
  unfold invoke
  split
  · exact ⟨_, rfl⟩
  · split <;> exact ⟨_, rfl⟩

theorem exec_total (i : Instr) {s : State} (hs : InRange s) : ∃ t, exec i s = .next t := by
  by_cases hp : isPlain i = true
  · rw [exec_plain hp]
    exact issue_total (effectOf_total i hs)
  · cases i with
    | init => rw [exec_init]; exact issueInit_total _ s
    | rxh | txh => exact invoke_total _ s
    | _ => exact absurd rfl hp

theorem present_total (p : Port) (w : Word) {s : State} (hs : InRange s) : ∃ t, present p w s = .next t := by
  unfold present
  split
  · exact ⟨_, rfl⟩
  · exact exec_total _ hs

/-- The ranges do not speak of the two queues. -/
theorem InRange.queues {s : State} (h : InRange s) (p : List Request) (e : List Event) :
    InRange { s with prog := p, sched := e } :=
  ⟨h.rxWr, h.rxRd, h.txWr, h.txRd, h.fmtLen, h.cnt, h.fi⟩

theorem orFault_total {o : Option State} (h : ∃ t, o = some t) : ∃ t, orFault o = .next t :=
  h.imp fun _ => orFault_next.2

theorem threadStep_total {s : State} (hs : InRange s) (hl : LoopOk s) : ∃ t, threadStep s = .next t := by
  cases hc : s.ctx with
  | handler => exact threadStep_handlerUop hc ▸ orFault_total (handlerUop_total hs)
  | caller =>
    by_cases hi : s.cpc = .idle
    · cases hp : s.prog with
      | nil => exact ⟨s, threadStep_wait hc hi hp⟩
      | cons r rs => exact threadStep_present hc hi hp ▸ present_total _ _ (hs.queues rs s.sched)
    · exact threadStep_uop hc hi ▸ orFault_total (callerUop_total hs hl)

theorem frameworkStep_total (w : Word) {s : State} (hs : InRange s) : ∃ t, frameworkStep w s = .next t := by
  unfold frameworkStep
  split
  · exact ⟨_, rfl⟩
  · split
    · exact ⟨_, rfl⟩
    · split
      · exact exec_total _ hs
      · exact ⟨_, rfl⟩

theorem callStep_total (w : Word) {s : State} (hs : InRange s) : ∃ t, callStep w s = .next t := by
  unfold callStep
  split
  · exact present_total _ _ hs
  · exact ⟨_, rfl⟩

theorem agentStep_total (e : Event) {s : State} (hs : InRange s) (hl : LoopOk s) : ∃ t, agentStep e s = .next t := by
  cases e with
  | thread => exact threadStep_total hs hl
  | dispatch w => exact frameworkStep_total w hs
  | call w => exact callStep_total w hs
  | lineRx | lineTx | reset => exact ⟨_, rfl⟩

/-- Settles O53: every agent's turn indexes an array by a cursor, by `fmt_len` below the buffer's size, or by the loop index
short of `fmt_len`. -/
theorem stepNeverStops : Obligations.StepNeverStops := by
  intro s hs hl
  cases hsched : s.sched with
  | nil => rw [step_nil hsched]; exact threadStep_total hs hl
  | cons e es => rw [step_cons hsched]; exact agentStep_total e (hs.queues s.prog es) hl

end Sys2Proof.Machine

/-! PROOFS. Under weak fairness a synchronous send completes: the transmitter it polls becomes ready and stays so, and the
thread has its turns. -/

namespace Sys2Proof.Machine

/-! ### A synchronous send that waits -/

/-- Nothing can be dispatched: the line is masked, or both sources are disabled (spec R179, R180). -/
def Quiet (s : State) : Prop := s.regs.lineEn = false ∨ (s.regs.rxIe = false ∧ s.regs.txIe = false)

theorem Quiet.not_dispatchable {s : State} (h : Quiet s) (i : Instr) : dispatchable s i = false := by
  rcases h with h | ⟨hrx, htx⟩
  · exact dispatchable_masked h i
  · cases i <;> simp [dispatchable, rxIrq, txIrq, hrx, htx]

/-- The `SEND` issued in `o` is at the µ-state `q`, and its byte is not yet written. -/
structure SendAt (o : State) (q : CState) (s : State) : Prop where
  ctx : s.ctx = .caller
  cpc : s.cpc = q
  ret : s.ret = .done
  inited : s.inited = true
  txEn : s.regs.txEn = true
  quiet : Quiet s
  opb : s.opb = o.opb
  txLog : s.txLog = o.txLog
  overrun : s.faulted .txovr = o.faulted .txovr

theorem faulted_txovr_raise_illcmd (s : State) : (s.raise .illcmd).faulted .txovr = s.faulted .txovr := by
  simp [State.faulted, FaultBit.mask, FaultBit.bit]

/-- What the `Framework` can do while nothing can be dispatched: refuse an illegal word (spec R64, R180). -/
theorem frameworkStep_quiet {w : Word} {s t : State} (hq : Quiet s) (h : frameworkStep w s = .next t) :
    t = s ∨ t = s.raise .illcmd := by
  unfold frameworkStep at h
  split at h
  · injection h with h; exact .inl h.symm
  · split at h
    · injection h with h; exact .inr h.symm
    · next i _ =>
      rw [hq.not_dispatchable i] at h
      injection h with h
      exact .inl h.symm

/-- The turns of the other agents leave a waiting send as it is, and a ready transmitter ready. -/
theorem SendAt.other {o s t : State} {q : CState} {e : Event} (hs : SendAt o q s) (hth : e ≠ .thread)
    (he : e ≠ .reset ∧ ∀ w, e ≠ .call w) (h : agentStep e s = .next t) :
    SendAt o q t ∧ (s.regs.txReady = true → t.regs.txReady = true) := by
  cases e with
  | thread => exact absurd rfl hth
  | reset => exact absurd rfl he.1
  | call w => exact absurd rfl (he.2 w)
  | lineRx b =>
    injection h with h
    subst h
    rcases lineRxStep_cases b s with h | ⟨_, _, _, h⟩ | ⟨_, _, _, h⟩ <;> rw [h] <;> exact ⟨{ hs with }, id⟩
  | lineTx =>
    injection h with h
    subst h
    rcases lineTxStep_cases s with h | ⟨_, _, _, h⟩ <;> rw [h]
    · exact ⟨hs, id⟩
    · exact ⟨{ hs with }, fun _ => rfl⟩
  | dispatch w =>
    rcases frameworkStep_quiet hs.quiet h with rfl | rfl
    · exact ⟨hs, id⟩
    · exact ⟨{ hs with overrun := (faulted_txovr_raise_illcmd s).trans hs.overrun }, id⟩

/-- `S0` on the thread's turn: it spins on a busy transmitter (spec R121). -/
theorem SendAt.thread_s0 {o s : State} (hs : SendAt o .s0 s) : threadStep s = .next (uopS0 s) := by
  rw [threadStep_uop hs.ctx (by simp [hs.cpc])]
  simp [callerUop, hs.cpc, orFault]

/-- `S1` on the thread's turn (spec R121). -/
theorem SendAt.thread_s1 {o s : State} (hs : SendAt o .s1 s) : threadStep s = .next (uopS1 s) := by
  rw [threadStep_uop hs.ctx (by simp [hs.cpc])]
  simp [callerUop, hs.cpc, orFault]

/-- While the transmitter is busy every turn leaves the send at `S0`. -/
theorem SendAt.polls {o s t : State} {e : Event} (hs : SendAt o .s0 s) (hr : s.regs.txReady = false)
    (he : e ≠ .reset ∧ ∀ w, e ≠ .call w) (h : agentStep e s = .next t) : SendAt o .s0 t := by
  by_cases hth : e = .thread
  · subst hth
    have hspin : threadStep s = .next s := by rw [hs.thread_s0, uopS0, hr]; rfl
    rw [agentStep, hspin] at h
    injection h with h
    exact h ▸ hs
  · exact (hs.other hth he h).1

/-! ### Fair runs -/

section FairRun

variable {σ : Nat → State} {ev : Nat → Event}

/-- What every turn but the thread's keeps holds until the thread has its turn (spec R54 item c). -/
theorem Fair.until_thread (hf : Fair σ ev) {P : State → Prop}
    (hkeep : ∀ k, P (σ k) → ev k ≠ .thread → P (σ (k + 1))) {n : Nat} (hn : P (σ n)) :
    ∃ m, P (σ m) ∧ ev m = .thread := by
  obtain ⟨m, hnm, hm⟩ := hf.thread n
  obtain ⟨d, rfl⟩ := Nat.exists_eq_add_of_le hnm
  clear hnm
  induction d generalizing n with
  | zero => exact ⟨n, hn, hm⟩
  | succ d ih =>
    by_cases hth : ev n = .thread
    · exact ⟨n, hn, hth⟩
    · exact ih (hkeep n hn hth) (by rwa [Nat.add_right_comm, Nat.add_assoc])

/-- A send that polls finds the transmitter ready at some point, since one that stays busy finishes (spec R54 item a). -/
theorem Fair.transmitter_ready (hf : Fair σ ev) (hrun : IsRun σ ev) (hev : ∀ n, ev n ≠ .reset ∧ ∀ w, ev n ≠ .call w)
    {o : State} (h0 : SendAt o .s0 (σ 0)) : ∃ n, SendAt o .s0 (σ n) ∧ (σ n).regs.txReady = true := by
  by_contra hno
  have hbusy : ∀ n, SendAt o .s0 (σ n) → (σ n).regs.txReady = false := fun n hn => by
    by_contra hr
    exact hno ⟨n, hn, by simpa using hr⟩
  have hall : ∀ n, SendAt o .s0 (σ n) := fun n => by
    induction n with
    | zero => exact h0
    | succ n ih => exact ih.polls (hbusy n ih) (hev n) (hrun n)
  have hen : ∀ n, lineTxEnabled (σ n) = true := fun n => by
    simp [lineTxEnabled, (hall n).inited, (hall n).txEn, hbusy n (hall n)]
  obtain ⟨m, _, hm⟩ := hf.lineTx 0 fun n _ => hen n
  have hsent : lineTxStep (σ m) = σ (m + 1) := by
    have := hrun m
    rw [hm] at this
    injection this
  have := hbusy (m + 1) (hall (m + 1))
  rw [← hsent, lineTxStep, if_pos (hen m)] at this
  cases this

/-- A send whose transmitter is ready waits for the thread's turn, ready as it is. -/
theorem Fair.send_has_turn (hf : Fair σ ev) (hrun : IsRun σ ev) (hev : ∀ n, ev n ≠ .reset ∧ ∀ w, ev n ≠ .call w)
    {o : State} {q : CState} {n : Nat} (hn : SendAt o q (σ n)) (hr : (σ n).regs.txReady = true) :
    ∃ m, SendAt o q (σ m) ∧ (σ m).regs.txReady = true ∧ threadStep (σ m) = .next (σ (m + 1)) := by
  obtain ⟨m, ⟨hm, hrm⟩, hth⟩ := hf.until_thread (P := fun s => SendAt o q s ∧ s.regs.txReady = true)
    (fun k ⟨hk, hrk⟩ hth => (hk.other hth (hev k) (hrun k)).imp_right (· hrk)) ⟨hn, hr⟩
  exact ⟨m, hm, hrm, by simpa only [hth, agentStep] using hrun m⟩

end FairRun

/-- Settles O60: the transmitter becomes ready at `S0`; the thread's next turn leads to `S1` and the one after it writes the
byte, to a transmitter that is still ready. -/
theorem fairSendCompletes : Obligations.FairSendCompletes := by
  intro σ ev hrun hf hev hctx hcpc hret hin hen hquiet
  have h0 : SendAt (σ 0) .s0 (σ 0) := ⟨hctx, hcpc, hret, hin, hen, hquiet, rfl, rfl, rfl⟩
  obtain ⟨n, hn, hr⟩ := hf.transmitter_ready hrun hev h0
  obtain ⟨m, hm, hrm, hstep⟩ := hf.send_has_turn hrun hev hn hr
  have hs1 : σ (m + 1) = { σ m with cpc := .s1 } := by
    rw [hm.thread_s0, uopS0, if_pos hrm] at hstep
    injection hstep with h
    exact h.symm
  have hm1 : SendAt (σ 0) .s1 (σ (m + 1)) := hs1 ▸ { hm with cpc := rfl }
  obtain ⟨k, hk, hrk, hstep⟩ := hf.send_has_turn hrun hev hm1 (by rw [hs1]; exact hrm)
  have hend : σ (k + 1) = { dataWrite (σ k).opb (σ k) with cpc := .idle } := by
    rw [hk.thread_s1, uopS1, hk.ret] at hstep
    injection hstep with h
    exact h.symm
  refine ⟨k + 1, by rw [hend], ?_, ?_⟩
  · rw [hend, ← hk.opb, ← hk.txLog]
    exact dataWrite_txLog _ _
  · rw [hend, ← hk.overrun, dataWrite_of_ready hrk]
    rfl

end Sys2Proof.Machine

/-! PROOFS. A program of `SENDA`, end to end: the bytes written, those queued, the one being queued and those still to issue
are together what they were, whatever the schedule. -/

namespace Sys2Proof.Machine

/-- A step takes the event at the head of the schedule, and nothing else writes the schedule (log 7). -/
theorem Change.sched {o s t : State} (h : Change o s t) : t.sched = s.sched := by
  cases h with
  | effect _ _ _ _ _ _ h => cases h <;> rfl
  | uop _ _ h => cases h <;> simp
  | handler _ _ h => cases h <;> simp
  | _ => rfl

theorem step_sched {s t : State} (h : step s = .next t) : t.sched = s.sched.tail := by
  obtain ⟨_, _, hch⟩ := step_change h
  exact hch.sched

/-! ### The outbound path -/

/-- The byte that a queueing command has taken and not yet published (spec R136, R137). -/
def pendingByte (s : State) : List Byte :=
  match s.cpc with
  | .a0 | .a0e | .a1 | .a2 | .a3 => [s.opb]
  | _ => []

/-- What the outbound path holds, oldest first: the bytes written to the data register, those queued, and the one being
queued. -/
def outbound (s : State) : List Byte := s.txLog ++ unread s.N s.tx ++ pendingByte s

/-- The µ-states of `SENDA`, and the idle one (spec R135 to R138). -/
def inSenda : CState → Bool
  | .idle | .a0 | .a0e | .a1 | .a2 | .a3 | .a4 | .a5 => true
  | .i1 | .i2 | .i3 | .i4 | .i5 | .i6 | .i7 | .s0 | .s1 | .r0 | .r1 | .f0 | .g0
  | .b0 | .b1 | .b1e | .b2 | .b3 | .b4 | .b5 => false

/-- The µ-states of `TXH`, and that of no handler (spec R160 to R163). -/
def inTxh : HState → Bool
  | .none | .w0 | .w1 | .w2 => true
  | .h0 | .h1 | .h2 | .h3 | .h4 => false

/-- The words of a program of `SENDA`. -/
def sendaProgram (bs : List Byte) : List Request := bs.map fun b => ⟨.command, encode (.senda b)⟩

/-- A program of `SENDA` runs, interrupted by `TXH` alone: `all` is what the outbound path held and is to hold, `f` the fault
register. A handler entered by dispatch finds the transmitter ready until its own write (spec R180). -/
structure Sending (all : List Byte) (f : BitVec 6) (s : State) : Prop where
  inited : s.inited = true
  cpc : inSenda s.cpc = true
  ret : s.cpc ≠ .idle → s.ret = .done
  hpc : inTxh s.hpc = true
  ready : s.hpc = .w0 ∨ s.hpc = .w1 → s.regs.txReady = true
  stored : s.cpc = .a3 → Memory.getZ s.tx.mem s.tx.wr = s.opb
  fault : s.fault = f
  bytes : ∃ rest, s.prog = sendaProgram rest ∧ outbound s ++ rest = all

/-! ### The µops of `SENDA` -/

/-- A queueing command publishes the byte it has taken, once, and loses none (spec R136 to R138). -/
theorem CallerMove.outbound {s t : State} (h : CallerMove s t) (hi : Inv s) (hc : inSenda s.cpc = true)
    (hm : s.cpc = .a3 → Memory.getZ s.tx.mem s.tx.wr = s.opb) : outbound t = outbound s := by
  have hr := hi.range
  cases h with
  | a0full h | a0room h | a0e h | a1 h | a4 h | a5 h | a5back h => simp [Machine.outbound, pendingByte, h]
  | a2 h =>
    have hstore := unread_store s.opb hr.txWr hr.txRd
    simp [Machine.outbound, pendingByte, h, hstore]
  | a3 h =>
    have hroom : inc s.N s.tx.wr ≠ s.tx.rd := fun he => by
      simpa [(fullP_iff hi.coherent.2.2.2).2 he] using hi.guards.queue (.inr (.inr h))
    have hpub := unread_advanceWr hr.txWr hr.txRd hroom
    simp [Machine.outbound, pendingByte, h, hpub, hm h]
  | s0spin | r0spin => rfl
  | loopEnd h | b0 h => rcases h with h | h <;> simp [h, inSenda] at hc
  | loopCr _ _ h | loopChar _ _ h => rcases h with ⟨h, _⟩ | ⟨h, _⟩ <;> simp [h, inSenda] at hc
  | _ => simp_all [inSenda]

theorem Sending.uop {all : List Byte} {f : BitVec 6} {s t : State} (hs : Sending all f s) (hi : Inv s)
    (hne : s.cpc ≠ .idle) (h : CallerMove s t) : Sending all f t := by
  have hret := hs.ret hne
  have hc := hs.cpc
  have hout := h.outbound hi hc hs.stored
  obtain ⟨rest, hprog, hbytes⟩ := hs.bytes
  rw [← hout] at hbytes
  cases h with
  | a0full | a0room | a0e | a1 | a3 | a4 | a5 =>
    exact { hs with cpc := rfl, ret := fun _ => hret, stored := by simp, bytes := ⟨rest, hprog, hbytes⟩ }
  | a2 =>
    exact { hs with
      cpc := rfl, ret := fun _ => hret, stored := fun _ => Memory.getZ_setZ_same .., bytes := ⟨rest, hprog, hbytes⟩ }
  | a5back _ hr => exact absurd hret hr
  | s0spin | r0spin => exact hs
  | loopEnd h | b0 h => rcases h with h | h <;> simp [h, inSenda] at hc
  | loopCr _ _ h | loopChar _ _ h => rcases h with ⟨h, _⟩ | ⟨h, _⟩ <;> simp [h, inSenda] at hc
  | _ => simp_all [inSenda]

/-! ### The µops of `TXH` -/

/-- `TXH` moves the oldest queued byte to the data register (spec R162). -/
theorem HandlerMove.outbound {s t : State} (h : HandlerMove s t) (hi : Inv s) (hh : inTxh s.hpc = true) :
    outbound t = outbound s := by
  cases h with
  | w1 h =>
    have hne : s.tx.wr ≠ s.tx.rd := fun he => by
      simpa [(emptyC_iff hi.coherent.2.2.1).2 he] using hi.guards.txh h
    have htake := unread_advanceRd hi.range.txWr hi.range.txRd hne
    simp [Machine.outbound, pendingByte, htake, State.N]
  | h1 h | h3 h => simp [h, inTxh] at hh
  | _ => rfl

theorem Sending.handler {all : List Byte} {f : BitVec 6} {s t : State} (hs : Sending all f s) (hi : Inv s)
    (h : HandlerMove s t) : Sending all f t := by
  have hh := hs.hpc
  have hout := h.outbound hi hh
  obtain ⟨rest, hprog, hbytes⟩ := hs.bytes
  rw [← hout] at hbytes
  cases h with
  | none | h2spin => exact hs
  | w0empty | w2 => exact { hs with hpc := rfl, ready := by simp, bytes := ⟨rest, hprog, hbytes⟩ }
  | w0data h => exact { hs with hpc := rfl, ready := fun _ => hs.ready (.inl h), bytes := ⟨rest, hprog, hbytes⟩ }
  | w1 h =>
    have hr := hs.ready (.inr h)
    rw [dataWrite_of_ready hr] at hbytes ⊢
    exact { hs with hpc := rfl, ready := by simp, bytes := ⟨rest, hprog, hbytes⟩ }
  | _ => simp_all [inTxh]

/-! ### Issue, dispatch and the line -/

theorem decodeOn_senda (b : Byte) : decodeOn .command (encode (.senda b)) = .ok (.senda b) := by
  simp [decodeOn, decode, encode, Instr.opcode, Instr.imm, Instr.wfOn, Instr.port]

theorem decodeOn_txh : decodeOn .dispatch (encode .txh) = .ok .txh := by decide

/-- The issue of `SENDA` takes the byte from the program (spec R135). -/
theorem Sending.issue {all : List Byte} {f : BitVec 6} {s t : State} {r : Request} {rs : List Request}
    (hs : Sending all f s) (hc : s.ctx = .caller) (hi : s.cpc = .idle) (hp : s.prog = r :: rs)
    (h : present r.port.toPort r.word { s with prog := rs } = .next t) : Sending all f t := by
  obtain ⟨rest, hprog, hbytes⟩ := hs.bytes
  rw [hp] at hprog
  cases rest with
  | nil => cases hprog
  | cons b rest =>
    obtain ⟨rfl, rfl⟩ := List.cons.inj hprog
    have hready : callerReady { s with prog := sendaProgram rest } = true := callerReady_iff.2 ⟨hc, hi⟩
    have hexec : exec (.senda b) { s with prog := sendaProgram rest } =
        .next { s with prog := sendaProgram rest, opb := b, ret := .done, cpc := .a0 } := by
      rw [exec_plain rfl, issue_ready hready hs.inited]
      rfl
    have ht : t = { s with prog := sendaProgram rest, opb := b, ret := .done, cpc := .a0 } := by
      simp only [present, CallerPort.toPort, decodeOn_senda] at h
      exact (Host.Outcome.next.inj (hexec.symm.trans h)).symm
    subst ht
    refine { hs with cpc := rfl, ret := fun _ => rfl, stored := by simp, bytes := ⟨rest, rfl, ?_⟩ }
    simpa [outbound, pendingByte, hi] using hbytes

theorem Sending.thread {all : List Byte} {f : BitVec 6} {s t : State} (hs : Sending all f s) (hi : Inv s)
    (h : threadStep s = .next t) : Sending all f t := by
  cases hc : s.ctx with
  | handler =>
    rw [threadStep_handlerUop hc, orFault_next] at h
    exact hs.handler hi (handlerUop_move h)
  | caller =>
    by_cases hidle : s.cpc = .idle
    · cases hp : s.prog with
      | nil =>
        rw [threadStep_wait hc hidle hp] at h
        injection h with h
        exact h ▸ hs
      | cons r rs => exact hs.issue hc hidle hp (threadStep_present hc hidle hp ▸ h)
    · rw [threadStep_uop hc hidle, orFault_next] at h
      exact hs.uop hi hidle (callerUop_move hidle h)

/-- `TXH` is dispatched only to a ready transmitter (spec R179, R180). -/
theorem Sending.dispatch {all : List Byte} {f : BitVec 6} {s t : State} (hs : Sending all f s)
    (h : frameworkStep (encode .txh) s = .next t) : Sending all f t := by
  rw [frameworkStep_ok decodeOn_txh] at h
  split at h
  · next hd =>
    obtain ⟨hn, hc, _, hq⟩ := dispatchable_txh.1 hd
    rcases invoke_next h with ⟨hh, _⟩ | ⟨_, hn', _⟩ | ⟨_, _, rfl⟩
    · simp [hc] at hh
    · simp [hn] at hn'
    · exact { hs with hpc := rfl, ready := fun _ => (Bool.and_eq_true_iff.1 hq).2 }
  · injection h with h
    exact h ▸ hs

/-- The events of a schedule of the thread, the line and dispatches of `TXH`. -/
def SendaEvent (e : Event) : Prop :=
  e = .thread ∨ e = .lineTx ∨ (∃ b, e = .lineRx b) ∨ e = .dispatch (encode .txh)

theorem Sending.agent {all : List Byte} {f : BitVec 6} {s t : State} {e : Event} (hs : Sending all f s) (hi : Inv s)
    (he : SendaEvent e) (h : agentStep e s = .next t) : Sending all f t := by
  rcases he with rfl | rfl | ⟨b, rfl⟩ | rfl
  · exact hs.thread hi h
  · injection h with h
    subst h
    rcases lineTxStep_cases s with h | ⟨_, _, _, h⟩ <;> rw [h]
    · exact hs
    · exact { hs with ready := fun _ => rfl }
  · injection h with h
    subst h
    rcases lineRxStep_cases b s with h | ⟨_, _, _, h⟩ | ⟨_, _, _, h⟩ <;> rw [h] <;> exact { hs with }
  · exact hs.dispatch h

/-! ### Whole runs -/

/-- A run of a program of `SENDA` under such a schedule, with the state invariant. -/
structure SendaRun (all : List Byte) (f : BitVec 6) (s : State) : Prop where
  inv : Inv s
  sched : ∀ e ∈ s.sched, SendaEvent e
  sending : Sending all f s

theorem SendaRun.step {all : List Byte} {f : BitVec 6} {s t : State} (hs : SendaRun all f s) (h : step s = .next t) :
    SendaRun all f t := by
  refine ⟨stepKeepsInvariant s t hs.inv h, ?_, ?_⟩
  · rw [step_sched h]
    exact fun e he => hs.sched e (List.mem_of_mem_tail he)
  · cases hsched : s.sched with
    | nil => exact hs.sending.thread hs.inv (step_nil hsched ▸ h)
    | cons e es =>
      have he : SendaEvent e := hs.sched e (by simp [hsched])
      rw [step_cons hsched] at h
      exact Sending.agent (s := { s with sched := es }) { hs.sending with } (hs.inv.queues s.prog es) he h

theorem outbound_idle {s : State} (h : s.cpc = .idle) : outbound s = s.txLog ++ unread s.N s.tx := by
  simp [outbound, pendingByte, h]

/-- Settles O58: the whole of the bytes is the same at every step, and when the program has run all of them are written or
queued. -/
theorem sendaEndToEnd : Obligations.SendaEndToEnd := by
  intro bs n s t hi hready hn hprog hsched hrun hdone hnil
  obtain ⟨hc, hidle⟩ := callerReady_iff.1 hready
  have hnone : s.hpc = .none := hi.context.2 hc
  have hstart : SendaRun (outbound s ++ bs) s.fault s :=
    ⟨hi, hsched, hn, by rw [hidle]; rfl, (absurd hidle ·), by rw [hnone]; rfl, by simp [hnone], by simp [hidle], rfl,
      bs, hprog, rfl⟩
  obtain ⟨_, _, hend⟩ := steps_keep (fun _ _ => SendaRun.step) hstart hrun
  obtain ⟨rest, hrest, hbytes⟩ := hend.bytes
  have hempty : rest = [] := List.map_eq_nil_iff.1 (hrest.symm.trans hnil)
  rw [hempty, List.append_nil, outbound_idle (callerReady_iff.1 hdone).2, outbound_idle hidle] at hbytes
  exact ⟨hbytes, hend.fault⟩

end Sys2Proof.Machine

/-! PROOFS. Decoder, encoder and opcode table: a word decodes to an operation exactly when it is that operation's word, and
the rows of the table are the operations' words read as match and mask. -/

namespace Sys2Proof

/-! ### The decoder inverts the encoder -/

theorem decodeZ_eq_ok {w : Word} {i j : Instr} : decodeZ w i = .ok j ↔ immField w = 0x00 ∧ i = j := by
  unfold decodeZ
  split <;> simp_all

/-- The decoder's arm for an operation's opcode gives that operation, with its own operand (spec R63). -/
theorem decode_encode (i : Instr) : decode (encode i) = .ok i := by
  have hop : opField (encode i) = i.opcode := opField_join _ _
  have himm : immField (encode i) = i.imm := immField_join _ _
  unfold decode
  rw [hop]
  cases i <;> simp [Instr.opcode, decodeZ_eq_ok, himm, Instr.imm]

/-- What the decoder answers has the word's two fields: each arm names its own opcode, and format Z checks that the other
field is zero (spec R61, R65). -/
theorem fields_of_decode {w : Word} {i : Instr} (h : decode w = .ok i) : opField w = i.opcode ∧ immField w = i.imm := by
  unfold decode at h
  split at h
  case h_2 hop | h_5 hop | h_12 hop | h_13 hop | h_17 hop => cases h; exact ⟨hop, rfl⟩
  case h_18 => cases h
  all_goals
    next hop =>
    obtain ⟨himm, rfl⟩ := decodeZ_eq_ok.1 h
    exact ⟨hop, himm⟩

theorem decode_eq_ok_iff {w : Word} {i : Instr} : decode w = .ok i ↔ encode i = w := by
  constructor
  · intro h
    obtain ⟨hop, himm⟩ := fields_of_decode h
    rw [encode, ← hop, ← himm, join_fields]
  · rintro rfl
    exact decode_encode i

/-- Settles O1: the decoder gives the operation back, and a port keeps it or refuses it by its opcode's port. -/
theorem decodeEncodeRoundTrip : Obligations.DecodeEncodeRoundTrip := by
  refine ⟨decode_encode, fun p i => ?_⟩
  unfold decodeOn
  rw [decode_encode]
  simp only [Instr.wfOn, decide_eq_true_eq]

/-- Settles O2: a word is joined from its two fields, and what it decodes to has both. -/
theorem decodedWordIsItsEncoding : Obligations.DecodedWordIsItsEncoding := fun _ _ h => decode_eq_ok_iff.1 h

/-! ### The opcode table -/

/-- Every operation's word matches the row with its mnemonic, opcode and port (spec R63). -/
theorem exists_row (i : Instr) : Laws.TableRow.Statement i := by
  open Laws.TableRow in
  cases i with
  | init => exact init
  | send b => exact send b
  | recv => exact recv
  | sendf => exact sendf
  | senda b => exact senda b
  | recva => exact recva
  | sendfa => exact sendfa
  | irqen => exact irqen
  | irqdis => exact irqdis
  | rxh => exact rxh
  | txh => exact txh
  | putRx b => exact putRx b
  | putTx b => exact putTx b
  | getRx => exact getRx
  | getTx => exact getTx
  | fmtclr => exact fmtclr
  | fmtch b => exact fmtch b

/-- The decoder has an arm for every row of the table, and a match in format Z passes the arm's check of `imm` (spec R61,
R63). -/
theorem decode_of_hits {r : OpRow} {w : Word} (hr : r ∈ opTable) (h : r.hits w = true) : ∃ i, decode w = .ok i := by
  obtain ⟨hop, himm⟩ := (OpRow.hits_iff r w).1 h
  unfold decode
  rw [hop]
  fin_cases hr <;> simp_all [decodeZ]

/-- No two rows share an opcode (spec R63), so a word matches at most one. -/
theorem opTable_opcodes_nodup : (opTable.map OpRow.opcode).Nodup := by decide

theorem filter_hits_length_le_one (w : Word) : (opTable.filter fun r => r.hits w).length ≤ 1 :=
  calc (opTable.filter fun r => r.hits w).length
    _ = opTable.countP fun r => r.hits w := List.countP_eq_length_filter.symm
    _ ≤ opTable.countP fun r => r.opcode == opField w :=
        List.countP_mono_left fun r _ h => by simp [((OpRow.hits_iff r w).1 h).1]
    _ = (opTable.map OpRow.opcode).count (opField w) := by rw [List.count, List.countP_map]; rfl
    _ ≤ 1 := List.nodup_iff_count_le_one.1 opTable_opcodes_nodup _

/-- Settles O3: an operation's word matches its row, every row has its decoder arm, and opcodes tell the rows apart. -/
theorem decoderAgreesWithOpcodeTable : Obligations.DecoderAgreesWithOpcodeTable := by
  have row : ∀ (w : Word) (i : Instr), decode w = .ok i →
      ∃ r ∈ opTable, r.hits w = true ∧ r.mnemonic = i.mnemonic ∧ r.port = i.port := fun w i h => by
    obtain ⟨r, hr, hname, _, hport, hhit⟩ := exists_row i
    exact ⟨r, hr, decode_eq_ok_iff.1 h ▸ hhit, hname, hport⟩
  refine ⟨fun w => ⟨fun ⟨i, h⟩ => ?_, fun ⟨r, hr, h⟩ => decode_of_hits hr h⟩, filter_hits_length_le_one, row⟩
  obtain ⟨r, hr, hhit, _⟩ := row w i h
  exact ⟨r, hr, hhit⟩

/-- Settles O4: the decoder and the encoder evaluated on the words of R72. -/
theorem workedWordsDecode : Obligations.WorkedWordsDecode := by
  unfold Obligations.WorkedWordsDecode
  decide

end Sys2Proof

/-! PROOFS. The issue of a word: a step presents it to the port, which runs what it decodes to or refuses it; a busy port
holds. Then what an operation does at issue on the renderer port and on the ring port's put side. -/

namespace Sys2Proof.Machine

/-! ### A word on its port -/

theorem present_ok {p : Port} {w : Word} {i : Instr} (hd : decodeOn p w = .ok i) (s : State) :
    present p w s = exec i s := by
  rw [present, hd]

theorem present_error {p : Port} {w : Word} {e : Reject} (hd : decodeOn p w = .error e) (s : State) :
    present p w s = .next (s.raise .illcmd) := by
  rw [present, hd]

/-- An idle caller's turn presents its next word, whichever way the turn comes (spec R66, log 7). -/
theorem step_presents {s : State} {r : Request} {rs : List Request} (hr : callerReady s = true) (hp : s.prog = r :: rs) :
    (s.sched = [] → step s = present r.port.toPort r.word { s with prog := rs }) ∧
    (∀ es, s.sched = .thread :: es → step s = present r.port.toPort r.word { s with prog := rs, sched := es }) := by
  obtain ⟨hc, hi⟩ := callerReady_iff.1 hr
  exact ⟨fun hs => (step_nil hs).trans (threadStep_present hc hi hp),
    fun es hs => (step_cons hs).trans (threadStep_present (s := { s with sched := es }) hc hi hp)⟩

/-- A direct call where it is offered presents its word on the dispatch port (spec R155). -/
theorem step_calls {s : State} {w : Word} {es : List Event} (hs : s.sched = .call w :: es) (hc : callable s = true) :
    step s = present .dispatch w { s with sched := es } :=
  (step_cons hs).trans (if_pos hc)

/-- In caller context the `Framework` has an illegal word refused (spec R64, log 12). -/
theorem frameworkStep_error {w : Word} {e : Reject} {s : State} (hd : decodeOn .dispatch w = .error e)
    (hc : s.ctx = .caller) : frameworkStep w s = .next (s.raise .illcmd) := by
  rw [frameworkStep, hc, hd]

/-- The dispatch condition does not speak of the schedule (spec R180). -/
theorem dispatchable_sched (s : State) (es : List Event) (i : Instr) :
    dispatchable { s with sched := es } i = dispatchable s i := rfl

/-- Settles O5: the thread's turn and the call present the word, the `Framework` enters the handler under its condition. -/
theorem stepRunsDecodedOperation : Obligations.StepRunsDecodedOperation := by
  refine ⟨fun s r rs i hr hp hd => ?_, fun s w es i hd => ⟨fun hs hdp => ?_, fun hs hc => ?_⟩⟩
  · obtain ⟨hnil, hthread⟩ := step_presents hr hp
    exact ⟨fun hs => (hnil hs).trans (present_ok hd _), fun es hs => (hthread es hs).trans (present_ok hd _)⟩
  · rw [step_cons hs]
    exact (frameworkStep_ok hd _).trans (if_pos hdp)
  · exact (step_calls hs hc).trans (present_ok hd _)

/-- Settles O6: presented or called, the port refuses the word; the `Framework` has it refused in caller context. -/
theorem illegalWordOnlyRaisesIllcmd : Obligations.IllegalWordOnlyRaisesIllcmd := by
  refine ⟨fun s r rs e hr hp hd => ?_, fun s w es e hd => ⟨fun hc hs => ?_, fun hc hs => ?_⟩⟩
  · obtain ⟨hnil, hthread⟩ := step_presents hr hp
    exact ⟨fun hs => (hnil hs).trans (present_error hd _), fun es hs => (hthread es hs).trans (present_error hd _)⟩
  · exact (step_cons hs).trans (frameworkStep_error hd hc)
  · exact (step_calls hs hc).trans (present_error hd _)

/-! ### A busy port -/

theorem busy_iff {s : State} : busy s = true ↔ ¬ (s.ctx = .caller ∧ s.cpc = .idle) := by
  rw [← callerReady_iff, callerReady]
  simp

/-- An operation of a caller-side port is `INIT`, or one that shares the common issue step (spec R60, R66). -/
theorem init_or_plain {i : Instr} (h : i.port ≠ .dispatch) : i = .init ∨ isPlain i = true := by
  cases i <;> simp [isPlain, Instr.port] at *

theorem exec_busy {i : Instr} {s : State} (hp : i.port ≠ .dispatch) (hb : busy s = true) : exec i s = .next s := by
  have hr : ¬ callerReady s = true := by simp [callerReady, hb]
  rcases init_or_plain hp with rfl | hpl
  · exact if_neg hr
  · rw [exec_plain hpl]
    exact if_neg hr

/-- Only taking a word to issue it writes the pending words, no agent's move does (spec R70, log 9). -/
theorem Change.prog {o s t : State} (h : Change o s t) : t.prog = s.prog := by
  cases h with
  | effect _ _ _ _ _ _ h => cases h <;> rfl
  | uop _ _ h => cases h <;> simp
  | handler _ _ h => exact h.sameCaller.prog
  | _ => rfl

/-- Settles O7: the issue step needs an idle port, and so does taking a pending word. -/
theorem busyPortHolds : Obligations.BusyPortHolds := by
  refine ⟨fun i s hp hb => exec_busy hp hb, fun s t _ hb h => ?_⟩
  obtain ⟨p, rfl | ⟨r, _, hc, hi⟩, hm⟩ := step_move h
  · exact hm.change.prog
  · exact absurd ⟨hc, hi⟩ (busy_iff.1 hb)

/-! ### The effect at issue -/

/-- On an idle port, after `INIT`, an operation answers its effect at issue (spec R66). -/
theorem exec_effect {i : Instr} {s t : State} (hp : isPlain i = true) (hr : callerReady s = true) (hi : s.inited = true)
    (h : effectOf i s = some t) : exec i s = .next t := by
  rw [exec_plain hp, issue_ready hr hi, h, orFault]

/-- A full ring refuses the byte (spec R89). -/
theorem putOk_full {r : RingId} {b : Byte} {s : State} (hf : fullP s.N (s.ring r) = true) :
    putOk r b s = some { s with ok := false } := by
  rw [putOk, ringPut, if_pos hf]

/-- A ring with room stores the byte at its write cursor and publishes it (spec R89). -/
theorem putOk_room {r : RingId} {b : Byte} {s : State} (hf : fullP s.N (s.ring r) = false) (hw : (s.ring r).wr < s.N) :
    putOk r b s = some
      { s.setRing r ({ s.ring r with mem := Memory.setZ (s.ring r).mem (s.ring r).wr b }.advanceWr s.N) with
        ok := true } := by
  obtain ⟨t, ht⟩ := putOk_total r b hw
  rcases putOk_next ht with ⟨hfull, _⟩ | ⟨_, _, rfl⟩
  · simp [hf] at hfull
  · exact ht

/-- With room in the scratch buffer `FMTCH` stores its byte at `fmt_len` (spec R129). -/
theorem effectOf_fmtch_room {b : Byte} {s : State} (hlt : s.fmtLen < s.params.fmtMax) :
    effectOf (.fmtch b) s =
      some { s with opb := b, fmtLen := s.fmtLen + 1, fmtBuf := Memory.set s.fmtBuf s.fmtLen b } := by
  have hne : s.fmtLen ≠ s.params.N := hlt.ne
  have hstore : memWrite .fmt s.fmtLen b (takeImm b s) = some ((takeImm b s).putByte .fmt s.fmtLen b) :=
    memWrite_eq_some.2 ⟨hlt, rfl⟩
  rw [effectOf, if_neg hne, hstore]
  rfl

/-- Settles O20: `FMTCLR` and the full `FMTCH` are their effects; with room the bytes are those after one store at
`fmt_len`. -/
theorem rendererPortEffects : Obligations.RendererPortEffects := by
  intro b s hr hi
  refine ⟨exec_effect rfl hr hi rfl, fun hfull => exec_effect rfl hr hi (if_pos hfull), fun hlt => ?_⟩
  refine ⟨_, exec_effect rfl hr hi (effectOf_fmtch_room hlt), rfl, fun j => ?_⟩
  have hread := byteAt_putByte s .fmt .fmt s.fmtLen j b
  simp only [true_and, eq_comm (a := s.fmtLen)] at hread
  exact hread

/-- Settles O27: the owner check, then what ring `RX` makes of the byte. -/
theorem putRxEffect : Obligations.PutRxEffect := by
  intro b s hr hi hw
  refine ⟨fun ho => ?_, fun ho hf => ?_, fun ho hf => ?_⟩ <;> refine exec_effect rfl hr hi ?_
  · exact if_pos ho
  · exact (if_neg (Bool.eq_false_iff.1 ho)).trans (putOk_full hf)
  · exact (if_neg (Bool.eq_false_iff.1 ho)).trans (putOk_room hf hw)

/-- Settles O28: what ring `TX` makes of the byte. -/
theorem putTxEffect : Obligations.PutTxEffect := by
  intro b s hr hi hw
  exact ⟨fun hf => exec_effect rfl hr hi (putOk_full hf), fun hf => exec_effect rfl hr hi (putOk_room hf hw)⟩

end Sys2Proof.Machine

/-! PROOFS. The ring port's get side: what an operation does at issue when it takes a byte from a ring. -/

namespace Sys2Proof.Machine

/-- An empty ring gives no byte (spec R89). -/
theorem getOk_empty {r : RingId} {s : State} (he : emptyC (s.ring r) = true) : getOk r s = some { s with ok := false } := by
  rw [getOk, ringGet, if_pos he]

/-- A ring that is not empty gives the byte at its read cursor and frees the slot (spec R89). -/
theorem getOk_data {r : RingId} {s : State} (he : emptyC (s.ring r) = false) (hr : (s.ring r).rd < s.N) :
    getOk r s = some
      { s.setRing r ((s.ring r).advanceRd s.N) with ok := true, res := s.byteAt (ringSpace r) (s.ring r).rd } := by
  obtain ⟨t, ht⟩ := getOk_total r hr
  rcases getOk_next ht with ⟨hempty, _⟩ | ⟨_, _, rfl⟩
  · simp [he] at hempty
  · exact ht

/-- Settles O29: what ring `RX` gives. -/
theorem getRxEffect : Obligations.GetRxEffect := by
  intro s hready hi hr
  exact ⟨fun he => exec_effect rfl hready hi (getOk_empty he), fun he => exec_effect rfl hready hi (getOk_data he hr)⟩

/-- Settles O30: the owner check, then what ring `TX` gives. -/
theorem getTxEffect : Obligations.GetTxEffect := by
  intro s hready hi hr
  refine ⟨fun ho => ?_, fun ho he => ?_, fun ho he => ?_⟩ <;> refine exec_effect rfl hready hi ?_
  · exact if_pos ho
  · exact (if_neg (Bool.eq_false_iff.1 ho)).trans (getOk_empty he)
  · exact (if_neg (Bool.eq_false_iff.1 ho)).trans (getOk_data he hr)

end Sys2Proof.Machine

/-! PROOFS. The Gray code: its bits, its inverse, and that an advance of the cursor changes one bit. The code is linear over
exclusive or (`gray_xor`), so an advance changes the code of what it changes in the cursor. -/

namespace Sys2Proof.Machine

/-! ### The code and its inverse -/

theorem testBit_gray (c i : Nat) : (gray c).testBit i = (c.testBit i != c.testBit (i + 1)) := by
  simp [gray, Nat.testBit_shiftRight, Nat.add_comm]

theorem gray_shiftRight (c : Nat) : gray c >>> 1 = gray (c >>> 1) := Nat.shiftRight_xor_distrib

theorem shiftRight_one_lt {k c : Nat} (h : c < 2 ^ (k + 1)) : c >>> 1 < 2 ^ k := by
  rw [Nat.shiftRight_one]
  omega

theorem gray_lt {k c : Nat} (h : c < 2 ^ k) : gray c < 2 ^ k :=
  Nat.xor_lt_two_pow h (Nat.shiftRight_le c 1 |>.trans_lt h)

theorem ungray_lt {k g : Nat} (h : g < 2 ^ k) : ungray k g < 2 ^ k := by
  induction k generalizing g with
  | zero => exact Nat.one_pos
  | succ k ih =>
    have hrest : ungray k (g >>> 1) < 2 ^ (k + 1) :=
      (ih (shiftRight_one_lt h)).trans (Nat.pow_lt_pow_right (by omega) (Nat.lt_succ_self k))
    exact Nat.xor_lt_two_pow h hrest

theorem ungray_gray {k c : Nat} (h : c < 2 ^ k) : ungray k (gray c) = c := by
  induction k generalizing c with
  | zero => exact (Nat.lt_one_iff.1 h).symm
  | succ k ih =>
    calc ungray (k + 1) (gray c)
      _ = gray c ^^^ ungray k (gray (c >>> 1)) := by rw [ungray, gray_shiftRight]
      _ = c ^^^ (c >>> 1) ^^^ (c >>> 1) := by rw [ih (shiftRight_one_lt h), gray]
      _ = c := Nat.xor_xor_cancel_right ..

theorem gray_ungray {k g : Nat} (h : g < 2 ^ k) : gray (ungray k g) = g := by
  induction k generalizing g with
  | zero => rw [Nat.lt_one_iff.1 h, ungray, gray_zero]
  | succ k ih =>
    calc gray (ungray (k + 1) g)
      _ = gray g ^^^ gray (ungray k (g >>> 1)) := by rw [ungray, gray_xor]
      _ = g ^^^ (g >>> 1) ^^^ (g >>> 1) := by rw [ih (shiftRight_one_lt h), gray]
      _ = g := Nat.xor_xor_cancel_right ..

/-- Settles O44: the bit law of `ungray` is that of `gray` read at the code's own inverse. -/
theorem grayCodeDecodes : Obligations.GrayCodeDecodes := by
  refine ⟨testBit_gray, fun K c h => ⟨gray_lt h, ungray_gray h⟩, fun K g h => ⟨ungray_lt h, gray_ungray h⟩,
    fun K g i h _ => ?_⟩
  have hbit := testBit_gray (ungray K g) i
  rw [gray_ungray h] at hbit
  rw [hbit]
  cases (ungray K g).testBit i <;> cases (ungray K g).testBit (i + 1) <;> rfl

/-! ### One bit changes -/

/-- The code of a block of ones has one bit (spec R84). -/
theorem gray_ones (j : Nat) : gray (2 ^ (j + 1) - 1) = 2 ^ j := by
  refine Nat.eq_of_testBit_eq fun i => ?_
  rw [testBit_gray, Nat.testBit_two_pow_sub_one, Nat.testBit_two_pow_sub_one, Nat.testBit_two_pow]
  by_cases h : i < j + 1 <;> by_cases h' : i + 1 < j + 1 <;> simp [h, h'] <;> omega

/-- Adding one changes the lowest zero of a number and the ones below it. -/
theorem xor_succ_eq_ones (c : Nat) : ∃ j, c ^^^ (c + 1) = 2 ^ (j + 1) - 1 := by
  induction c using Nat.evenOddRec with
  | h0 => exact ⟨0, rfl⟩
  | h_even m _ =>
    have hbits : 2 * m ^^^ (2 * m + 1) = 1 := by simpa [Nat.bit] using Nat.xor_bit false m true m
    exact ⟨0, hbits⟩
  | h_odd m ih =>
    obtain ⟨j, hj⟩ := ih
    have hbits : (2 * m + 1) ^^^ (2 * m + 1 + 1) = 2 * (m ^^^ (m + 1)) + 1 := by
      simpa [Nat.bit, Nat.mul_add] using Nat.xor_bit true m false (m + 1)
    have hpos := Nat.two_pow_pos (j + 1)
    exact ⟨j + 1, by rw [hbits, hj]; omega⟩

/-- Settles O45: short of the wrap the cursor changes in a block of ones, and at the wrap all its bits are ones. -/
theorem grayAdvanceChangesOneBit : Obligations.GrayAdvanceChangesOneBit := by
  intro K c hK hc
  have hone : ∃ j, gray c ^^^ gray (inc (2 ^ K) c) = 2 ^ j := by
    by_cases htop : c + 1 = 2 ^ K
    · have hones : c = 2 ^ (K - 1 + 1) - 1 := by rw [Nat.sub_add_cancel hK]; omega
      exact ⟨K - 1, by rw [inc_top htop, gray_zero, Nat.xor_zero, hones, gray_ones]⟩
    · obtain ⟨j, hj⟩ := xor_succ_eq_ones c
      exact ⟨j, by rw [inc_of_lt (by omega), ← gray_xor, hj, gray_ones]⟩
  obtain ⟨j, hj⟩ := hone
  have hlt : 2 ^ j < 2 ^ K := hj ▸ Nat.xor_lt_two_pow (gray_lt hc) (gray_lt (inc_lt (Nat.two_pow_pos K)))
  exact ⟨j, (Nat.pow_lt_pow_iff_right (by omega)).1 hlt, hj⟩

end Sys2Proof.Machine

/-! PROOFS. A ring with exact Gray copies: its flags are the document's comparisons, and any sequence of puts and gets is first
in, first out. One use of a ring, and so any sequence of uses, is a `Passed`: what went in, what came out, where the cursors
are. -/

namespace Sys2Proof.Machine

/-- A ring of `n` slots with its cursors in range and its Gray copies exact (spec R10, R12, R52). -/
structure RingOk (n : Nat) (x : Ring) : Prop where
  wr : x.wr < n
  rd : x.rd < n
  wrGs : x.wrGs = gray x.wr
  rdGs : x.rdGs = gray x.rd

theorem RingOk.of_state {s : State} (hs : InRange s) (hg : Coherent s) (r : RingId) : RingOk s.N (s.ring r) := by
  obtain ⟨hrw, hrr, htw, htr⟩ := hg
  cases r with
  | rx => exact ⟨hs.rxWr, hs.rxRd, hrw, hrr⟩
  | tx => exact ⟨hs.txWr, hs.txRd, htw, htr⟩

theorem RingOk.change {n : Nat} {x y : Ring} (hx : RingOk n x) (h : RingChange n x y) : RingOk n y := by
  obtain ⟨hw, hr⟩ := h.inRange (Nat.zero_lt_of_lt hx.wr) ⟨hx.wr, hx.rd⟩
  obtain ⟨hwg, hrg⟩ := h.exact ⟨hx.wrGs, hx.rdGs⟩
  exact ⟨hw, hr, hwg, hrg⟩

/-! ### The flags -/

theorem RingOk.full_iff {n : Nat} {x : Ring} (hx : RingOk n x) : fullP n x = true ↔ (x.wr + 1) % n = x.rd :=
  fullP_iff hx.rdGs

theorem RingOk.empty_iff {n : Nat} {x : Ring} (hx : RingOk n x) : emptyC x = true ↔ x.wr = x.rd := emptyC_iff hx.wrGs

/-- A ring of two slots or more is never full and empty at once (spec R87). -/
theorem RingOk.not_full_and_empty {n : Nat} {x : Ring} (hx : RingOk n x) (hn : 2 ≤ n) :
    ¬ (fullP n x = true ∧ emptyC x = true) := by
  rintro ⟨hf, he⟩
  have hfull : inc n x.wr = x.rd := hx.full_iff.1 hf
  have hempty := hx.empty_iff.1 he
  have := inc_spec hx.wr
  omega

theorem two_le_N {p : Params} (h : 1 ≤ p.K) : 2 ≤ p.N := Nat.pow_le_pow_right (n := 2) (by omega) h

/-- Settles O46: both flags and occupancy compare the two cursors. -/
theorem flagsAreTheDocumentsComparisons : Obligations.FlagsAreTheDocumentsComparisons := by
  intro s hs hg hK r
  have hx := RingOk.of_state hs hg r
  exact ⟨hx.full_iff, hx.empty_iff.trans eq_comm, (occ_full_iff hx.wr hx.rd).trans hx.full_iff.symm,
    (occ_zero_iff hx.wr hx.rd).trans hx.empty_iff.symm, Nat.le_sub_one_of_lt (occ_lt _ (N_pos s.params)),
    hx.not_full_and_empty (two_le_N hK)⟩

/-! ### What passes through a ring -/

/-- Ring `x` has become ring `y` by taking the bytes `taken` and giving the bytes `given`, oldest first (spec R95, R96). -/
structure Passed (n : Nat) (x y : Ring) (taken given : List Byte) : Prop where
  ok : RingOk n y
  fifo : given ++ unread n y = unread n x ++ taken
  wr : y.wr = (x.wr + taken.length) % n
  rd : y.rd = (x.rd + given.length) % n

theorem Passed.refl {n : Nat} {x : Ring} (hx : RingOk n x) : Passed n x x [] [] :=
  ⟨hx, by simp, (Nat.mod_eq_of_lt hx.wr).symm, (Nat.mod_eq_of_lt hx.rd).symm⟩

theorem Passed.trans {n : Nat} {x y z : Ring} {taken taken' given given' : List Byte} (h : Passed n x y taken given)
    (h' : Passed n y z taken' given') : Passed n x z (taken ++ taken') (given ++ given') where
  ok := h'.ok
  fifo := by rw [List.append_assoc, h'.fifo, ← List.append_assoc, h.fifo, List.append_assoc]
  wr := by rw [h'.wr, h.wr, Nat.mod_add_mod, List.length_append, Nat.add_assoc]
  rd := by rw [h'.rd, h.rd, Nat.mod_add_mod, List.length_append, Nat.add_assoc]

/-- A ring with room takes a byte (spec R89). -/
theorem Passed.put {n : Nat} {x : Ring} (b : Byte) (hx : RingOk n x) (hf : fullP n x = false) :
    Passed n x ({ x with mem := Memory.setZ x.mem x.wr b }.advanceWr n) [b] [] := by
  have hroom : inc n x.wr ≠ x.rd := fun h => by simp [hx.full_iff.2 h] at hf
  exact ⟨hx.change (.put b hx.wr), unread_put b hx.wr hx.rd hroom, rfl, (Nat.mod_eq_of_lt hx.rd).symm⟩

/-- A ring that is not empty gives its oldest byte (spec R89). -/
theorem Passed.get {n : Nat} {x : Ring} (hx : RingOk n x) (he : emptyC x = false) :
    Passed n x (x.advanceRd n) [] [Memory.getZ x.mem x.rd] := by
  have hdata : x.wr ≠ x.rd := fun h => by simp [hx.empty_iff.2 h] at he
  have htake := unread_advanceRd hx.wr hx.rd hdata
  exact ⟨hx.change .free, by simp [htake], (Nat.mod_eq_of_lt hx.wr).symm, rfl⟩

/-- From an empty ring, what comes out is the beginning of what went in (spec R95). -/
theorem Passed.given_isPrefix {n : Nat} {x y : Ring} {taken given : List Byte} (h : Passed n x y taken given)
    (hx : RingOk n x) (he : emptyC x = true) : given <+: taken := by
  have hnil : unread n x = [] := (unread_eq_nil hx.wr hx.rd).2 (hx.empty_iff.1 he)
  exact ⟨unread n y, by rw [h.fifo, hnil, List.nil_append]⟩

/-- The bytes that went in and did not come out are still there (spec R96). -/
theorem Passed.occupancy {n : Nat} {x y : Ring} {taken given : List Byte} (h : Passed n x y taken given) :
    given.length + occ n y = occ n x + taken.length := by
  simpa [unread_length] using congrArg List.length h.fifo

/-! ### The primitives and their sequences -/

@[simp] theorem setRing_rx (x : Ring) (s : State) : s.setRing .rx x = { s with rx := x } := rfl

@[simp] theorem setRing_tx (x : Ring) (s : State) : s.setRing .tx x = { s with tx := x } := rfl

@[simp] theorem setRing_params (r : RingId) (x : Ring) (s : State) : (s.setRing r x).params = s.params := by
  cases r <;> rfl

@[simp] theorem ring_setRing (r : RingId) (x : Ring) (s : State) : (s.setRing r x).ring r = x := by cases r <;> rfl

theorem byteAt_ringSpace (r : RingId) (s : State) (i : Nat) :
    s.byteAt (ringSpace r) i = Memory.getZ (s.ring r).mem i := by cases r <;> rfl

theorem ringPut_passed {r : RingId} (b : Byte) {s : State} (hs : RingOk s.N (s.ring r)) :
    ∃ t k, ringPut r b s = some (t, k) ∧ t.params = s.params ∧
      Passed s.N (s.ring r) (t.ring r) (if k then [b] else []) [] := by
  obtain ⟨⟨t, k⟩, hput⟩ := ringPut_total r b hs.wr
  refine ⟨t, k, hput, ?_⟩
  rcases ringPut_next hput with ⟨_, rfl, rfl⟩ | ⟨hf, rfl, _, rfl⟩
  · exact ⟨rfl, .refl hs⟩
  · exact ⟨by simp, by simpa using Passed.put b hs hf⟩

theorem ringGet_passed {r : RingId} {s : State} (hs : RingOk s.N (s.ring r)) :
    ∃ t v, ringGet r s = some (t, v) ∧ t.params = s.params ∧ Passed s.N (s.ring r) (t.ring r) [] v.toList := by
  obtain ⟨⟨t, v⟩, hget⟩ := ringGet_total r hs.rd
  refine ⟨t, v, hget, ?_⟩
  rcases ringGet_next hget with ⟨_, rfl, rfl⟩ | ⟨he, rfl, _, rfl⟩
  · exact ⟨rfl, .refl hs⟩
  · exact ⟨by simp, by simpa [byteAt_ringSpace] using Passed.get hs he⟩

/-- Every sequence of puts and gets runs, and what it takes and gives has passed through the ring. -/
theorem useRing_passed {r : RingId} (us : List RingUse) {s : State} (hs : RingOk s.N (s.ring r)) :
    ∃ t taken given, useRing r us s = some (t, taken, given) ∧ Passed s.N (s.ring r) (t.ring r) taken given := by
  induction us generalizing s with
  | nil => exact ⟨s, [], [], rfl, .refl hs⟩
  | cons u us ih =>
    cases u with
    | put b =>
      obtain ⟨t, k, hput, hp, hpass⟩ := ringPut_passed b hs
      have hN : t.N = s.N := congrArg Params.N hp
      obtain ⟨v, taken, given, hrest, hpass'⟩ := ih (hN ▸ hpass.ok)
      refine ⟨v, if k then b :: taken else taken, given, by rw [useRing, hput]; simp only [hrest], ?_⟩
      have hboth := hpass.trans (hN ▸ hpass')
      cases k <;> exact hboth
    | get =>
      obtain ⟨t, o, hget, hp, hpass⟩ := ringGet_passed hs
      have hN : t.N = s.N := congrArg Params.N hp
      obtain ⟨v, taken, given, hrest, hpass'⟩ := ih (hN ▸ hpass.ok)
      exact ⟨v, taken, o.toList ++ given, by rw [useRing, hget]; simp only [hrest], hpass.trans (hN ▸ hpass')⟩

/-- Settles O47: by induction over the uses, each of which appends to the unread bytes or takes the first. -/
theorem ringIsFirstInFirstOut : Obligations.RingIsFirstInFirstOut := by
  intro r us s hs hg
  have hx := RingOk.of_state hs hg r
  obtain ⟨t, taken, given, hrun, hpass⟩ := useRing_passed us hx
  exact ⟨t, taken, given, hrun, hpass.fifo, hpass.given_isPrefix hx⟩

/-- Settles O48: each byte taken or given advances its cursor once, and the rest is what the ring still holds. -/
theorem occupancyAndWrap : Obligations.OccupancyAndWrap := by
  intro r us s t taken given hs hg hw hr hrun
  have hx := RingOk.of_state hs hg r
  obtain ⟨t', taken', given', hrun', hpass⟩ := useRing_passed us hx
  obtain ⟨rfl, rfl, rfl⟩ : t = t' ∧ taken = taken' ∧ given = given' := by simpa [hrun] using hrun'
  have hstart : occ s.N (s.ring r) = 0 := (occ_zero_iff hx.wr hx.rd).2 (hw.trans hr.symm)
  have hocc := hpass.occupancy
  refine ⟨?_, ?_, by omega, by omega⟩
  · rw [hpass.wr, hw, Nat.zero_add]
  · rw [hpass.rd, hr, Nat.zero_add]

end Sys2Proof.Machine

/-! PROOFS. The two rings are independent: with any other ring in the place of the one it does not name, an operation or a µop
does the same and leaves that ring there. -/

namespace Sys2Proof.Machine

/-- At the state `s` the meaning `f` neither reads nor writes the ring `r`: with another ring in its place it answers the
same, with that ring still in its place (spec R98). -/
def Ignores (r : RingId) (f : State → Option State) (s : State) : Prop :=
  ∀ t x, f s = some t → f (s.setRing r x) = some (t.setRing r x)

/-- As `Ignores`, for the issue or entry of an operation. -/
def IgnoresAtIssue (r : RingId) (f : State → StepOut) (s : State) : Prop :=
  ∀ t x, f s = .next t → f (s.setRing r x) = .next (t.setRing r x)

@[simp] theorem setRing_cpc (r : RingId) (x : Ring) (s : State) : (s.setRing r x).cpc = s.cpc := by cases r <;> rfl

@[simp] theorem setRing_hpc (r : RingId) (x : Ring) (s : State) : (s.setRing r x).hpc = s.hpc := by cases r <;> rfl

@[simp] theorem setRing_ctx (r : RingId) (x : Ring) (s : State) : (s.setRing r x).ctx = s.ctx := by cases r <;> rfl

@[simp] theorem setRing_inited (r : RingId) (x : Ring) (s : State) : (s.setRing r x).inited = s.inited := by
  cases r <;> rfl

@[simp] theorem callerReady_setRing (r : RingId) (x : Ring) (s : State) :
    callerReady (s.setRing r x) = callerReady s := by cases r <;> rfl

theorem raise_setRing (r : RingId) (x : Ring) (f : FaultBit) (s : State) :
    (s.setRing r x).raise f = (s.raise f).setRing r x := by cases r <;> rfl

theorem enterHandler_setRing (r : RingId) (x : Ring) (q : HState) (s : State) :
    enterHandler q (s.setRing r x) = (enterHandler q s).setRing r x := by cases r <;> rfl

theorem setRing_ring (r : RingId) (s : State) : s.setRing r (s.ring r) = s := by cases r <;> rfl

/-- A ring that an operation ignores, it leaves as it was: put the ring it had in its place. -/
theorem IgnoresAtIssue.ring {r : RingId} {f : State → StepOut} {s t : State} (hf : IgnoresAtIssue r f s)
    (h : f s = .next t) : t.ring r = s.ring r := by
  have hsame := hf t (s.ring r) h
  rw [setRing_ring, h] at hsame
  injection hsame with hsame
  rw [hsame, ring_setRing]

/-! ### Issue and entry -/

theorem issue_ignores {r : RingId} {eff : State → Option State} {s : State} (he : Ignores r eff s) :
    IgnoresAtIssue r (issue eff) s := by
  intro t x h
  rcases issue_next h with ⟨hr, rfl⟩ | ⟨hr, hn, rfl⟩ | ⟨hr, hn, ht⟩
  · simp [issue, hr]
  · simp [issue, hr, hn, raise_setRing]
  · simp [issue, hr, hn, he t x ht, orFault]

theorem invoke_ignores (r : RingId) (q : HState) (s : State) : IgnoresAtIssue r (invoke q) s := by
  intro t x h
  rcases invoke_next h with ⟨hc, rfl⟩ | ⟨hc, hn, rfl⟩ | ⟨hc, hn, rfl⟩
  · simp [invoke, hc]
  · simp [invoke, hc, hn, raise_setRing]
  · simp [invoke, hc, hn, enterHandler_setRing]

/-- A put on one ring ignores the other (spec R98). -/
theorem putOk_ignores {r q : RingId} (hrq : r ≠ q) (b : Byte) (s : State) : Ignores r (putOk q b) s := by
  intro t x h
  rcases putOk_next h with ⟨hf, rfl⟩ | ⟨hf, hw, rfl⟩ <;> cases r <;> cases q
  case inl.rx.tx | inl.tx.rx => exact putOk_full hf
  case inr.rx.tx | inr.tx.rx => exact putOk_room hf hw
  all_goals exact absurd rfl hrq

/-- A get on one ring ignores the other (spec R98). -/
theorem getOk_ignores {r q : RingId} (hrq : r ≠ q) (s : State) : Ignores r (getOk q) s := by
  intro t x h
  rcases getOk_next h with ⟨he, rfl⟩ | ⟨he, hr, rfl⟩ <;> cases r <;> cases q
  case inl.rx.tx | inl.tx.rx => exact getOk_empty he
  case inr.rx.tx | inr.tx.rx => exact getOk_data he hr
  all_goals exact absurd rfl hrq

/-- The ring that an operation's meaning at issue does not name (spec R91 to R94, R135, R140, R145, R156, R160). -/
def otherRing : Instr → Option RingId
  | .putRx _ | .getRx | .recva | .rxh => some .tx
  | .putTx _ | .getTx | .senda _ | .sendfa | .txh => some .rx
  | .init | .send _ | .recv | .sendf | .irqen | .irqdis | .fmtclr | .fmtch _ => none

theorem effectOf_ignores {r : RingId} {i : Instr} (hi : otherRing i = some r) (s : State) : Ignores r (effectOf i) s := by
  intro t x h
  cases i <;> cases hi <;> simp only [effectOf] at h ⊢
  case putTx b => exact putOk_ignores (r := .rx) (q := .tx) (by decide) b (takeImm b s) t x h
  case getRx => exact getOk_ignores (by decide) s t x h
  case putRx b =>
    split at h
    · next ho => obtain rfl := Option.some.inj h; exact if_pos ho
    · next ho =>
      exact (if_neg ho).trans (putOk_ignores (r := .tx) (q := .rx) (by decide) b (takeImm b s) t x h)
  case getTx =>
    split at h
    · next ho => obtain rfl := Option.some.inj h; exact if_pos ho
    · next ho => exact (if_neg ho).trans (getOk_ignores (by decide) s t x h)
  all_goals
    obtain rfl := Option.some.inj h
    rfl

/-- At issue or entry an operation ignores the ring it does not name, on every path (spec R98). -/
theorem exec_ignores {r : RingId} {i : Instr} (hi : otherRing i = some r) (s : State) : IgnoresAtIssue r (exec i) s := by
  by_cases hp : isPlain i = true
  · rw [show exec i = issue (effectOf i) from funext (exec_plain hp)]
    exact issue_ignores (effectOf_ignores hi s)
  · cases i with
    | rxh | txh => exact invoke_ignores r _ s
    | init => cases hi
    | _ => exact absurd rfl hp

/-! ### The µops -/

theorem loopHead_end {back : Ret} {sub : CState} {s : State} (h : s.fi = s.fmtLen) :
    loopHead back sub s = some { s with cnt := s.fmtLen, cpc := .idle } := if_pos h

theorem loopHead_cr {back : Ret} {sub : CState} {s : State} (h : s.fi ≠ s.fmtLen) (hlt : s.fi < s.params.fmtMax)
    (hb : s.byteAt .fmt s.fi = chLF) (hc : s.crp = false) :
    loopHead back sub s = some { s with opb := chCR, crp := true, ret := back, cpc := sub } := by
  rw [loopHead, if_neg h, memRead_eq_some.2 ⟨hlt, rfl⟩]
  exact if_pos ⟨hb, hc⟩

theorem loopHead_char {back : Ret} {sub : CState} {s : State} (h : s.fi ≠ s.fmtLen) (hlt : s.fi < s.params.fmtMax)
    (hb : ¬ (s.byteAt .fmt s.fi = chLF ∧ s.crp = false)) :
    loopHead back sub s =
      some { s with opb := s.byteAt .fmt s.fi, crp := false, fi := s.fi + 1, ret := back, cpc := sub } := by
  rw [loopHead, if_neg h, memRead_eq_some.2 ⟨hlt, rfl⟩]
  exact if_neg hb

/-- A loop head looks at the scratch buffer only (spec R125, R146). -/
theorem loopHead_ignores (r : RingId) (back : Ret) (sub : CState) (s : State) : Ignores r (loopHead back sub) s := by
  intro t x h
  rcases loopHead_next h with ⟨h1, rfl⟩ | ⟨h1, hlt, hb, hc, rfl⟩ | ⟨h1, hlt, hb, rfl⟩ <;> cases r
  case inl.rx | inl.tx => exact loopHead_end h1
  case inr.inl.rx | inr.inl.tx => exact loopHead_cr h1 hlt hb hc
  case inr.inr.rx | inr.inr.tx => exact loopHead_char h1 hlt hb

theorem dataWrite_setRing (r : RingId) (x : Ring) (v : Byte) (s : State) :
    dataWrite v (s.setRing r x) = (dataWrite v s).setRing r x := by
  cases r <;> cases h : s.regs.txReady <;> simp [dataWrite, h, State.raise]

theorem dataRead_setRing (r : RingId) (x : Ring) (s : State) :
    dataRead (s.setRing r x) = ((dataRead s).1, (dataRead s).2.setRing r x) := by
  cases r <;> cases h : s.regs.rxReady <;> simp [dataRead, h, State.raise]

theorem uopS0_setRing (r : RingId) (x : Ring) (s : State) : uopS0 (s.setRing r x) = (uopS0 s).setRing r x := by
  cases r <;> cases h : s.regs.txReady <;> simp [uopS0, h]

theorem uopR0_setRing (r : RingId) (x : Ring) (s : State) : uopR0 (s.setRing r x) = (uopR0 s).setRing r x := by
  cases r <;> cases h : s.regs.rxReady <;> simp [uopR0, h]

theorem uopH0_setRing (x : Ring) (s : State) : uopH0 (s.setRing .tx x) = (uopH0 s).setRing .tx x := by
  cases h : fullP s.N s.rx <;> simp [uopH0, h, leaveHandler, setRxIe]

theorem uopH2_setRing (r : RingId) (x : Ring) (s : State) : uopH2 (s.setRing r x) = (uopH2 s).setRing r x := by
  cases r <;> cases h : s.regs.txReady <;> simp [uopH2, h]

theorem uopW0_setRing (x : Ring) (s : State) : uopW0 (s.setRing .rx x) = (uopW0 s).setRing .rx x := by
  cases h : emptyC s.tx <;> simp [uopW0, h, leaveHandler, setTxIe]

theorem uopS1_setRing (r : RingId) (x : Ring) (s : State) : uopS1 (s.setRing r x) = (uopS1 s).setRing r x := by
  unfold uopS1
  cases r <;> rw [dataWrite_setRing] <;> rfl

theorem uopH3_setRing (r : RingId) (x : Ring) (s : State) : uopH3 (s.setRing r x) = (uopH3 s).setRing r x := by
  unfold uopH3
  cases r <;> rw [dataWrite_setRing] <;> rfl

theorem uopR1_setRing (r : RingId) (x : Ring) (s : State) : uopR1 (s.setRing r x) = (uopR1 s).setRing r x := by
  unfold uopR1
  cases r <;> rw [dataRead_setRing] <;> rfl

theorem uopA2_of_lt {s : State} (h : s.tx.wr < s.N) : uopA2 s =
    some { s with tx := { s.tx with mem := Memory.setZ s.tx.mem s.tx.wr s.opb }, cpc := .a3 } := by
  rw [uopA2, memWrite_eq_some.2 ⟨h, rfl⟩]
  rfl

theorem uopB3_of_lt {s : State} (h : s.rx.rd < s.N) :
    uopB3 s = some { s with res := s.byteAt .rxm s.rx.rd, cpc := .b4 } := by
  rw [uopB3, memRead_eq_some.2 ⟨h, rfl⟩]

theorem uopA2_ignores (s : State) : Ignores .rx uopA2 s := by
  intro t x h
  obtain ⟨hw, rfl⟩ := uopA2_next h
  exact uopA2_of_lt hw

theorem uopB3_ignores (s : State) : Ignores .tx uopB3 s := by
  intro t x h
  obtain ⟨hr, rfl⟩ := uopB3_next h
  exact uopB3_of_lt hr

theorem uopH1_ignores (s : State) : Ignores .tx uopH1 s := by
  intro t x h
  obtain ⟨hw, rfl⟩ := uopH1_next h
  have hlt : (dataRead s).2.rx.wr < (dataRead s).2.N := by simpa [State.N] using hw
  simp only [uopH1, dataRead_setRing]
  rw [memWrite_eq_some.2 ⟨hlt, rfl⟩]
  simp

theorem uopW1_ignores (s : State) : Ignores .rx uopW1 s := by
  intro t x h
  obtain ⟨hr, rfl⟩ := uopW1_next h
  have hread : memRead .txm (s.setRing .rx x).tx.rd (s.setRing .rx x) = some (s.byteAt .txm s.tx.rd) :=
    memRead_eq_some.2 ⟨hr, rfl⟩
  rw [uopW1, hread]
  simp only [dataWrite_setRing]
  simp [State.N]

/-- The ring that a µop of a command reads or writes (spec R136, R137, R141, R142). -/
def uopRing : CState → Option RingId
  | .a0 | .a2 | .a3 => some .tx
  | .b1 | .b3 | .b4 => some .rx
  | .idle | .i1 | .i2 | .i3 | .i4 | .i5 | .i6 | .i7 | .s0 | .s1 | .r0 | .r1 | .f0 | .g0
  | .a0e | .a1 | .a4 | .a5 | .b0 | .b1e | .b2 | .b5 => none

/-- The ring that a µop of a handler reads or writes (spec R157, R158, R161, R162). -/
def handlerUopRing : HState → Option RingId
  | .h0 | .h1 => some .rx
  | .w0 | .w1 => some .tx
  | .none | .h2 | .h3 | .h4 | .w2 => none

theorem uopRing_eq_tx {q : CState} : uopRing q = some .tx ↔ q = .a0 ∨ q = .a2 ∨ q = .a3 := by
  cases q <;> decide

theorem uopRing_eq_rx {q : CState} : uopRing q = some .rx ↔ q = .b1 ∨ q = .b3 ∨ q = .b4 := by
  cases q <;> decide

theorem handlerUopRing_eq_tx {q : HState} : handlerUopRing q = some .tx ↔ q = .w0 ∨ q = .w1 := by
  cases q <;> decide

theorem handlerUopRing_eq_rx {q : HState} : handlerUopRing q = some .rx ↔ q = .h0 ∨ q = .h1 := by
  cases q <;> decide

/-- A µop of a command ignores a ring that it is not listed for (spec R98). -/
theorem callerUop_ignores {r : RingId} {s : State} (hr : uopRing s.cpc ≠ some r) : Ignores r callerUop s := by
  intro t x h
  simp only [callerUop, setRing_cpc] at h ⊢
  cases hq : s.cpc <;> simp only [hq] at h hr ⊢
  case f0 => exact loopHead_ignores r .f0 .s0 s t x h
  case g0 => exact loopHead_ignores r .g0 .a0 s t x h
  case a2 =>
    cases r
    · exact uopA2_ignores s t x h
    · exact absurd rfl hr
  case b3 =>
    cases r
    · exact absurd rfl hr
    · exact uopB3_ignores s t x h
  all_goals obtain rfl := Option.some.inj h
  case s0 => rw [uopS0_setRing]
  case r0 => rw [uopR0_setRing]
  case s1 => rw [uopS1_setRing]
  case r1 => rw [uopR1_setRing]
  all_goals cases r
  case a0.tx | a3.tx | b1.rx | b4.rx => exact absurd rfl hr
  all_goals rfl

/-- A µop of a handler ignores a ring that it is not listed for: the echo of `RXH` ignores ring `TX` (spec R98, R159). -/
theorem handlerUop_ignores {r : RingId} {s : State} (hr : handlerUopRing s.hpc ≠ some r) : Ignores r handlerUop s := by
  intro t x h
  simp only [handlerUop, setRing_hpc] at h ⊢
  cases hq : s.hpc <;> simp only [hq] at h hr ⊢
  case h1 =>
    cases r
    · exact absurd rfl hr
    · exact uopH1_ignores s t x h
  case w1 =>
    cases r
    · exact uopW1_ignores s t x h
    · exact absurd rfl hr
  all_goals obtain rfl := Option.some.inj h
  case h0 =>
    cases r
    · exact absurd rfl hr
    · rw [uopH0_setRing]
  case w0 =>
    cases r
    · rw [uopW0_setRing]
    · exact absurd rfl hr
  case h2 => rw [uopH2_setRing]
  case h3 => rw [uopH3_setRing]
  all_goals cases r <;> rfl

/-! ### The writing half, µop by µop -/

/-- Of the µops of a command only `A2` and `A3` write ring `TX` and only `B4` writes ring `RX` (spec R137, R142). -/
theorem CallerMove.rings_kept {s t : State} (h : CallerMove s t) :
    (s.cpc ≠ .a2 → s.cpc ≠ .a3 → t.tx = s.tx) ∧ (s.cpc ≠ .b4 → t.rx = s.rx) := by
  cases h with
  | a2 h => exact ⟨absurd h, fun _ => rfl⟩
  | a3 h => exact ⟨fun _ => absurd h, fun _ => rfl⟩
  | b4 h => exact ⟨fun _ _ => rfl, absurd h⟩
  | _ => simp

/-- The idle sequencer's µop does nothing (spec R68). -/
theorem callerUop_idle {s : State} (h : s.cpc = .idle) : callerUop s = some s := by rw [callerUop, h]

theorem callerUop_rings_kept {s t : State} (h : callerUop s = some t) :
    (s.cpc ≠ .a2 → s.cpc ≠ .a3 → t.tx = s.tx) ∧ (s.cpc ≠ .b4 → t.rx = s.rx) := by
  by_cases hi : s.cpc = .idle
  · obtain rfl := Option.some.inj ((callerUop_idle hi).symm.trans h)
    exact ⟨fun _ _ => rfl, fun _ => rfl⟩
  · exact (callerUop_move hi h).rings_kept

/-- Of the µops of a handler only `W1` writes ring `TX` and only `H1` writes ring `RX` (spec R158, R162). -/
theorem HandlerMove.rings_kept {s t : State} (h : HandlerMove s t) :
    (s.hpc ≠ .w1 → t.tx = s.tx) ∧ (s.hpc ≠ .h1 → t.rx = s.rx) := by
  cases h with
  | w1 h => exact ⟨absurd h, fun _ => by simp⟩
  | h1 h => exact ⟨fun _ => by simp, absurd h⟩
  | _ => simp

/-- Settles O40: an operation ignores the ring it does not name, a µop the ring it is not listed for; what each µop writes is
read off its move. -/
theorem ringsAreIndependent : Obligations.RingsAreIndependent := by
  refine ⟨fun i s t x hi h => ?_, fun i s t x hi h => ?_, fun s t x h => ?_, fun s t x h => ?_⟩
  · have hother : otherRing i = some .tx := by rcases hi with rfl | rfl | rfl | ⟨_, rfl⟩ <;> rfl
    have hex := exec_ignores hother s
    exact ⟨hex.ring h, hex t x h⟩
  · have hother : otherRing i = some .rx := by rcases hi with rfl | rfl | rfl | ⟨_, rfl | rfl⟩ <;> rfl
    have hex := exec_ignores hother s
    exact ⟨hex.ring h, hex t x h⟩
  · obtain ⟨htx, hrx⟩ := callerUop_rings_kept h
    refine ⟨htx, hrx, fun h0 h2 h3 => callerUop_ignores (r := .tx) ?_ t x h,
      fun h1 h3 h4 => callerUop_ignores (r := .rx) ?_ t x h⟩
    · simp [uopRing_eq_tx, h0, h2, h3]
    · simp [uopRing_eq_rx, h1, h3, h4]
  · obtain ⟨htx, hrx⟩ := (handlerUop_move h).rings_kept
    refine ⟨htx, hrx, fun h0 h1 => handlerUop_ignores (r := .tx) ?_ t x h,
      fun h0 h1 => handlerUop_ignores (r := .rx) ?_ t x h⟩
    · simp [handlerUopRing_eq_tx, h0, h1]
    · simp [handlerUopRing_eq_rx, h0, h1]

end Sys2Proof.Machine

/-! PROOFS. `INIT` and the adapter: misuse of `INIT`, its seven µops and its whole run, the data register, and the line with
its log. -/

namespace Sys2Proof.Machine

/-! ### Use before `INIT`, and `INIT` again -/

theorem issue_before_init {eff : State → Option State} {s : State} (hr : callerReady s = true) (hi : s.inited = false) :
    issue eff s = .next (s.raise .preinit) := by
  rw [issue, if_pos hr, hi]
  rfl

theorem invoke_before_init {q : HState} {s : State} (hc : s.ctx = .caller) (hi : s.inited = false) :
    invoke q s = .next (s.raise .preinit) := by
  rw [invoke, hc, hi]
  rfl

/-- An operation other than `INIT` shares the common issue step, or is a handler (spec R63). -/
theorem plain_or_handler {i : Instr} (h : i ≠ .init) : isPlain i = true ∨ i = .rxh ∨ i = .txh := by
  cases i <;> simp [isPlain] at h ⊢

/-- Settles O8: what `INIT` guards is refused in the issue step that the operations share, and in the entry that the two
handlers share. -/
theorem misuseOfInitOnlyRaisesPreinit : Obligations.MisuseOfInitOnlyRaisesPreinit := by
  refine fun s => ⟨fun hr hi => ?_, fun hr hi i hne => ?_, fun hc hi => ⟨?_, ?_⟩⟩
  · rw [exec_init, issueInit, if_pos hr, if_pos hi]
    rfl
  · obtain ⟨hc, _⟩ := callerReady_iff.1 hr
    rcases plain_or_handler hne with hp | rfl | rfl
    · exact (exec_plain hp s).trans (issue_before_init hr hi)
    · exact (exec_rxh s).trans (invoke_before_init hc hi)
    · exact (exec_txh s).trans (invoke_before_init hc hi)
  · exact (exec_rxh s).trans (invoke_before_init hc hi)
  · exact (exec_txh s).trans (invoke_before_init hc hi)

/-! ### The run of `INIT` -/

/-- With an empty schedule and a command in progress, a step answers what the µop of `cpc` answers (spec R68). -/
theorem step_callerUop {s t : State} {q : CState} (hs : s.sched = []) (hc : s.ctx = .caller) (hq : s.cpc = q)
    (hi : q ≠ .idle) (hu : callerUop s = some t) : step s = .next t := by
  rw [step_uop hs hc (hq ▸ hi), hu, orFault]

/-- Settles O9: each step is the µop that `cpc` names, and each µop is the update listed. -/
theorem initMicroSequence : Obligations.InitMicroSequence := by
  intro s hc hs
  refine ⟨fun h => ?_, fun h => ?_, fun h => ?_, fun h => ?_, fun h => ?_, fun h => ?_, fun h => ?_⟩ <;>
    refine step_callerUop hs hc h nofun ?_ <;> simp only [callerUop, h]
  · rw [uopI1_eq]
  · rw [uopI2_eq]
  · rw [uopI3_eq]
  · rw [uopI4_eq]
  · rw [uopI5_eq]
  · rw [uopI6_eq]
  · rw [uopI7_eq]

/-- As `step_callerUop`, and the next step is undisturbed too: a µop enters no handler and schedules nothing. -/
theorem step_undisturbed {s t : State} {q : CState} (hs : s.sched = []) (hc : s.ctx = .caller) (hq : s.cpc = q)
    (hi : q ≠ .idle) (hu : callerUop s = some t) : step s = .next t ∧ t.sched = [] ∧ t.ctx = .caller := by
  have hstep := step_callerUop hs hc hq hi hu
  obtain ⟨_, hctx⟩ := (callerUop_move (hq ▸ hi) hu).context
  exact ⟨hstep, (step_sched hstep).trans (congrArg List.tail hs), hctx.trans hc⟩

/-- The µops of `INIT`, undisturbed, one after another (spec R101, R106). -/
theorem steps_init {s : State} (hs : s.sched = []) (hc : s.ctx = .caller) (hq : s.cpc = .i1) :
    steps 7 s = .next (uopI7 (uopI6 (uopI5 (uopI4 (uopI3 (uopI2 (uopI1 s))))))) := by
  obtain ⟨h1, hs, hc⟩ := step_undisturbed (t := uopI1 s) hs hc hq nofun (by rw [callerUop, hq])
  obtain ⟨h2, hs, hc⟩ := step_undisturbed (q := .i2) (t := uopI2 _) hs hc rfl nofun rfl
  obtain ⟨h3, hs, hc⟩ := step_undisturbed (q := .i3) (t := uopI3 _) hs hc rfl nofun rfl
  obtain ⟨h4, hs, hc⟩ := step_undisturbed (q := .i4) (t := uopI4 _) hs hc rfl nofun rfl
  obtain ⟨h5, hs, hc⟩ := step_undisturbed (q := .i5) (t := uopI5 _) hs hc rfl nofun rfl
  obtain ⟨h6, hs, hc⟩ := step_undisturbed (q := .i6) (t := uopI6 _) hs hc rfl nofun rfl
  obtain ⟨h7, -, -⟩ := step_undisturbed (q := .i7) (t := uopI7 _) hs hc rfl nofun rfl
  rw [steps_succ_next h1, steps_succ_next h2, steps_succ_next h3, steps_succ_next h4, steps_succ_next h5,
    steps_succ_next h6, steps_succ_next h7, steps_zero]

/-- Settles O10: the issue goes to `I1`, and the seven updates put together are the effect listed. -/
theorem initCompletes : Obligations.InitCompletes := by
  intro s hr hi hs
  obtain ⟨hc, hidle⟩ := callerReady_iff.1 hr
  constructor
  · rw [exec_init, issueInit, if_pos hr, hi]
    rfl
  · rw [steps_init (s := { s with cpc := .i1 }) hs hc rfl]
    cases s
    cases hidle
    rfl

/-! ### The data register -/

theorem dataWrite_of_busy {v : Byte} {s : State} (h : s.regs.txReady = false) :
    dataWrite v s =
      { s.raise .txovr with regs := { s.regs with txHold := v, txReady := false }, txLog := s.txLog ++ [v] } := by
  simp [dataWrite, h]

theorem dataRead_of_empty {s : State} (h : s.regs.rxReady = false) :
    dataRead s = (Config.freeByte s.draws, { s.raise .rxund with draws := s.draws + 1 }) := by
  simp [dataRead, h]

/-- Settles O11: the write by whether the transmitter was ready, the read by whether a byte was held. -/
theorem dataRegisterSideEffects : Obligations.DataRegisterSideEffects := by
  refine fun v s => ⟨?_, dataRead_of_ready, dataRead_of_empty⟩
  cases hr : s.regs.txReady with
  | true => exact dataWrite_of_ready hr
  | false => exact dataWrite_of_busy hr

/-! ### The line -/

theorem lineRxEnabled_iff {s : State} : lineRxEnabled s = true ↔ s.inited = true ∧ s.regs.rxEn = true := by
  simp [lineRxEnabled]

theorem lineTxEnabled_iff {s : State} :
    lineTxEnabled s = true ↔ s.inited = true ∧ s.regs.txEn = true ∧ s.regs.txReady = false := by
  simp [lineTxEnabled, and_assoc]

theorem lineRxStep_held {b : Byte} {s : State} (hi : s.inited = true) (he : s.regs.rxEn = true)
    (hr : s.regs.rxReady = false) :
    lineRxStep b s = { s with regs := { s.regs with rxHold := b, rxReady := true } } := by
  rw [lineRxStep, if_pos (lineRxEnabled_iff.2 ⟨hi, he⟩), if_neg (Bool.eq_false_iff.1 hr)]

theorem lineRxStep_lost {b : Byte} {s : State} (hi : s.inited = true) (he : s.regs.rxEn = true)
    (hr : s.regs.rxReady = true) : lineRxStep b s = { s with rxLost := s.rxLost + 1 } := by
  rw [lineRxStep, if_pos (lineRxEnabled_iff.2 ⟨hi, he⟩), if_pos hr]

theorem lineRxStep_disabled {b : Byte} {s : State} (hd : ¬ (s.inited = true ∧ s.regs.rxEn = true)) :
    lineRxStep b s = s := by
  rw [lineRxStep, if_neg (mt lineRxEnabled_iff.1 hd)]

theorem lineTxStep_sent {s : State} (hi : s.inited = true) (he : s.regs.txEn = true) (hr : s.regs.txReady = false) :
    lineTxStep s = { s with lineOut := s.lineOut ++ [s.regs.txHold], regs := { s.regs with txReady := true } } := by
  rw [lineTxStep, if_pos (lineTxEnabled_iff.2 ⟨hi, he, hr⟩)]

theorem lineTxStep_disabled {s : State} (hd : ¬ (s.inited = true ∧ s.regs.txEn = true ∧ s.regs.txReady = false)) :
    lineTxStep s = s := by
  rw [lineTxStep, if_neg (mt lineTxEnabled_iff.1 hd)]

/-- Settles O12: a scheduled turn of the line is its step, which does not read the schedule. -/
theorem lineAgentSteps : Obligations.LineAgentSteps := by
  refine fun s b es => ⟨fun hs => ?_, fun hs => ?_⟩
  · have hstep : step s = .next (lineRxStep b { s with sched := es }) := step_cons hs
    refine ⟨fun hi he hr => ?_, fun hi he hr => ?_, fun hd => ?_⟩
    · rw [hstep, lineRxStep_held (s := { s with sched := es }) hi he hr]
    · rw [hstep, lineRxStep_lost (s := { s with sched := es }) hi he hr]
    · rw [hstep, lineRxStep_disabled (s := { s with sched := es }) hd]
  · have hstep : step s = .next (lineTxStep { s with sched := es }) := step_cons hs
    refine ⟨fun hi he hr => ?_, fun hd => ?_⟩
    · rw [hstep, lineTxStep_sent (s := { s with sched := es }) hi he hr]
    · rw [hstep, lineTxStep_disabled (s := { s with sched := es }) hd]

/-! ### The line's output and the data register's log -/

/-- Before `INIT` both logs are empty; after it they differ by the byte still in the transmitter (spec R115). -/
theorem Inv.txLog_eq {s : State} (hs : Inv s) (hf : s.faulted .txovr = false) :
    s.txLog = s.lineOut ++ (if s.regs.txReady ∨ s.inited = false then [] else [s.regs.txHold]) := by
  cases hi : s.inited with
  | true => simpa using hs.lineLog hi hf
  | false =>
    obtain ⟨hlog, hout, _⟩ := hs.boot.logs hi
    simp [hlog, hout]

/-- Settles O55: the invariant holds at the end of the run, and it ties the two logs. -/
theorem lineOutputIsLogPrefix : Obligations.LineOutputIsLogPrefix := by
  intro n s t hs hrun hf
  have hlog := (steps_keep stepKeepsInvariant hs hrun).txLog_eq hf
  exact ⟨⟨_, hlog.symm⟩, fun hr => by simpa [hr] using hlog.symm⟩

end Sys2Proof.Machine

/-! PROOFS. The synchronous operations, one µop at a time: the byte send, `RECV`, and the loop head that `SENDF` and `SENDFA`
share; then `SEND` and `RECV` run to their end. -/

namespace Sys2Proof.Machine

/-! ### The µops -/

/-- At `F0` and at `G0` the µop is the loop head, each with its own sub-sequence (spec R125, R146). -/
theorem callerUop_loopHead {s : State} {back : Ret} {sub : CState}
    (h : s.cpc = .f0 ∧ back = .f0 ∧ sub = .s0 ∨ s.cpc = .g0 ∧ back = .g0 ∧ sub = .a0) :
    callerUop s = loopHead back sub s := by
  rcases h with ⟨hq, rfl, rfl⟩ | ⟨hq, rfl, rfl⟩ <;> rw [callerUop, hq] <;> rfl

theorem callerUop_s0 {s : State} (hq : s.cpc = .s0) :
    callerUop s = some (if s.regs.txReady then { s with cpc := .s1 } else s) := by
  rw [callerUop, hq]
  rfl

theorem callerUop_s0_ready {s : State} (hq : s.cpc = .s0) (hr : s.regs.txReady = true) :
    callerUop s = some { s with cpc := .s1 } := by
  rw [callerUop_s0 hq, if_pos hr]

theorem callerUop_s1_done {s : State} (hq : s.cpc = .s1) (hr : s.ret = .done) :
    callerUop s = some { dataWrite s.opb s with cpc := .idle } := by
  simp only [callerUop, hq, uopS1, hr]

theorem callerUop_s1_back {s : State} (hq : s.cpc = .s1) (hr : s.ret = .f0) :
    callerUop s = some { dataWrite s.opb s with cpc := .f0 } := by
  simp only [callerUop, hq, uopS1, hr]

/-- `S1` writes to a transmitter that is still ready, and the send is done. -/
theorem callerUop_s1_done_ready {s : State} (hq : s.cpc = .s1) (hr : s.ret = .done) (hready : s.regs.txReady = true) :
    callerUop s = some
      { s with
        regs := { s.regs with txHold := s.opb, txReady := false }, txLog := s.txLog ++ [s.opb], cpc := .idle } := by
  rw [callerUop_s1_done hq hr, dataWrite_of_ready hready]

/-- `S1` writes to a transmitter that is still ready, and goes back to the loop head. -/
theorem callerUop_s1_back_ready {s : State} (hq : s.cpc = .s1) (hr : s.ret = .f0) (hready : s.regs.txReady = true) :
    callerUop s = some
      { s with
        regs := { s.regs with txHold := s.opb, txReady := false }, txLog := s.txLog ++ [s.opb], cpc := .f0 } := by
  rw [callerUop_s1_back hq hr, dataWrite_of_ready hready]

theorem callerUop_r0 {s : State} (hq : s.cpc = .r0) :
    callerUop s = some (if s.regs.rxReady then { s with cpc := .r1 } else s) := by
  rw [callerUop, hq]
  rfl

theorem callerUop_r1 {s : State} (hq : s.cpc = .r1) :
    callerUop s = some { (dataRead s).2 with res := recvByte (dataRead s).1, cpc := .idle } := by
  rw [callerUop, hq]
  rfl

/-- `R1` reads a receiver that still holds its byte. -/
theorem callerUop_r1_ready {s : State} (hq : s.cpc = .r1) (hready : s.regs.rxReady = true) :
    callerUop s = some
      { s with regs := { s.regs with rxReady := false }, res := recvByte s.regs.rxHold, cpc := .idle } := by
  rw [callerUop_r1 hq, dataRead_of_ready hready]

/-- Settles O13: each step is the µop that `cpc` names, and `S1` goes where `ret` says. -/
theorem byteSendSubSequence : Obligations.ByteSendSubSequence := fun _ hc hs =>
  ⟨fun hq => step_callerUop hs hc hq nofun (callerUop_s0 hq),
    fun hq hr => step_callerUop hs hc hq nofun (callerUop_s1_done hq hr),
    fun hq hr => step_callerUop hs hc hq nofun (callerUop_s1_back hq hr)⟩

/-- Settles O15: each step is the µop that `cpc` names, and the translation is the one spelled out. -/
theorem recvMicroSequence : Obligations.RecvMicroSequence := fun _ hc hs =>
  ⟨fun hq => step_callerUop hs hc hq nofun (callerUop_r0 hq),
    fun hq => step_callerUop hs hc hq nofun (callerUop_r1 hq)⟩

/-- Settles O17: the step at either loop head is `loopHead`, which reads inside the buffer while it is short of `fmt_len`. -/
theorem loopHeadChoosesNextByte : Obligations.LoopHeadChoosesNextByte := by
  intro s back sub hc hs hhead
  have hstep : ∀ {t}, loopHead back sub s = some t → step s = .next t := fun h =>
    step_callerUop hs hc rfl (by rcases hhead with ⟨hq, _⟩ | ⟨hq, _⟩ <;> simp [hq]) ((callerUop_loopHead hhead).trans h)
  refine ⟨fun hend => hstep (loopHead_end hend), fun hlt hle => ?_⟩
  have hin : s.fi < s.params.fmtMax := hlt.trans_le hle
  exact ⟨fun hb hcr => hstep (loopHead_cr hlt.ne hin hb hcr), fun hb => hstep (loopHead_char hlt.ne hin hb)⟩

/-! ### `SEND` and `RECV`, undisturbed -/

/-- Settles O14: the issue goes to `S0`, the poll passes, and the write finds the transmitter ready. -/
theorem sendCompletes : Obligations.SendCompletes := by
  intro b s hr hi hs hready
  obtain ⟨hc, hidle⟩ := callerReady_iff.1 hr
  refine ⟨exec_effect rfl hr hi rfl, ?_⟩
  obtain ⟨h1, hs1, hc1⟩ :=
    step_undisturbed (s := { s with opb := b, ret := .done, cpc := .s0 }) hs hc rfl nofun (callerUop_s0_ready rfl hready)
  obtain ⟨h2, -, -⟩ := step_undisturbed hs1 hc1 rfl nofun (callerUop_s1_done_ready rfl rfl hready)
  rw [steps_succ_next h1, steps_succ_next h2, steps_zero]
  cases s
  cases hidle
  rfl

/-- Settles O16: the issue goes to `R0`, the poll passes, and the read finds the byte there. -/
theorem recvCompletes : Obligations.RecvCompletes := by
  intro s hr hi hs hready
  obtain ⟨hc, hidle⟩ := callerReady_iff.1 hr
  refine ⟨exec_effect rfl hr hi rfl, ?_⟩
  obtain ⟨h1, hs1, hc1⟩ := step_undisturbed (s := { s with cpc := .r0 }) hs hc rfl nofun
    ((callerUop_r0 rfl).trans (congrArg some (if_pos hready)))
  obtain ⟨h2, -, -⟩ := step_undisturbed hs1 hc1 rfl nofun (callerUop_r1_ready rfl hready)
  rw [steps_succ_next h1, steps_succ_next h2, steps_zero]
  cases s
  cases hidle
  rfl

end Sys2Proof.Machine

/-! PROOFS. A formatted send, byte by byte: each turn of the loop head sends the first byte of the image that is still to send.
Then `SENDF` under every schedule without handlers: the bytes written and those still to send are together the image. -/

namespace Sys2Proof.Machine

/-! ### The image still to send -/

/-- What a formatted send has still to choose of the string's image; after an injected carriage return, all of the rest but
that carriage return (spec R125, R126). -/
def imageLeft (s : State) : List Byte :=
  if s.crp then (expandLF ((fmtChars s).drop s.fi)).tail else expandLF ((fmtChars s).drop s.fi)

/-- The string is within the buffer, the loop index within the string, and a carriage return is placed only before a newline
(spec R125). -/
def StringOk (s : State) : Prop :=
  s.fmtLen ≤ s.params.fmtMax ∧ s.fi ≤ s.fmtLen ∧ (s.crp = true → s.fi < s.fmtLen ∧ s.byteAt .fmt s.fi = chLF)

theorem expandLF_cons_newline (cs : List Byte) : expandLF (chLF :: cs) = chCR :: chLF :: expandLF cs := rfl

theorem expandLF_cons_other {c : Byte} (h : c ≠ chLF) (cs : List Byte) : expandLF (c :: cs) = c :: expandLF cs := by
  rw [expandLF, List.flatMap_cons, if_neg h]
  rfl

theorem fmtChars_length (s : State) : (fmtChars s).length = s.fmtLen := by simp [fmtChars]

theorem drop_fmtChars_fi {s : State} (h : s.fi < s.fmtLen) :
    (fmtChars s).drop s.fi = s.byteAt .fmt s.fi :: (fmtChars s).drop (s.fi + 1) := by
  rw [List.drop_eq_getElem_cons (by rwa [fmtChars_length])]
  simp [fmtChars]

theorem imageLeft_end {s : State} (h : s.fi = s.fmtLen) : imageLeft s = [] := by
  have hdrop : (fmtChars s).drop s.fi = [] := List.drop_of_length_le (by rw [fmtChars_length, h])
  simp [imageLeft, hdrop, expandLF]

theorem imageLeft_start {s : State} (hi : s.fi = 0) (hc : s.crp = false) : imageLeft s = expandLF (fmtChars s) := by
  simp [imageLeft, hi, hc]

/-- At a newline without its carriage return the next byte of the image is the carriage return. -/
theorem imageLeft_cr {s : State} (hlt : s.fi < s.fmtLen) (hb : s.byteAt .fmt s.fi = chLF) (hc : s.crp = false) :
    imageLeft s = chCR :: imageLeft { s with crp := true } := by
  have hrest : expandLF ((fmtChars s).drop s.fi) = chCR :: chLF :: expandLF ((fmtChars s).drop (s.fi + 1)) := by
    rw [drop_fmtChars_fi hlt, hb, expandLF_cons_newline]
  have htail : imageLeft { s with crp := true } = (expandLF ((fmtChars s).drop s.fi)).tail := rfl
  rw [htail, imageLeft, hc, hrest]
  rfl

/-- Elsewhere the next byte of the image is the character: a newline whose carriage return is placed, or another byte. -/
theorem imageLeft_char {s : State} (hs : StringOk s) (hlt : s.fi < s.fmtLen)
    (hb : ¬ (s.byteAt .fmt s.fi = chLF ∧ s.crp = false)) :
    imageLeft s = s.byteAt .fmt s.fi :: imageLeft { s with crp := false, fi := s.fi + 1 } := by
  have hnext : imageLeft { s with crp := false, fi := s.fi + 1 } = expandLF ((fmtChars s).drop (s.fi + 1)) := rfl
  rw [hnext, imageLeft, drop_fmtChars_fi hlt]
  cases hc : s.crp with
  | true =>
    obtain ⟨_, _, hcr⟩ := hs
    obtain ⟨_, hnl⟩ := hcr hc
    rw [hnl, expandLF_cons_newline]
    rfl
  | false =>
    have hother : s.byteAt .fmt s.fi ≠ chLF := fun h => hb ⟨h, hc⟩
    rw [expandLF_cons_other hother]
    rfl

/-- ONE TURN OF THE LOOP HEAD. It ends a send whose image is used up; else it hands the first byte of the image still to send
to the sub-sequence (spec R125, R146). -/
theorem loopHead_sends {s : State} (hok : StringOk s) (back : Ret) (sub : CState) :
    (loopHead back sub s = some { s with cnt := s.fmtLen, cpc := .idle } ∧ imageLeft s = []) ∨
    ∃ b c i, loopHead back sub s = some { s with opb := b, crp := c, fi := i, ret := back, cpc := sub } ∧
      StringOk { s with crp := c, fi := i } ∧ imageLeft s = b :: imageLeft { s with crp := c, fi := i } := by
  have ⟨hfits, hle, _⟩ := hok
  rcases hle.eq_or_lt with hend | hlt
  · exact .inl ⟨loopHead_end hend, imageLeft_end hend⟩
  · have hin : s.fi < s.params.fmtMax := hlt.trans_le hfits
    by_cases hb : s.byteAt .fmt s.fi = chLF ∧ s.crp = false
    · obtain ⟨hb, hc⟩ := hb
      exact .inr ⟨chCR, true, s.fi, loopHead_cr hlt.ne hin hb hc, ⟨hfits, hle, fun _ => ⟨hlt, hb⟩⟩,
        imageLeft_cr hlt hb hc⟩
    · exact .inr ⟨_, false, s.fi + 1, loopHead_char hlt.ne hin hb, ⟨hfits, hlt, nofun⟩, imageLeft_char hok hlt hb⟩

/-! ### `SENDF` under every schedule of the thread and the line -/

/-- The byte that the byte-send sub-sequence has still to write (spec R121). -/
def unwrittenByte (s : State) : List Byte :=
  match s.cpc with
  | .s0 | .s1 => [s.opb]
  | _ => []

/-- The `SENDF` begun in `o` is at the loop head, or sends a byte, or is done; what it has written and what it has still to
write are together the image of the string. A transmitter that `S0` found ready is ready until `S1`. -/
structure Sendf (o s : State) : Prop where
  ctx : s.ctx = .caller
  prog : s.prog = []
  place : s.cpc = .f0 ∨ s.cpc = .s0 ∧ s.ret = .f0 ∨ s.cpc = .s1 ∧ s.ret = .f0 ∨
    s.cpc = .idle ∧ s.cnt = s.fmtLen ∧ imageLeft s = []
  ready : s.cpc = .s1 → s.regs.txReady = true
  string : StringOk s
  bytes : s.txLog ++ (unwrittenByte s ++ imageLeft s) = o.txLog ++ expandLF (fmtChars o)
  fmtLen : s.fmtLen = o.fmtLen
  fmtBuf : s.fmtBuf = o.fmtBuf
  fault : s.fault = o.fault

theorem Sendf.f0 {o s t : State} (hs : Sendf o s) (hq : s.cpc = .f0) (h : callerUop s = some t) : Sendf o t := by
  have hbytes := hs.bytes
  rw [unwrittenByte, hq] at hbytes
  rw [callerUop_loopHead (.inl ⟨hq, rfl, rfl⟩)] at h
  rcases loopHead_sends hs.string .f0 .s0 with ⟨hend, hnil⟩ | ⟨b, c, i, hsend, hok, himage⟩
  · obtain rfl := Option.some.inj (hend.symm.trans h)
    exact { hs with place := .inr (.inr (.inr ⟨rfl, rfl, hnil⟩)), ready := nofun, bytes := hbytes }
  · obtain rfl := Option.some.inj (hsend.symm.trans h)
    rw [himage] at hbytes
    exact { hs with place := .inr (.inl ⟨rfl, rfl⟩), ready := nofun, string := hok, bytes := hbytes }

theorem Sendf.s0 {o s t : State} (hs : Sendf o s) (hq : s.cpc = .s0) (hr : s.ret = .f0) (h : callerUop s = some t) :
    Sendf o t := by
  have hbytes := hs.bytes
  rw [unwrittenByte, hq] at hbytes
  rw [callerUop_s0 hq] at h
  obtain rfl := Option.some.inj h
  split
  · next hready =>
    exact { hs with place := .inr (.inr (.inl ⟨rfl, hr⟩)), ready := fun _ => hready, bytes := hbytes }
  · exact hs

theorem Sendf.s1 {o s t : State} (hs : Sendf o s) (hq : s.cpc = .s1) (hr : s.ret = .f0) (h : callerUop s = some t) :
    Sendf o t := by
  have hbytes := hs.bytes
  rw [unwrittenByte, hq, ← List.append_assoc] at hbytes
  rw [callerUop_s1_back_ready hq hr (hs.ready hq)] at h
  obtain rfl := Option.some.inj h
  exact { hs with place := .inl rfl, ready := nofun, bytes := hbytes }

theorem Sendf.thread {o s t : State} (hs : Sendf o s) (h : threadStep s = .next t) : Sendf o t := by
  have huop : s.cpc ≠ .idle → callerUop s = some t := fun hne =>
    orFault_next.1 ((threadStep_uop hs.ctx hne).symm.trans h)
  rcases hs.place with hq | ⟨hq, hr⟩ | ⟨hq, hr⟩ | ⟨hq, _⟩
  · exact hs.f0 hq (huop (by simp [hq]))
  · exact hs.s0 hq hr (huop (by simp [hq]))
  · exact hs.s1 hq hr (huop (by simp [hq]))
  · rw [threadStep_wait hs.ctx hq hs.prog] at h
    injection h with h
    exact h ▸ hs

/-- The events of a schedule without handlers. -/
def HandlerFree (e : Event) : Prop := e = .thread ∨ e = .lineTx ∨ ∃ b, e = .lineRx b

theorem Sendf.agent {o s t : State} {e : Event} (hs : Sendf o s) (he : HandlerFree e) (h : agentStep e s = .next t) :
    Sendf o t := by
  rcases he with rfl | rfl | ⟨b, rfl⟩
  · exact hs.thread h
  · injection h with h
    subst h
    rcases lineTxStep_cases s with h | ⟨_, _, _, h⟩ <;> rw [h]
    · exact hs
    · exact { hs with ready := fun _ => rfl }
  · injection h with h
    subst h
    rcases lineRxStep_cases b s with h | ⟨_, _, _, h⟩ | ⟨_, _, _, h⟩ <;> rw [h] <;>
      exact { hs with }

/-- A run of the `SENDF` begun in `o`, under a schedule without handlers. -/
structure SendfRun (o s : State) : Prop where
  sched : ∀ e ∈ s.sched, HandlerFree e
  sendf : Sendf o s

theorem SendfRun.step {o s t : State} (hs : SendfRun o s) (h : step s = .next t) : SendfRun o t := by
  refine ⟨?_, ?_⟩
  · rw [step_sched h]
    exact fun e he => hs.sched e (List.mem_of_mem_tail he)
  · cases hsched : s.sched with
    | nil => exact hs.sendf.thread (step_nil hsched ▸ h)
    | cons e es =>
      have he : HandlerFree e := hs.sched e (by simp [hsched])
      rw [step_cons hsched] at h
      exact Sendf.agent (s := { s with sched := es }) { hs.sendf with } he h

/-- Settles O19: written and unwritten bytes are together the image at every step, and a send that is done has none left. -/
theorem sendfImageOnEverySchedule : Obligations.SendfImageOnEverySchedule := by
  intro n s t hq hc hi hcr hp hfits hsched hrun hdone
  have hstart : Sendf s s :=
    ⟨hc, hp, .inl hq, by simp [hq], ⟨hfits, by simp [hi], by simp [hcr]⟩,
      by rw [imageLeft_start hi hcr, unwrittenByte, hq, List.nil_append], rfl, rfl, rfl⟩
  obtain ⟨_, hend⟩ := steps_keep (fun _ _ => SendfRun.step) ⟨hsched, hstart⟩ hrun
  obtain ⟨hcnt, hnil⟩ : t.cnt = t.fmtLen ∧ imageLeft t = [] := by simpa [hdone] using hend.place
  refine ⟨?_, hcnt.trans hend.fmtLen, hend.fault, hend.fmtLen, hend.fmtBuf⟩
  simpa [unwrittenByte, hdone, hnil] using hend.bytes

end Sys2Proof.Machine

/-! PROOFS. `SENDF` and `SENDFA` complete: on a schedule built byte by byte, of the thread's turns, of `LineTx` where the
transmitter is awaited, and for `SENDFA` of a dispatch of `TXH` where ring `TX` is full. -/

namespace Sys2Proof.Machine

/-! ### Runs on some schedule -/

/-- On some schedule of events with `P`, whatever is scheduled after it, the machine runs from `s` to `t`. -/
def Reaches (P : Event → Prop) (s t : State) : Prop :=
  ∃ es, (∀ e ∈ es, P e) ∧
    ∀ later, steps es.length { s with sched := es ++ later } = .next { t with sched := later }

theorem steps_add_next {m : Nat} (n : Nat) {s t : State} (h : steps m s = .next t) : steps (m + n) s = steps n t := by
  induction m generalizing s with
  | zero =>
    cases h
    rw [Nat.zero_add]
  | succ m ih =>
    rw [steps_succ] at h
    split at h
    · next u hu => rw [Nat.add_right_comm, steps_succ_next hu, ih h]
    · cases h
    · cases h

section Reaches

variable {P : Event → Prop} {s t u : State}

theorem Reaches.refl (P : Event → Prop) (s : State) : Reaches P s s := ⟨[], nofun, fun _ => rfl⟩

theorem Reaches.trans (hst : Reaches P s t) (htu : Reaches P t u) : Reaches P s u := by
  obtain ⟨es, hes, hrun⟩ := hst
  obtain ⟨es', hes', hrun'⟩ := htu
  refine ⟨es ++ es', fun e he => (List.mem_append.1 he).elim (hes e) (hes' e), fun later => ?_⟩
  rw [List.length_append, List.append_assoc, steps_add_next _ (hrun _), hrun']

/-- One turn of an agent, which does what it does whatever is scheduled after it. -/
theorem Reaches.turn {e : Event} (he : P e)
    (h : ∀ later, agentStep e { s with sched := later } = .next { t with sched := later }) : Reaches P s t := by
  refine ⟨[e], by simpa using he, fun later => ?_⟩
  have hstep : step { s with sched := e :: later } = .next { t with sched := later } := (step_cons rfl).trans (h later)
  rw [List.singleton_append, List.length_singleton, steps_succ_next hstep, steps_zero]

/-- The run with nothing scheduled after it. -/
theorem Reaches.run (h : Reaches P s t) :
    ∃ es, (∀ e ∈ es, P e) ∧ steps es.length { s with sched := es } = .next { t with sched := [] } := by
  obtain ⟨es, hes, hrun⟩ := h
  exact ⟨es, hes, by simpa using hrun []⟩

/-! ### The turns such a schedule is made of -/

theorem loopHead_sched {back : Ret} {sub : CState} (h : loopHead back sub s = some t) (later : List Event) :
    loopHead back sub { s with sched := later } = some { t with sched := later } := by
  rcases loopHead_next h with ⟨h1, rfl⟩ | ⟨h1, hlt, hb, hc, rfl⟩ | ⟨h1, hlt, hb, rfl⟩
  · exact loopHead_end h1
  · exact loopHead_cr h1 hlt hb hc
  · exact loopHead_char h1 hlt hb

/-- A µop of a command does not read the schedule (log 7). -/
theorem callerUop_sched (h : callerUop s = some t) (later : List Event) :
    callerUop { s with sched := later } = some { t with sched := later } := by
  simp only [callerUop] at h ⊢
  cases hq : s.cpc <;> simp only [hq] at h ⊢
  case f0 | g0 => exact loopHead_sched h later
  case a2 =>
    obtain ⟨hw, rfl⟩ := uopA2_next h
    exact uopA2_of_lt hw
  case b3 =>
    obtain ⟨hr, rfl⟩ := uopB3_next h
    exact uopB3_of_lt hr
  all_goals obtain rfl := Option.some.inj h
  case idle => simp [hq]
  case s0 | s1 => cases hr : s.regs.txReady <;> simp [uopS0, uopS1, dataWrite, hr, State.raise, hq]
  case r0 | r1 => cases hr : s.regs.rxReady <;> simp [uopR0, uopR1, dataRead, hr, State.raise, hq]
  all_goals rfl

/-- The thread's turn in caller context, a command in progress. -/
theorem Reaches.uop {q : CState} (hP : P .thread) (hc : s.ctx = .caller) (hq : s.cpc = q) (hi : q ≠ .idle)
    (h : callerUop s = some t) : Reaches P s t := by
  refine .turn hP fun later => ?_
  rw [agentStep, threadStep_uop (s := { s with sched := later }) hc (hq ▸ hi), callerUop_sched h, orFault]

/-- The transmitter is ready, or becomes so by a turn of `LineTx` (spec R113). -/
theorem Reaches.ready (hP : P .lineTx) (hi : s.inited = true) (he : s.regs.txEn = true) :
    ∃ out, Reaches P s { s with lineOut := out, regs := { s.regs with txReady := true } } := by
  cases hr : s.regs.txReady with
  | false =>
    exact ⟨s.lineOut ++ [s.regs.txHold], .turn hP fun later =>
      congrArg Host.Outcome.next (lineTxStep_sent (s := { s with sched := later }) hi he hr)⟩
  | true =>
    have hsame : { s with lineOut := s.lineOut, regs := { s.regs with txReady := true } } = s := by rw [← hr]
    exact ⟨s.lineOut, hsame.symm ▸ .refl P s⟩

end Reaches

/-! ### A formatted send, whatever sends its bytes -/

/-- What a formatted send begun in `o` finds in `s` whenever it is in caller context outside a bracket: a block that can
send, and in it all that the send leaves as it was. -/
structure SendFrame (o s : State) : Prop where
  ctx : s.ctx = .caller
  inited : s.inited = true
  txEn : s.regs.txEn = true
  lineEn : s.regs.lineEn = o.regs.lineEn
  params : s.params = o.params
  fmtLen : s.fmtLen = o.fmtLen
  fmtBuf : s.fmtBuf = o.fmtBuf
  seed : s.seed = o.seed
  rx : s.rx = o.rx
  fault : s.fault = o.fault

/-- The string and the place in it, as `u` and `v` have them, are the same. -/
theorem SendFrame.same_image {o u v : State} (hu : SendFrame o u) (hv : SendFrame o v) (hi : v.fi = u.fi)
    (hc : v.crp = u.crp) : imageLeft v = imageLeft u ∧ (StringOk v ↔ StringOk u) := by
  have hbyte : ∀ j, v.byteAt .fmt j = u.byteAt .fmt j := fun j => by
    simp only [State.byteAt, hu.fmtBuf, hv.fmtBuf, hu.seed, hv.seed]
  have hlen : v.fmtLen = u.fmtLen := hv.fmtLen.trans hu.fmtLen.symm
  have hparams : v.params = u.params := hv.params.trans hu.params.symm
  constructor
  · simp only [imageLeft, fmtChars, hbyte, hlen, hi, hc]
  · simp only [StringOk, hbyte, hlen, hparams, hi, hc]

/-- The sub-sequence at `sub`, on some schedule, sends the byte that the loop head at `head` has handed to it. What has been
sent is told from the data register's log and ring `TX` by `Sent`. -/
def SendsByte (P : Event → Prop) (o : State) (Sent : List Byte → List Byte → Ring → Prop) (head : CState) (back : Ret)
    (sub : CState) : Prop :=
  ∀ bs u, SendFrame o u → u.cpc = sub → u.ret = back → Sent bs u.txLog u.tx →
    ∃ v, Reaches P u v ∧ SendFrame o v ∧ v.cpc = head ∧ v.fi = u.fi ∧ v.crp = u.crp ∧ Sent (bs ++ [u.opb]) v.txLog v.tx

/-- By induction on the image still to send: the loop head hands over its bytes one by one (spec R125, R126, R146). -/
theorem SendsByte.completes {P : Event → Prop} {o : State} {Sent : List Byte → List Byte → Ring → Prop} {head : CState}
    {back : Ret} {sub : CState} (hsend : SendsByte P o Sent head back sub) (hP : P .thread)
    (hhead : head = .f0 ∧ back = .f0 ∧ sub = .s0 ∨ head = .g0 ∧ back = .g0 ∧ sub = .a0) {rest : List Byte} :
    ∀ {bs : List Byte} {s : State}, SendFrame o s → s.cpc = head → StringOk s → imageLeft s = rest →
      Sent bs s.txLog s.tx →
      ∃ t, Reaches P s t ∧ SendFrame o t ∧ t.cpc = .idle ∧ t.cnt = o.fmtLen ∧ Sent (bs ++ rest) t.txLog t.tx := by
  have hne : head ≠ .idle := by rcases hhead with ⟨rfl, _⟩ | ⟨rfl, _⟩ <;> nofun
  have turn : ∀ {s t}, SendFrame o s → s.cpc = head → loopHead back sub s = some t → Reaches P s t := fun hs hq h =>
    .uop hP hs.ctx hq hne ((callerUop_loopHead (hq ▸ hhead)).trans h)
  induction rest with
  | nil =>
    intro bs s hs hq hok himage hsent
    rcases loopHead_sends hok back sub with ⟨hend, _⟩ | ⟨b, c, i, _, _, hmore⟩
    · exact ⟨_, turn hs hq hend, { hs with }, rfl, hs.fmtLen, by rwa [List.append_nil]⟩
    · simp [himage] at hmore
  | cons b rest ih =>
    intro bs s hs hq hok himage hsent
    rcases loopHead_sends hok back sub with ⟨_, hnil⟩ | ⟨b', c, i, hhand, hok', hmore⟩
    · simp [himage] at hnil
    · obtain ⟨rfl, hrest⟩ := List.cons.inj (himage.symm.trans hmore)
      have hu : SendFrame o { s with opb := b, crp := c, fi := i, ret := back, cpc := sub } := { hs with }
      obtain ⟨v, hrun, hv, hvq, hi, hc, hvsent⟩ := hsend bs _ hu rfl rfl hsent
      obtain ⟨hvimage, hvok⟩ := hu.same_image hv hi hc
      obtain ⟨t, hrun', ht, htq, hcnt, htsent⟩ := ih hv hvq (hvok.2 hok') (hvimage.trans hrest.symm) hvsent
      exact ⟨t, (turn hs hq hhand).trans (hrun.trans hrun'), ht, htq, hcnt, by rwa [List.append_cons]⟩

/-! ### `SENDF` -/

/-- The byte-send sub-sequence with one turn of `LineTx` writes its byte, and leaves ring `TX` as it was (spec R121). -/
theorem sendsByte_sync {P : Event → Prop} (hP : P .thread) (hline : P .lineTx) (o : State) :
    SendsByte P o (fun bs log x => log = bs ∧ x = o.tx) .f0 .f0 .s0 := by
  rintro bs u hu hq hr ⟨hlog, htx⟩
  obtain ⟨out, hready⟩ := Reaches.ready hline hu.inited hu.txEn
  have hpoll := Reaches.uop (s := { u with lineOut := out, regs := { u.regs with txReady := true } }) hP hu.ctx hq nofun
    (callerUop_s0_ready hq rfl)
  have hwrite := hpoll.trans (.uop hP hu.ctx rfl nofun (callerUop_s1_back_ready rfl hr rfl))
  exact ⟨_, hready.trans hwrite, { hu with }, rfl, rfl, rfl, congrArg (· ++ [u.opb]) hlog, htx⟩

/-- Settles O18: the loop with the byte-send sub-sequence, each byte with a turn of `LineTx`. -/
theorem sendfCompletes : Obligations.SendfCompletes := by
  intro s hr hi he hfits
  obtain ⟨hc, -⟩ := callerReady_iff.1 hr
  refine ⟨exec_effect rfl hr hi rfl, ?_⟩
  have hbytes := sendsByte_sync (P := fun e => e = .thread ∨ e = .lineTx) (.inl rfl) (.inr rfl) s
  obtain ⟨t, hrun, ht, hidle, hcnt, hlog, htx⟩ := hbytes.completes (.inl rfl) (.inl ⟨rfl, rfl, rfl⟩)
    (s := { s with fi := 0, crp := false, cpc := .f0 }) ⟨hc, hi, he, rfl, rfl, rfl, rfl, rfl, rfl, rfl⟩ rfl
    ⟨hfits, Nat.zero_le _, nofun⟩ (imageLeft_start rfl rfl) ⟨rfl, rfl⟩
  obtain ⟨es, hes, hsteps⟩ := hrun.run
  exact ⟨es, _, hes, hsteps, hidle, ht.ctx, hcnt, hlog, ht.fmtLen, ht.fmtBuf, ht.rx, htx, ht.fault⟩

/-! ### The byte-queue sub-sequence, and `TXH` when ring `TX` is full -/

theorem callerUop_a0_room {s : State} (hq : s.cpc = .a0) (hf : fullP s.N s.tx = false) :
    callerUop s = some { s with cpc := .a1 } := by
  simp [callerUop, hq, uopA0, hf]

theorem callerUop_a0_full {s : State} (hq : s.cpc = .a0) (hf : fullP s.N s.tx = true) :
    callerUop s = some { s with cpc := .a0e } := by
  simp [callerUop, hq, uopA0, hf]

theorem callerUop_a2 {s : State} (hq : s.cpc = .a2) (hw : s.tx.wr < s.N) :
    callerUop s = some { s with tx := { s.tx with mem := Memory.setZ s.tx.mem s.tx.wr s.opb }, cpc := .a3 } := by
  simp only [callerUop, hq, uopA2_of_lt hw]

theorem callerUop_a5_back {s : State} (hq : s.cpc = .a5) (hr : s.ret = .g0) :
    callerUop s = some { setTxIe true s with cpc := .g0 } := by
  simp only [callerUop, hq, uopA5, hr]

/-- The state `s` at the µ-state `q` of the queueing bracket: the line unmasked or not, ring `TX` as far as it is written. -/
def queueing (s : State) (line : Bool) (x : Ring) (q : CState) : State :=
  { s with regs := { s.regs with lineEn := line }, tx := x, cpc := q }

/-- On a ring with room the sub-sequence queues its byte, unmasks the line and arms the source (spec R136 to R138). -/
theorem reaches_queued {P : Event → Prop} (hP : P .thread) {s : State} (hc : s.ctx = .caller) (hq : s.cpc = .a0)
    (hr : s.ret = .g0) (hw : s.tx.wr < s.N) (hf : fullP s.N s.tx = false) :
    Reaches P s
      { s with
        tx := { s.tx with mem := Memory.setZ s.tx.mem s.tx.wr s.opb }.advanceWr s.N
        regs := { s.regs with lineEn := true, txIe := true }
        cpc := .g0 } := by
  obtain ⟨x, hx⟩ : ∃ x, x = { s.tx with mem := Memory.setZ s.tx.mem s.tx.wr s.opb } := ⟨_, rfl⟩
  rw [← hx]
  have ha0 : Reaches P s { s with cpc := .a1 } := .uop hP hc hq nofun (callerUop_a0_room hq hf)
  have ha1 : Reaches P { s with cpc := .a1 } (queueing s false s.tx .a2) := .uop hP hc rfl nofun rfl
  have ha2 : Reaches P (queueing s false s.tx .a2) (queueing s false x .a3) :=
    .uop hP hc rfl nofun (hx ▸ callerUop_a2 (s := queueing s false s.tx .a2) rfl hw)
  have ha3 : Reaches P (queueing s false x .a3) (queueing s false (x.advanceWr s.N) .a4) := .uop hP hc rfl nofun rfl
  have ha4 : Reaches P (queueing s false (x.advanceWr s.N) .a4) (queueing s true (x.advanceWr s.N) .a5) :=
    .uop hP hc rfl nofun rfl
  exact ha0.trans (ha1.trans (ha2.trans (ha3.trans (ha4.trans (.uop hP hc rfl nofun (callerUop_a5_back rfl hr))))))

/-- On a full ring the sub-sequence arms the source and tests again (spec R136). -/
theorem reaches_armed {P : Event → Prop} (hP : P .thread) {s : State} (hc : s.ctx = .caller) (hq : s.cpc = .a0)
    (hf : fullP s.N s.tx = true) :
    Reaches P s { s with regs := { s.regs with txIe := true }, cpc := .a0 } :=
  (Reaches.uop hP hc hq nofun (callerUop_a0_full hq hf)).trans (.uop hP hc rfl nofun rfl)

theorem handlerUop_w0_data {s : State} (hq : s.hpc = .w0) (he : emptyC s.tx = false) :
    handlerUop s = some { s with hpc := .w1 } := by
  simp [handlerUop, hq, uopW0, he]

theorem handlerUop_w1_ready {s : State} (hq : s.hpc = .w1) (hr : s.tx.rd < s.N) (hready : s.regs.txReady = true) :
    handlerUop s = some
      { s with
        tx := s.tx.advanceRd s.N
        txLog := s.txLog ++ [Memory.getZ s.tx.mem s.tx.rd]
        regs := { s.regs with txHold := Memory.getZ s.tx.mem s.tx.rd, txReady := false }
        hpc := .w2 } := by
  have hread : memRead .txm s.tx.rd s = some (Memory.getZ s.tx.mem s.tx.rd) := memRead_eq_some.2 ⟨hr, rfl⟩
  simp only [handlerUop, hq, uopW1, hread, dataWrite_of_ready hready]
  rfl

/-- The thread's turn with a handler active. -/
theorem Reaches.handler {P : Event → Prop} (hP : P .thread) {s t : State} (hc : s.ctx = .handler)
    (h : ∀ later, handlerUop { s with sched := later } = some { t with sched := later }) : Reaches P s t :=
  .turn hP fun later => by rw [agentStep, threadStep_handlerUop (s := { s with sched := later }) hc, h, orFault]

theorem frameworkStep_txh {s : State} (hd : dispatchable s .txh = true) (hc : s.ctx = .caller) (hi : s.inited = true) :
    frameworkStep (encode .txh) s = .next (enterHandler .w0 s) := by
  rw [frameworkStep_ok decodeOn_txh, if_pos hd, exec_txh, invoke, hc, hi]
  rfl

/-- `TXH`, dispatched to a ready transmitter, moves the oldest queued byte to the data register (spec R160 to R163). -/
theorem reaches_txh {P : Event → Prop} (hP : P .thread) (hPd : P (.dispatch (encode .txh))) {s : State}
    (hd : dispatchable s .txh = true) (hr : s.tx.rd < s.N) (he : emptyC s.tx = false) :
    Reaches P s
      { s with
        tx := s.tx.advanceRd s.N
        txLog := s.txLog ++ [Memory.getZ s.tx.mem s.tx.rd]
        regs := { s.regs with txHold := Memory.getZ s.tx.mem s.tx.rd, txReady := false, txIe := true }
        ctx := .caller, hpc := .none } := by
  obtain ⟨hi, hc, -, hirq⟩ := dispatchable_txh.1 hd
  have hready : s.regs.txReady = true := (Bool.and_eq_true_iff.1 hirq).2
  have hentry : Reaches P s (enterHandler .w0 s) :=
    .turn hPd fun later => frameworkStep_txh (s := { s with sched := later }) hd hc hi
  have hw0 : Reaches P (enterHandler .w0 s) { s with ctx := .handler, hpc := .w1 } :=
    .handler hP rfl fun later => handlerUop_w0_data (s := { enterHandler .w0 s with sched := later }) rfl he
  have hw1 : Reaches P { s with ctx := .handler, hpc := .w1 }
      { s with
        tx := s.tx.advanceRd s.N
        txLog := s.txLog ++ [Memory.getZ s.tx.mem s.tx.rd]
        regs := { s.regs with txHold := Memory.getZ s.tx.mem s.tx.rd, txReady := false }
        ctx := .handler, hpc := .w2 } :=
    .handler hP rfl fun later =>
      handlerUop_w1_ready (s := { s with ctx := .handler, hpc := .w1, sched := later }) rfl hr hready
  exact hentry.trans (hw0.trans (hw1.trans (.handler hP rfl fun _ => rfl)))

/-! ### `SENDFA` -/

/-- The events of a schedule of the thread, the transmitter and dispatches of `TXH`. -/
def TxhEvent (e : Event) : Prop := e = .thread ∨ e = .lineTx ∨ e = .dispatch (encode .txh)

/-- The bytes written and those queued are together `bs`. -/
def SentOrQueued (n : Nat) (bs log : List Byte) (x : Ring) : Prop := RingOk n x ∧ log ++ unread n x = bs

/-- Where the byte-queue sub-sequence finds ring `TX` full, `TXH` can take a byte from it (spec R136, R216): then there is
room, and what is written or queued is the same. -/
theorem reaches_room {o u : State} {bs : List Byte} (hK : 2 ≤ o.N) (hline : o.regs.lineEn = true) (hu : SendFrame o u)
    (hq : u.cpc = .a0) (hsent : SentOrQueued o.N bs u.txLog u.tx) :
    ∃ v, Reaches TxhEvent u v ∧ SendFrame o v ∧ v.cpc = .a0 ∧ v.ret = u.ret ∧ v.opb = u.opb ∧ v.fi = u.fi ∧
      v.crp = u.crp ∧ SentOrQueued o.N bs v.txLog v.tx ∧ fullP o.N v.tx = false := by
  have hN : o.N = u.N := congrArg Params.N hu.params.symm
  rw [hN] at hK hsent ⊢
  obtain ⟨hring, hbytes⟩ := hsent
  cases hf : fullP u.N u.tx with
  | false => exact ⟨u, .refl _ u, hu, hq, rfl, rfl, rfl, rfl, ⟨hring, hbytes⟩, hf⟩
  | true =>
    have he : emptyC u.tx = false := Bool.eq_false_iff.2 fun he => hring.not_full_and_empty hK ⟨hf, he⟩
    have htake := Passed.get hring he
    have harm := reaches_armed (P := TxhEvent) (.inl rfl) hu.ctx hq hf
    obtain ⟨out, hready⟩ := Reaches.ready (P := TxhEvent)
      (s := { u with regs := { u.regs with txIe := true }, cpc := .a0 }) (.inr (.inl rfl)) hu.inited hu.txEn
    have hmove := reaches_txh (P := TxhEvent) (.inl rfl) (.inr (.inr rfl))
      (s := { u with regs := { u.regs with txIe := true, txReady := true }, cpc := .a0, lineOut := out })
      (dispatchable_txh.2 ⟨hu.inited, hu.ctx, hu.lineEn.trans hline, rfl⟩) hring.rd he
    refine ⟨_, harm.trans (hready.trans hmove), { hu with ctx := rfl }, rfl, rfl, rfl, rfl, rfl, ⟨htake.ok, ?_⟩,
      fullP_advanceRd hring.wr hring.rd hring.wrGs he⟩
    rw [List.append_assoc, htake.fifo, List.append_nil, hbytes]

/-- The byte-queue sub-sequence, with a run of `TXH` where ring `TX` is full, queues its byte behind the others (spec R136 to
R139). -/
theorem sendsByte_async {o : State} (hK : 2 ≤ o.N) (hline : o.regs.lineEn = true) :
    SendsByte TxhEvent o (SentOrQueued o.N) .g0 .g0 .a0 := by
  intro bs u hu hq hr hsent
  obtain ⟨v, hrun, hv, hvq, hvr, hopb, hfi, hcrp, ⟨hring, hbytes⟩, hroom⟩ := reaches_room hK hline hu hq hsent
  have hN : o.N = v.N := congrArg Params.N hv.params.symm
  rw [hN] at hring hbytes hroom ⊢
  have hqueue := reaches_queued (P := TxhEvent) (.inl rfl) hv.ctx hvq (hvr.trans hr) hring.wr hroom
  have hput := Passed.put v.opb hring hroom
  refine ⟨_, hrun.trans hqueue, { hv with lineEn := hline.symm }, rfl, hfi, hcrp, hput.ok, ?_⟩
  rw [← hopb, ← hbytes, List.append_assoc, ← hput.fifo, List.nil_append]

/-- Settles O25: the loop with the byte-queue sub-sequence, and `TXH` where ring `TX` is full. -/
theorem sendfaCompletes : Obligations.SendfaCompletes := by
  intro s hr hi _ he hline hK hrange hg
  obtain ⟨hc, -⟩ := callerReady_iff.1 hr
  refine ⟨exec_effect rfl hr hi rfl, ?_⟩
  have hbytes := sendsByte_async (two_le_N hK) hline
  obtain ⟨t, hrun, ht, hidle, hcnt, -, hsent⟩ := hbytes.completes (.inl rfl) (.inr ⟨rfl, rfl, rfl⟩)
    (s := { s with fi := 0, crp := false, cpc := .g0 }) ⟨hc, hi, he, rfl, rfl, rfl, rfl, rfl, rfl, rfl⟩ rfl
    ⟨hrange.fmtLen, Nat.zero_le _, nofun⟩ (imageLeft_start rfl rfl) ⟨RingOk.of_state hrange hg .tx, rfl⟩
  obtain ⟨es, hes, hsteps⟩ := hrun.run
  have hN : t.N = s.N := congrArg Params.N ht.params
  exact ⟨es, _, hes, hsteps, hidle, ht.ctx, hcnt, hN ▸ hsent, ht.fmtLen, ht.fmtBuf, ht.rx, ht.fault⟩

end Sys2Proof.Machine

/-! PROOFS. The asynchronous operations, one µop at a time: the byte queue of `SENDA`, `RECVA`, and their runs to the end
where the ring has room or data; then the pair enable and disable, and the byte that `TXH` moves. -/

namespace Sys2Proof.Machine

/-! ### The µops -/

/-- `A0` tests whether ring `TX` is full (spec R136). -/
theorem callerUop_a0 {s : State} (hq : s.cpc = .a0) :
    callerUop s = some { s with cpc := if fullP s.N s.tx then .a0e else .a1 } := by
  rw [callerUop, hq]
  rfl

theorem callerUop_a0e {s : State} (hq : s.cpc = .a0e) :
    callerUop s = some { s with regs := { s.regs with txIe := true }, cpc := .a0 } := by
  rw [callerUop, hq]
  rfl

theorem callerUop_a1 {s : State} (hq : s.cpc = .a1) :
    callerUop s = some { s with regs := { s.regs with lineEn := false }, cpc := .a2 } := by
  rw [callerUop, hq]
  rfl

theorem callerUop_a3 {s : State} (hq : s.cpc = .a3) :
    callerUop s = some { s with tx := s.tx.advanceWr s.N, cpc := .a4 } := by
  rw [callerUop, hq]
  rfl

theorem callerUop_a4 {s : State} (hq : s.cpc = .a4) :
    callerUop s = some { s with regs := { s.regs with lineEn := true }, cpc := .a5 } := by
  rw [callerUop, hq]
  rfl

theorem callerUop_a5_done {s : State} (hq : s.cpc = .a5) (hr : s.ret = .done) :
    callerUop s = some { setTxIe true s with cpc := .idle } := by
  simp only [callerUop, hq, uopA5, hr]

/-- `B0` and `B1E` arm the receive source and go on to the empty test (spec R141). -/
theorem callerUop_arm_rx {s : State} (hq : s.cpc = .b0 ∨ s.cpc = .b1e) :
    callerUop s = some { s with regs := { s.regs with rxIe := true }, cpc := .b1 } := by
  rcases hq with hq | hq <;> rw [callerUop, hq] <;> rfl

/-- `B1` tests whether ring `RX` is empty (spec R141). -/
theorem callerUop_b1 {s : State} (hq : s.cpc = .b1) :
    callerUop s = some { s with cpc := if emptyC s.rx then .b1e else .b2 } := by
  rw [callerUop, hq]
  rfl

theorem callerUop_b1_data {s : State} (hq : s.cpc = .b1) (he : emptyC s.rx = false) :
    callerUop s = some { s with cpc := .b2 } :=
  (callerUop_b1 hq).trans (by rw [he]; rfl)

theorem callerUop_b2 {s : State} (hq : s.cpc = .b2) :
    callerUop s = some { s with regs := { s.regs with lineEn := false }, cpc := .b3 } := by
  rw [callerUop, hq]
  rfl

theorem callerUop_b3 {s : State} (hq : s.cpc = .b3) (hr : s.rx.rd < s.N) :
    callerUop s = some { s with res := s.byteAt .rxm s.rx.rd, cpc := .b4 } := by
  simp only [callerUop, hq, uopB3_of_lt hr]

theorem callerUop_b4 {s : State} (hq : s.cpc = .b4) :
    callerUop s = some { s with rx := s.rx.advanceRd s.N, cpc := .b5 } := by
  rw [callerUop, hq]
  rfl

theorem callerUop_b5 {s : State} (hq : s.cpc = .b5) :
    callerUop s = some { s with regs := { s.regs with lineEn := true }, cpc := .idle } := by
  rw [callerUop, hq]
  rfl

/-- Settles O21: each step is the µop that `cpc` names; the store is inside ring `TX`, and `A5` goes where `ret` says. -/
theorem byteQueueSubSequence : Obligations.ByteQueueSubSequence := fun _ hc hs =>
  ⟨fun hq => step_callerUop hs hc hq nofun (callerUop_a0 hq),
    fun hq => step_callerUop hs hc hq nofun (callerUop_a0e hq),
    fun hq => step_callerUop hs hc hq nofun (callerUop_a1 hq),
    fun hq hw => step_callerUop hs hc hq nofun (callerUop_a2 hq hw),
    fun hq => step_callerUop hs hc hq nofun (callerUop_a3 hq),
    fun hq => step_callerUop hs hc hq nofun (callerUop_a4 hq),
    fun hq hr => step_callerUop hs hc hq nofun (callerUop_a5_done hq hr),
    fun hq hr => step_callerUop hs hc hq nofun (callerUop_a5_back hq hr)⟩

/-- Settles O23: each step is the µop that `cpc` names; the load is inside ring `RX`. -/
theorem consumeMicroSequence : Obligations.ConsumeMicroSequence := fun _ hc hs =>
  ⟨fun hq => step_callerUop hs hc hq nofun (callerUop_arm_rx (.inl hq)),
    fun hq => step_callerUop hs hc hq nofun (callerUop_b1 hq),
    fun hq => step_callerUop hs hc hq nofun (callerUop_arm_rx (.inr hq)),
    fun hq => step_callerUop hs hc hq nofun (callerUop_b2 hq),
    fun hq hr => step_callerUop hs hc hq nofun (callerUop_b3 hq hr),
    fun hq => step_callerUop hs hc hq nofun (callerUop_b4 hq),
    fun hq => step_callerUop hs hc hq nofun (callerUop_b5 hq)⟩

/-! ### `SENDA` and `RECVA`, undisturbed -/

/-- Settles O22: the issue goes to `A0`, the full test passes, and inside the bracket the byte is stored and
published. -/
theorem sendaCompletes : Obligations.SendaCompletes := by
  intro b s hr hi hs hw hf
  obtain ⟨hc, hidle⟩ := callerReady_iff.1 hr
  refine ⟨exec_effect rfl hr hi rfl, ?_⟩
  obtain ⟨h1, hs, hc⟩ := step_undisturbed (s := { s with opb := b, ret := .done, cpc := .a0 }) hs hc rfl nofun
    (callerUop_a0_room rfl hf)
  obtain ⟨h2, hs, hc⟩ := step_undisturbed hs hc rfl nofun (callerUop_a1 rfl)
  obtain ⟨h3, hs, hc⟩ := step_undisturbed hs hc rfl nofun (callerUop_a2 rfl hw)
  obtain ⟨h4, hs, hc⟩ := step_undisturbed hs hc rfl nofun (callerUop_a3 rfl)
  obtain ⟨h5, hs, hc⟩ := step_undisturbed hs hc rfl nofun (callerUop_a4 rfl)
  obtain ⟨h6, -, -⟩ := step_undisturbed hs hc rfl nofun (callerUop_a5_done rfl rfl)
  rw [steps_succ_next h1, steps_succ_next h2, steps_succ_next h3, steps_succ_next h4, steps_succ_next h5,
    steps_succ_next h6, steps_zero]
  cases s
  cases hidle
  rfl

/-- Settles O24: the issue goes to `B0`, the empty test passes, and inside the bracket the byte is loaded and its
slot freed. -/
theorem recvaCompletes : Obligations.RecvaCompletes := by
  intro s hr hi hs hrd he
  obtain ⟨hc, hidle⟩ := callerReady_iff.1 hr
  refine ⟨exec_effect rfl hr hi rfl, ?_⟩
  obtain ⟨h1, hs, hc⟩ := step_undisturbed (s := { s with cpc := .b0 }) hs hc rfl nofun (callerUop_arm_rx (.inl rfl))
  obtain ⟨h2, hs, hc⟩ := step_undisturbed hs hc rfl nofun (callerUop_b1_data rfl he)
  obtain ⟨h3, hs, hc⟩ := step_undisturbed hs hc rfl nofun (callerUop_b2 rfl)
  obtain ⟨h4, hs, hc⟩ := step_undisturbed hs hc rfl nofun (callerUop_b3 rfl hrd)
  obtain ⟨h5, hs, hc⟩ := step_undisturbed hs hc rfl nofun (callerUop_b4 rfl)
  obtain ⟨h6, -, -⟩ := step_undisturbed hs hc rfl nofun (callerUop_b5 rfl)
  rw [steps_succ_next h1, steps_succ_next h2, steps_succ_next h3, steps_succ_next h4, steps_succ_next h5,
    steps_succ_next h6, steps_zero]
  cases s
  cases hidle
  rfl

/-! ### The pair enable and disable -/

/-- Settles O26: both complete at issue, and their effect is one write of `LINE_EN`. -/
theorem pairEnableDisable : Obligations.PairEnableDisable := fun _ hr hi =>
  ⟨exec_effect rfl hr hi rfl, exec_effect rfl hr hi rfl⟩

/-! ### The transfer of `TXH` -/

theorem handlerUop_w1 {s : State} (hq : s.hpc = .w1) : handlerUop s = uopW1 s := by
  rw [handlerUop, hq]

/-- `W1` on a ring that is not empty writes the oldest unread byte to the data register and leaves the others (spec
R162). -/
theorem uopW1_moves_oldest {s t : State} (h : uopW1 s = some t) (hx : RingOk s.N s.tx) (he : emptyC s.tx = false) :
    ∃ b, t.txLog = s.txLog ++ [b] ∧ unread s.N s.tx = b :: unread t.N t.tx := by
  obtain ⟨-, rfl⟩ := uopW1_next h
  have hfifo := (Passed.get hx he).fifo
  refine ⟨Memory.getZ s.tx.mem s.tx.rd, dataWrite_txLog _ s, ?_⟩
  simpa [State.N] using hfifo.symm

/-- Settles O57: the byte that the step appends to the log is the one that it takes off the unread bytes. -/
theorem writeHandlerMovesOldestByte : Obligations.WriteHandlerMovesOldestByte := by
  intro s t hrange hg he hc hq hs hstep
  rw [step_handlerUop hs hc, orFault_next, handlerUop_w1 hq] at hstep
  obtain ⟨b, hlog, hunread⟩ := uopW1_moves_oldest hstep (RingOk.of_state hrange hg .tx) he
  rw [hlog, hunread]
  exact ⟨(List.append_cons ..).symm, rfl⟩

end Sys2Proof.Machine

/-! PROOFS. The two handshake FSMs: which µops move them, and that no queued byte is left with the transmit source disabled. -/

namespace Sys2Proof.Machine

/-! ### What moves the two enable bits -/

/-- No operation moves a handshake FSM at issue (spec R168). -/
theorem EffectMove.sources {s t : State} {i : Instr} (h : EffectMove s i t) :
    t.regs.rxIe = s.regs.rxIe ∧ t.regs.txIe = s.regs.txIe := by
  cases h <;> exact ⟨rfl, rfl⟩

/-- The µops of commands that move a handshake FSM, and where they put it (spec R101, R136, R138, R141). -/
theorem CallerMove.sources {s t : State} (h : CallerMove s t) :
    (t.regs.rxIe ≠ s.regs.rxIe →
      s.cpc = .i3 ∧ t.regs.rxIe = false ∨ (s.cpc = .b0 ∨ s.cpc = .b1e) ∧ t.regs.rxIe = true) ∧
    (t.regs.txIe ≠ s.regs.txIe →
      s.cpc = .i3 ∧ t.regs.txIe = false ∨ (s.cpc = .a0e ∨ s.cpc = .a5) ∧ t.regs.txIe = true) := by
  cases h with
  | i3 h => exact ⟨fun _ => .inl ⟨h, rfl⟩, fun _ => .inl ⟨h, rfl⟩⟩
  | b0 h => exact ⟨fun _ => .inr ⟨h, rfl⟩, (absurd rfl ·)⟩
  | a0e h => exact ⟨(absurd rfl ·), fun _ => .inr ⟨.inl h, rfl⟩⟩
  | a5 h | a5back h => exact ⟨(absurd rfl ·), fun _ => .inr ⟨.inr h, rfl⟩⟩
  | _ => simp

/-- The µops of handlers that move a handshake FSM, and where they put it (spec R157, R159, R161, R163). -/
theorem HandlerMove.sources {s t : State} (h : HandlerMove s t) :
    (t.regs.rxIe ≠ s.regs.rxIe →
      s.hpc = .h0 ∧ fullP s.N s.rx = true ∧ t.regs.rxIe = false ∨ s.hpc = .h4 ∧ t.regs.rxIe = true) ∧
    (t.regs.txIe ≠ s.regs.txIe →
      s.hpc = .w0 ∧ emptyC s.tx = true ∧ t.regs.txIe = false ∨ s.hpc = .w2 ∧ t.regs.txIe = true) := by
  cases h with
  | h0full h hf => exact ⟨fun _ => .inl ⟨h, hf, rfl⟩, (absurd rfl ·)⟩
  | h4 h => exact ⟨fun _ => .inr ⟨h, rfl⟩, (absurd rfl ·)⟩
  | w0empty h hf => exact ⟨(absurd rfl ·), fun _ => .inl ⟨h, hf, rfl⟩⟩
  | w2 h => exact ⟨(absurd rfl ·), fun _ => .inr ⟨h, rfl⟩⟩
  | _ => simp

/-- Settles O41: outside reset only a µop writes an enable bit. -/
theorem onlyNamedStepsMoveTheFsms : Obligations.OnlyNamedStepsMoveTheFsms := by
  intro s t hr h
  obtain ⟨p, -, hch⟩ := step_change h
  cases hch with
  | uop _ hc h => exact ⟨fun hne => .inl ⟨hc, h.sources.1 hne⟩, fun hne => .inl ⟨hc, h.sources.2 hne⟩⟩
  | handler _ hc h => exact ⟨fun hne => .inr ⟨hc, h.sources.1 hne⟩, fun hne => .inr ⟨hc, h.sources.2 hne⟩⟩
  | effect _ _ _ _ _ _ h => exact ⟨absurd h.sources.1, absurd h.sources.2⟩
  | reset he => exact absurd he hr
  | _ => exact ⟨(absurd rfl ·), (absurd rfl ·)⟩

/-! ### Queued bytes keep the transmit source enabled -/

theorem occ_zero_ring (n : Nat) : occ n Ring.zero = 0 := by simp [occ, Ring.zero]

theorem occ_congr {n : Nat} {x y : Ring} (hw : x.wr = y.wr) (hr : x.rd = y.rd) : occ n x = occ n y := by
  simp only [occ, hw, hr]

theorem RingOk.empty_iff_occ {n : Nat} {x : Ring} (hx : RingOk n x) : emptyC x = true ↔ occ n x = 0 :=
  hx.empty_iff.trans (occ_zero_iff hx.wr hx.rd).symm

theorem HandshakeOk.of_empty {s : State} (h : occ s.N s.tx = 0) : HandshakeOk s := (absurd h ·)

/-- The published byte's way to the enabled source: `A3` publishes, `A4` unmasks, `A5` enables (spec R137, R138). -/
theorem CallerMove.after_publish {s t : State} (h : CallerMove s t) :
    (s.cpc = .a3 → t.cpc = .a4) ∧ (s.cpc = .a4 → t.cpc = .a5) ∧ (s.cpc = .a5 → t.regs.txIe = true) := by
  cases h with
  | loopEnd h | b0 h => rcases h with h | h <;> simp [h]
  | loopCr _ _ h | loopChar _ _ h => rcases h with ⟨h, _⟩ | ⟨h, _⟩ <;> simp [h]
  | _ => simp_all

/-- A command that publishes goes on to enable the source, and `INIT` disables it only while the ring is empty (spec R101,
R138). -/
theorem CallerMove.handshakeOk {s t : State} (h : CallerMove s t) (hb : BootOk s) (hs : HandshakeOk s) :
    HandshakeOk t := by
  intro ho h4 h5
  obtain ⟨-, hrd, hwr, -⟩ := h.cursors
  obtain ⟨hpublish, hunmask, henable⟩ := h.after_publish
  by_cases ha5 : s.cpc = .a5
  · exact henable ha5
  have hocc : occ t.N t.tx = occ s.N s.tx := by
    rw [State.N, h.params]
    exact occ_congr (hwr fun ha3 => h4 (hpublish ha3)) hrd
  have hold : s.regs.txIe = true := hs (hocc ▸ ho) (fun ha4 => h5 (hunmask ha4)) ha5
  by_cases hne : t.regs.txIe = s.regs.txIe
  · exact hne.trans hold
  rcases h.sources.2 hne with ⟨hi3, -⟩ | ⟨-, hset⟩
  · have hboot := hb.sources (hb.not_inited (by rw [hi3]; rfl))
    simp [hold] at hboot
  · exact hset

/-- `TXH` disables the source only on an empty ring, and taking a byte leaves none where there was none (spec R161 to
R163). -/
theorem HandlerMove.handshakeOk {s t : State} (h : HandlerMove s t) (hi : Inv s) (hs : HandshakeOk s) : HandshakeOk t := by
  have hx : RingOk s.N s.tx := .of_state hi.range hi.coherent .tx
  cases h with
  | w0empty _ he => exact .of_empty (hx.empty_iff_occ.1 he)
  | w1 h =>
    have hne : occ s.N s.tx ≠ 0 := fun h0 => by
      simpa [hx.empty_iff_occ.2 h0] using hi.guards.txh h
    intro _ h4 h5
    simpa using hs hne (by simpa using h4) (by simpa using h5)
  | w2 => exact fun _ _ _ => rfl
  | _ => simpa [HandshakeOk] using hs

/-- At issue only `PUT.TX` queues a byte without enabling the source; `GET.TX` finds the source disabled only on an empty
ring (spec R92, R94). -/
theorem EffectMove.handshakeOk {s t : State} {i : Instr} (h : EffectMove s i t) (hput : ∀ b, i ≠ .putTx b)
    (hidle : s.cpc = .idle) (hi : Inv s) (hs : HandshakeOk s) : HandshakeOk t := by
  have hold : occ s.N s.tx ≠ 0 → s.regs.txIe = true := fun ho => hs ho (by simp [hidle]) (by simp [hidle])
  cases h with
  | putTx b | putTxFull b => exact absurd rfl (hput b)
  | getTx hoff he =>
    have hx : RingOk s.N s.tx := .of_state hi.range hi.coherent .tx
    have hne : occ s.N s.tx ≠ 0 := fun h0 => by simp [hx.empty_iff_occ.2 h0] at he
    simp [hold hne] at hoff
  | _ => exact fun ho _ _ => hold ho

theorem Change.handshakeOk {o s t : State} (h : Change o s t)
    (hput : ∀ r b, o.prog.head? = some r → decode r.word ≠ .ok (.putTx b)) (hi : Inv s) (hs : HandshakeOk s) :
    HandshakeOk t := by
  cases h with
  | effect i _ _ hidle _ hr h =>
    obtain ⟨r, rs, hprog, hd⟩ := hr
    have hne : ∀ b, i ≠ .putTx b := fun b hb =>
      hput r b (by rw [hprog]; rfl) (hb ▸ (decodeOn_ok hd).1)
    exact h.handshakeOk hne hidle hi hs
  | uop _ _ h => exact h.handshakeOk hi.boot hs
  | handler _ _ h => exact h.handshakeOk hi hs
  | initStart _ hidle => exact fun ho _ _ => hs ho (by simp [hidle]) (by simp [hidle])
  | reset => exact .of_empty (occ_zero_ring _)
  | _ => exact hs

/-- Settles O56: every change keeps the handshake, the commands' with the help of what holds before `INIT`, the handler's
with the ring test it acts on. -/
theorem stepKeepsHandshake : Obligations.StepKeepsHandshake := by
  intro s t hi hs hput h
  obtain ⟨p, -, hch⟩ := step_change h
  exact hch.handshakeOk hput (hi.queues p _) hs

end Sys2Proof.Machine

/-! PROOFS. The handlers, one µop at a time, their runs to the end where the ring has room or data, and where they may be
entered. -/

namespace Sys2Proof.Machine

/-! ### The µops of `RXH` -/

/-- With an empty schedule and a handler active, a step answers what the µop of `hpc` answers (spec R68). -/
theorem step_handler {s t : State} (hs : s.sched = []) (hc : s.ctx = .handler) (hu : handlerUop s = some t) :
    step s = .next t := by
  rw [step_handlerUop hs hc, hu, orFault]

theorem handlerUop_h0_full {s : State} (hq : s.hpc = .h0) (hf : fullP s.N s.rx = true) :
    handlerUop s = some { s with regs := { s.regs with rxIe := false }, hpc := .none, ctx := .caller } := by
  rw [handlerUop, hq]
  exact congrArg some (if_pos hf)

theorem handlerUop_h0_room {s : State} (hq : s.hpc = .h0) (hf : fullP s.N s.rx = false) :
    handlerUop s = some { s with hpc := .h1 } := by
  rw [handlerUop, hq]
  exact congrArg some (if_neg (Bool.eq_false_iff.1 hf))

/-- `H1` answers where the write cursor is inside ring `RX` (spec R41, R158). -/
theorem handlerUop_h1 {s : State} (hq : s.hpc = .h1) (hw : s.rx.wr < s.N) :
    handlerUop s = some
      { (dataRead s).2 with
        hb := (dataRead s).1
        rx := { s.rx with mem := Memory.setZ s.rx.mem s.rx.wr (dataRead s).1 }.advanceWr s.N
        hpc := .h2 } := by
  have hstore : memWrite .rxm (dataRead s).2.rx.wr (dataRead s).1 { (dataRead s).2 with hb := (dataRead s).1 } =
      some ({ (dataRead s).2 with hb := (dataRead s).1 }.putByte .rxm (dataRead s).2.rx.wr (dataRead s).1) :=
    memWrite_eq_some.2 ⟨by simpa using hw, rfl⟩
  simp only [handlerUop, hq, uopH1, hstore]
  simp

theorem handlerUop_h1_ready {s : State} (hq : s.hpc = .h1) (hw : s.rx.wr < s.N) (hr : s.regs.rxReady = true) :
    handlerUop s = some
      { s with
        hb := s.regs.rxHold
        rx := { s.rx with mem := Memory.setZ s.rx.mem s.rx.wr s.regs.rxHold }.advanceWr s.N
        regs := { s.regs with rxReady := false }
        hpc := .h2 } := by
  rw [handlerUop_h1 hq hw, dataRead_of_ready hr]

theorem handlerUop_h2 {s : State} (hq : s.hpc = .h2) :
    handlerUop s = some (if s.regs.txReady then { s with hpc := .h3 } else s) := by
  rw [handlerUop, hq]
  rfl

theorem handlerUop_h2_ready {s : State} (hq : s.hpc = .h2) (hr : s.regs.txReady = true) :
    handlerUop s = some { s with hpc := .h3 } :=
  (handlerUop_h2 hq).trans (congrArg some (if_pos hr))

theorem handlerUop_h3 {s : State} (hq : s.hpc = .h3) : handlerUop s = some { dataWrite s.hb s with hpc := .h4 } := by
  rw [handlerUop, hq]
  rfl

theorem handlerUop_h3_ready {s : State} (hq : s.hpc = .h3) (hr : s.regs.txReady = true) :
    handlerUop s = some
      { s with regs := { s.regs with txHold := s.hb, txReady := false }, txLog := s.txLog ++ [s.hb], hpc := .h4 } := by
  rw [handlerUop_h3 hq, dataWrite_of_ready hr]

theorem handlerUop_h4 {s : State} (hq : s.hpc = .h4) :
    handlerUop s = some { s with regs := { s.regs with rxIe := true }, hpc := .none, ctx := .caller } := by
  rw [handlerUop, hq]
  rfl

/-- Settles O32: each step is the µop that `hpc` names; the store of `H1` is inside ring `RX`. -/
theorem readHandlerMicroSequence : Obligations.ReadHandlerMicroSequence := fun _ hc hs =>
  ⟨fun hq hf => step_handler hs hc (handlerUop_h0_full hq hf),
    fun hq hf => step_handler hs hc (handlerUop_h0_room hq hf),
    fun hq hw => step_handler hs hc (handlerUop_h1 hq hw),
    fun hq => step_handler hs hc (handlerUop_h2 hq),
    fun hq => step_handler hs hc (handlerUop_h3 hq),
    fun hq => step_handler hs hc (handlerUop_h4 hq)⟩

/-! ### The µops of `TXH` -/

theorem handlerUop_w0_empty {s : State} (hq : s.hpc = .w0) (he : emptyC s.tx = true) :
    handlerUop s = some { s with regs := { s.regs with txIe := false }, hpc := .none, ctx := .caller } := by
  rw [handlerUop, hq]
  exact congrArg some (if_pos he)

/-- `W1` answers where the read cursor is inside ring `TX` (spec R41, R162). -/
theorem handlerUop_w1_of_lt {s : State} (hq : s.hpc = .w1) (hr : s.tx.rd < s.N) :
    handlerUop s = some { dataWrite (s.byteAt .txm s.tx.rd) s with tx := s.tx.advanceRd s.N, hpc := .w2 } := by
  have hread : memRead .txm s.tx.rd s = some (s.byteAt .txm s.tx.rd) := memRead_eq_some.2 ⟨hr, rfl⟩
  simp only [handlerUop_w1 hq, uopW1, hread]
  simp [State.N]

theorem handlerUop_w2 {s : State} (hq : s.hpc = .w2) :
    handlerUop s = some { s with regs := { s.regs with txIe := true }, hpc := .none, ctx := .caller } := by
  rw [handlerUop, hq]
  rfl

/-- Settles O34: each step is the µop that `hpc` names; the load of `W1` is inside ring `TX`. -/
theorem writeHandlerMicroSequence : Obligations.WriteHandlerMicroSequence := fun _ hc hs =>
  ⟨fun hq he => step_handler hs hc (handlerUop_w0_empty hq he),
    fun hq he => step_handler hs hc (handlerUop_w0_data hq he),
    fun hq hr => step_handler hs hc (handlerUop_w1_of_lt hq hr),
    fun hq => step_handler hs hc (handlerUop_w2 hq)⟩

/-! ### Entry, and the runs undisturbed -/

/-- In caller context, after `INIT`, the invocation of a handler is its entry (spec R155, R181). -/
theorem invoke_enters {s : State} (hc : s.ctx = .caller) (hi : s.inited = true) (q : HState) :
    invoke q s = .next (enterHandler q s) := by
  rw [invoke, hc, hi]
  rfl

/-- As `step_handler`, and the next step is undisturbed too: a step schedules nothing. -/
theorem step_handler_undisturbed {s t : State} (hs : s.sched = []) (hc : s.ctx = .handler)
    (hu : handlerUop s = some t) : step s = .next t ∧ t.sched = [] := by
  have hstep := step_handler hs hc hu
  exact ⟨hstep, (step_sched hstep).trans (congrArg List.tail hs)⟩

/-- Settles O33: the entry goes to `H0`, the full test passes, and the byte read is stored, published and echoed. -/
theorem rxhCompletes : Obligations.RxhCompletes := by
  intro s hc hn hi hs hw hf hrx htx
  refine ⟨(exec_rxh s).trans (invoke_enters hc hi .h0), ?_⟩
  obtain ⟨h1, hs⟩ := step_handler_undisturbed (s := { s with ctx := .handler, hpc := .h0 }) hs rfl
    (handlerUop_h0_room rfl hf)
  obtain ⟨h2, hs⟩ := step_handler_undisturbed hs rfl (handlerUop_h1_ready rfl hw hrx)
  obtain ⟨h3, hs⟩ := step_handler_undisturbed hs rfl (handlerUop_h2_ready rfl htx)
  obtain ⟨h4, hs⟩ := step_handler_undisturbed hs rfl (handlerUop_h3_ready rfl htx)
  obtain ⟨h5, -⟩ := step_handler_undisturbed hs rfl (handlerUop_h4 rfl)
  rw [steps_succ_next h1, steps_succ_next h2, steps_succ_next h3, steps_succ_next h4, steps_succ_next h5, steps_zero]
  cases s
  cases hc
  cases hn
  rfl

/-- Settles O35: the entry goes to `W0`, the empty test passes, and the oldest byte is written and its slot freed. -/
theorem txhCompletes : Obligations.TxhCompletes := by
  intro s hc hn hi hs hr he htx
  refine ⟨(exec_txh s).trans (invoke_enters hc hi .w0), ?_⟩
  obtain ⟨h1, hs⟩ := step_handler_undisturbed (s := { s with ctx := .handler, hpc := .w0 }) hs rfl
    (handlerUop_w0_data rfl he)
  obtain ⟨h2, hs⟩ := step_handler_undisturbed hs rfl (handlerUop_w1_ready rfl hr htx)
  obtain ⟨h3, -⟩ := step_handler_undisturbed hs rfl (handlerUop_w2 rfl)
  rw [steps_succ_next h1, steps_succ_next h2, steps_succ_next h3, steps_zero]
  cases s
  cases hc
  cases hn
  rfl

/-! ### No nesting -/

/-- The `Framework` presents nothing while a handler is active (spec R185). -/
theorem frameworkStep_in_handler {s : State} (hc : s.ctx = .handler) (w : Word) : frameworkStep w s = .next s := by
  rw [frameworkStep, hc]

/-- Where no direct call is offered its turn passes (spec R155, R223, log 11). -/
theorem callStep_refused {s : State} (h : s.ctx = .handler ∨ inBracket s.cpc = true) (w : Word) :
    callStep w s = .next s := by
  refine if_neg fun hcall => ?_
  obtain ⟨hc, hb⟩ := callable_iff.1 hcall
  rcases h with h | h
  · simp [hc] at h
  · simp [hb] at h

/-- Where it is offered, a direct call of a handler word is the entry step of that handler (spec R155). -/
theorem step_call_enters {s : State} {w : Word} {i : Instr} {q : HState} {es : List Event}
    (hd : decodeOn .dispatch w = .ok i) (hq : ∀ t, exec i t = invoke q t) (hcall : callable s = true)
    (hi : s.inited = true) (hs : s.sched = .call w :: es) :
    step s = .next { s with sched := es, ctx := .handler, hpc := q } := by
  obtain ⟨hc, -⟩ := callable_iff.1 hcall
  rw [step_calls hs hcall, present_ok hd, hq]
  exact invoke_enters (s := { s with sched := es }) hc hi q

/-- Settles O37: the turn passes in handler context and in a bracket, and elsewhere a call enters the handler it names. -/
theorem noNestingOfHandlers : Obligations.NoNestingOfHandlers := by
  refine fun s w es => ⟨fun hc hs => ?_, fun h hs => ?_, fun hc hb hi => ?_⟩
  · exact (step_cons hs).trans (frameworkStep_in_handler (s := { s with sched := es }) hc w)
  · exact (step_cons hs).trans (callStep_refused (s := { s with sched := es }) h w)
  · have hcall : callable s = true := callable_iff.2 ⟨hc, hb⟩
    exact ⟨step_call_enters (i := .rxh) rfl exec_rxh hcall hi, step_call_enters (i := .txh) rfl exec_txh hcall hi⟩

end Sys2Proof.Machine

/-! PROOFS. Dispatch: the `Framework`'s turn with a handler word, under the dispatch condition and otherwise. -/

namespace Sys2Proof.Machine

theorem rxIrq_iff {s : State} : rxIrq s = true ↔ s.regs.rxIe = true ∧ s.regs.rxReady = true :=
  Bool.and_eq_true_iff

theorem txIrq_iff {s : State} : txIrq s = true ↔ s.regs.txIe = true ∧ s.regs.txReady = true :=
  Bool.and_eq_true_iff

/-- Whatever is dispatched is dispatched in caller context and after `INIT` (spec R180). -/
theorem caller_inited_of_dispatchable {s : State} {i : Instr} (h : dispatchable s i = true) :
    s.ctx = .caller ∧ s.inited = true := by
  cases i with
  | rxh => obtain ⟨hi, hc, -⟩ := dispatchable_rxh.1 h; exact ⟨hc, hi⟩
  | txh => obtain ⟨hi, hc, -⟩ := dispatchable_txh.1 h; exact ⟨hc, hi⟩
  | _ => cases h

/-- The turn of a handler word is the entry step under the dispatch condition, and otherwise passes (spec R180, R181, log 8). -/
theorem step_dispatch {s : State} {w : Word} {i : Instr} {q : HState} {es : List Event}
    (hd : decodeOn .dispatch w = .ok i) (hq : ∀ t, exec i t = invoke q t) (hs : s.sched = .dispatch w :: es) :
    step s = .next
      (if dispatchable s i then { s with sched := es, ctx := .handler, hpc := q } else { s with sched := es }) := by
  rw [step_cons hs]
  refine (frameworkStep_ok hd _).trans ?_
  rw [dispatchable_sched]
  by_cases h : dispatchable s i = true
  · obtain ⟨hc, hi⟩ := caller_inited_of_dispatchable h
    rw [if_pos h, if_pos h, hq]
    exact invoke_enters (s := { s with sched := es }) hc hi q
  · rw [if_neg h, if_neg h]

theorem step_dispatch_rxh {s : State} {es : List Event} (hs : s.sched = .dispatch 0x1000 :: es) :
    step s = .next
      (if dispatchable s .rxh then { s with sched := es, ctx := .handler, hpc := .h0 } else { s with sched := es }) :=
  step_dispatch rfl exec_rxh hs

theorem step_dispatch_txh {s : State} {es : List Event} (hs : s.sched = .dispatch 0x1100 :: es) :
    step s = .next
      (if dispatchable s .txh then { s with sched := es, ctx := .handler, hpc := .w0 } else { s with sched := es }) :=
  step_dispatch rfl exec_txh hs

/-- Settles O36: the turn enters under the dispatch condition, which reads only the request of the handler presented. -/
theorem dispatchExactlyUnderItsCondition : Obligations.DispatchExactlyUnderItsCondition := by
  refine fun s es => ⟨fun hs => ?_, fun hs => ?_, fun hi hc hl hrx htx => ⟨?_, ?_⟩⟩
  · simp only [step_dispatch_rxh hs, dispatchable_rxh, rxIrq_iff]
  · simp only [step_dispatch_txh hs, dispatchable_txh, txIrq_iff]
  · exact (step_dispatch_rxh rfl).trans (congrArg _ (if_pos (dispatchable_rxh.2 ⟨hi, hc, hl, hrx⟩)))
  · exact (step_dispatch_txh rfl).trans (congrArg _ (if_pos (dispatchable_txh.2 ⟨hi, hc, hl, htx⟩)))

end Sys2Proof.Machine

/-! PROOFS. An asynchronous send on a full ring with the line masked: no handler can be entered to make room, so the wait loop
never ends. -/

namespace Sys2Proof.Machine

/-- The events of a schedule without reset and direct calls whose dispatches present legal handler words. -/
def LegalEvent (e : Event) : Prop :=
  e ≠ .reset ∧ ∀ w, e ≠ .call w ∧ (e = .dispatch w → ∃ i, decodeOn .dispatch w = .ok i)

/-- A queueing command waits in its loop for room in ring `TX`, with the line masked; the ring, the data register's log and the
fault register are those of `o`. -/
structure MaskedWait (o s : State) : Prop where
  ctx : s.ctx = .caller
  cpc : s.cpc = .a0 ∨ s.cpc = .a0e
  masked : s.regs.lineEn = false
  full : fullP s.N s.tx = true
  tx : s.tx = o.tx
  txLog : s.txLog = o.txLog
  fault : s.fault = o.fault

/-- The thread's turn goes round the loop, which leaves the ring full (spec R136). -/
theorem MaskedWait.thread {o s t : State} (hs : MaskedWait o s) (h : threadStep s = .next t) : MaskedWait o t := by
  rcases hs.cpc with hq | hq
  · rw [threadStep_uop hs.ctx (by simp [hq]), callerUop_a0_full hq hs.full] at h
    cases h
    exact { hs with cpc := .inr rfl }
  · rw [threadStep_uop hs.ctx (by simp [hq]), callerUop_a0e hq] at h
    cases h
    exact { hs with cpc := .inl rfl }

/-- Every agent's turn keeps the wait: the line changes none of it, and a masked line dispatches nothing (spec R180). -/
theorem MaskedWait.agent {o s t : State} {e : Event} (hs : MaskedWait o s) (he : LegalEvent e)
    (h : agentStep e s = .next t) : MaskedWait o t := by
  cases e with
  | thread => exact hs.thread h
  | lineRx b =>
    cases h
    rcases lineRxStep_cases b s with h | ⟨_, _, _, h⟩ | ⟨_, _, _, h⟩ <;> rw [h] <;> exact { hs with }
  | lineTx =>
    cases h
    rcases lineTxStep_cases s with h | ⟨_, _, _, h⟩ <;> rw [h] <;> exact { hs with }
  | dispatch w =>
    obtain ⟨i, hi⟩ := (he.2 w).2 rfl
    rw [agentStep, frameworkStep_ok hi, dispatchable_masked hs.masked i] at h
    cases h
    exact hs
  | call w => exact absurd rfl (he.2 w).1
  | reset => exact absurd rfl he.1

/-- The wait under a schedule of such events is kept by every step. -/
theorem MaskedWait.step {o s t : State} (hs : MaskedWait o s ∧ ∀ e ∈ s.sched, LegalEvent e) (h : step s = .next t) :
    MaskedWait o t ∧ ∀ e ∈ t.sched, LegalEvent e := by
  obtain ⟨hw, hl⟩ := hs
  refine ⟨?_, fun e he => hl e (List.mem_of_mem_tail (step_sched h ▸ he))⟩
  cases hsched : s.sched with
  | nil => exact hw.thread (step_nil hsched ▸ h)
  | cons e es =>
    rw [step_cons hsched] at h
    exact MaskedWait.agent (s := { s with sched := es }) { hw with } (hl e (by simp [hsched])) h

/-- Settles O59: the wait is an invariant of every such schedule, since `TXH`, which alone could make room meanwhile,
cannot be entered (spec R216). -/
theorem maskedSendOnFullRingHangs : Obligations.MaskedSendOnFullRingHangs := by
  intro n s t hctx hcpc hmasked hfull hsched hrun
  have hstart : MaskedWait s s := ⟨hctx, hcpc, hmasked, hfull, rfl, rfl, rfl⟩
  obtain ⟨hend, -⟩ := steps_keep (fun _ _ => MaskedWait.step) ⟨hstart, hsched⟩ hrun
  exact ⟨hend.ctx, hend.cpc, hend.tx, hend.txLog, hend.fault⟩

end Sys2Proof.Machine
